-- ==== Sys2Proof/Word.lean ====
section
/-! DEFINITION. The word and byte types (00_scope.md R7, R9, R10).
All values are unsigned; the operators `^^^`, `&&&`, `|||`, `~~~`, `<<<` and `>>>` of `BitVec 32` are rule R10's
operators, each truncated to 32 bits (log entry 14). -/

namespace Sys2Proof

/-- A 32-bit word, bit 0 least significant (R9). -/
abbrev Word := BitVec 32

/-- A byte. -/
abbrev Byte := BitVec 8

end Sys2Proof
end

