-- ==== Sys2Proof/Machine/ByteOrder.lean ====
section
/-! DEFINITION. Byte order, decided once for the engine, the host's accesses and the command word
(20_memory.md R44, R45, R46). -/

namespace Sys2Proof.Machine

/-- LE32 (R44): the least significant byte first. -/
def le32 (b0 b1 b2 b3 : Byte) : Word :=
  b0.setWidth 32 ||| (b1.setWidth 32 <<< 8) ||| (b2.setWidth 32 <<< 16) ||| (b3.setWidth 32 <<< 24)

/-- Byte `j` of a word, `w[8j+7 : 8j]` (R45). -/
def wordByte (w : Word) (j : Nat) : Byte := w.extractLsb' (8 * j) 8

/-- ST32 (R45): the bytes of a word, the least significant first. -/
def st32 (w : Word) : List Byte := [wordByte w 0, wordByte w 1, wordByte w 2, wordByte w 3]

/-- The little-endian composition of up to four bytes, `sum over j of byte j << 8j` (R46). -/
def leBytes : List Byte → Word
  | [] => 0
  | b :: bs => b.setWidth 32 ||| (leBytes bs <<< 8)

end Sys2Proof.Machine
end

