-- ==== Sys2Proof/Syntax.lean ====
section
/-! DEFINITION. The instructions: one constructor per row of spec/opcode_table.json.
The three host commands carry the CTRL data word `d`, their one operand (44_sequencer_and_commands.md R100 to R102).
A micro-operation whose row leaves bit 4 of the selector free (mask 0x0F, 30_encoding.md R65) carries that bit; the
others carry nothing, since no micro-operation has an immediate (R66). -/

namespace Sys2Proof

inductive Instr where
  /-- ENCRYPT: a CTRL write with `d & 3 = 1` (R61, R100). -/
  | encrypt (d : Word)
  /-- DECRYPT: a CTRL write with `d & 3 = 3` (R61, R101). -/
  | decrypt (d : Word)
  /-- SETOP: a CTRL write with `d & 1 = 0` (R61, R102). -/
  | setop (d : Word)
  /-- IDLE, PH = 0 (R105). -/
  | idle (op : BitVec 1)
  /-- CHECK, PH = 1 (R103). -/
  | check (op : BitVec 1)
  /-- KEYLOAD, PH = 2 (R80). -/
  | keyload (op : BitVec 1)
  /-- NONCE, PH = 3 (R81). -/
  | nonce (op : BitVec 1)
  /-- AD_FULL, PH = 4 (R82). -/
  | adFull (op : BitVec 1)
  /-- AD_PART, PH = 5 (R83). -/
  | adPart (op : BitVec 1)
  /-- MSG_FULL_ENC, PH = 6, OP = 0 (R90). -/
  | msgFullEnc
  /-- MSG_FULL_DEC, PH = 6, OP = 1 (R91). -/
  | msgFullDec
  /-- MSG_PART_ENC, PH = 7, OP = 0 (R92). -/
  | msgPartEnc
  /-- MSG_PART_DEC, PH = 7, OP = 1 (R93). -/
  | msgPartDec
  /-- FIN1, PH = 8 (R95). -/
  | fin1 (op : BitVec 1)
  /-- FIN2, PH = 9 (R96). -/
  | fin2 (op : BitVec 1)
  /-- FINISH_ENC, PH = 10, OP = 0 (R97). -/
  | finishEnc
  /-- VERIFY_DEC, PH = 10, OP = 1 (R98). -/
  | verifyDec
  deriving DecidableEq, Repr

end Sys2Proof
end

