-- ==== Sys2Proof/WellFormed.lean ====
section
/-! DEFINITION. Which terms are instructions: a host command's data word has the match bits of its row
(30_encoding.md R61). The reserved bits 31:2 are not checked (R62), and a micro-operation's operand is one bit of any
value (R65). -/

namespace Sys2Proof

def Instr.wf : Instr → Bool
  | .encrypt d => d &&& 0x3 == 0x1
  | .decrypt d => d &&& 0x3 == 0x3
  | .setop d => d &&& 0x1 == 0x0
  | .idle _ | .check _ | .keyload _ | .nonce _ | .adFull _ | .adPart _ => true
  | .msgFullEnc | .msgFullDec | .msgPartEnc | .msgPartDec => true
  | .fin1 _ | .fin2 _ | .finishEnc | .verifyDec => true

end Sys2Proof
end

