-- ==== Sys2Proof/Decode.lean ====
section
/-! DEFINITION. The decoder and, after it, the encoder (30_encoding.md R60 to R66).
There are two levels: the 32-bit data word of a CTRL write (R60), four bytes with the least significant first, and the
5-bit selector SEL (R64), held in the low bits of one byte (log entry 20). -/

namespace Sys2Proof

/-- The two levels of encoding (30_encoding.md, opening). -/
inductive Level where
  /-- The host command word, format CTRLW (R60). -/
  | command
  /-- The micro-operation selector, format SEL (R64). -/
  | selector
  deriving DecidableEq, Repr

/-- Why bytes are no instruction. -/
inductive DecodeReject where
  /-- A command is one 32-bit word (R63) and a selector one byte: these are not that many bytes. -/
  | wrongLength
  /-- Bits 7:5 of the byte are not zero: it is no 5-bit selector (R64; log entry 20). -/
  | notASelector
  /-- The selector's phase code is one of 11..15 (R65). -/
  | unreachablePhase
  deriving DecidableEq, Repr

/-- R61: every data word is exactly one of the three commands. -/
def decodeCommand (d : Word) : Instr :=
  if d &&& 0x3 = 0x1 then .encrypt d
  else if d &&& 0x3 = 0x3 then .decrypt d
  else .setop d

/-- SEL = (CTRL.OP << 4) | PH (R64). -/
def selectorOf (op : BitVec 1) (ph : BitVec 4) : BitVec 5 := op ++ ph

/-- Bit 4 of SEL (R64). -/
def selectorOp (sel : BitVec 5) : BitVec 1 := sel.extractLsb' 4 1

/-- Bits 3:0 of SEL (R64). -/
def selectorPhase (sel : BitVec 5) : BitVec 4 := sel.extractLsb' 0 4

/-- The table of R65. A row with mask 0x1F also looks at OP. -/
def decodeSelector (sel : BitVec 5) : Except DecodeReject Instr :=
  let op := selectorOp sel
  match (selectorPhase sel).toNat with
  | 0 => .ok (.idle op)
  | 1 => .ok (.check op)
  | 2 => .ok (.keyload op)
  | 3 => .ok (.nonce op)
  | 4 => .ok (.adFull op)
  | 5 => .ok (.adPart op)
  | 6 => .ok (if op = 0 then .msgFullEnc else .msgFullDec)
  | 7 => .ok (if op = 0 then .msgPartEnc else .msgPartDec)
  | 8 => .ok (.fin1 op)
  | 9 => .ok (.fin2 op)
  | 10 => .ok (if op = 0 then .finishEnc else .verifyDec)
  | _ => .error .unreachablePhase

/-- The decoder: total on any bytes. -/
def decodeBytes : Level → List Byte → Except DecodeReject Instr
  | .command, [b0, b1, b2, b3] => .ok (decodeCommand (Machine.le32 b0 b1 b2 b3))
  | .command, _ => .error .wrongLength
  | .selector, [b] =>
      if b.extractLsb' 5 3 = 0 then decodeSelector (b.extractLsb' 0 5) else .error .notASelector
  | .selector, _ => .error .wrongLength

/-- A command word with its row's match bits under its mask and the operand's other bits (R61, R62). -/
def commandWord (matchBits maskBits d : Word) : Word := (d &&& ~~~maskBits) ||| matchBits

/-- The byte that holds a selector (R64; log entry 20). -/
def selectorByte (sel : BitVec 5) : List Byte := [sel.setWidth 8]

/-- The level an instruction is encoded at. -/
def Instr.level : Instr → Level
  | .encrypt _ | .decrypt _ | .setop _ => .command
  | .idle _ | .check _ | .keyload _ | .nonce _ | .adFull _ | .adPart _ => .selector
  | .msgFullEnc | .msgFullDec | .msgPartEnc | .msgPartDec => .selector
  | .fin1 _ | .fin2 _ | .finishEnc | .verifyDec => .selector

/-- The encoder, from the tables of R61 and R65. -/
def encode : Instr → List Byte
  | .encrypt d => Machine.st32 (commandWord 0x1 0x3 d)
  | .decrypt d => Machine.st32 (commandWord 0x3 0x3 d)
  | .setop d => Machine.st32 (commandWord 0x0 0x1 d)
  | .idle op => selectorByte (selectorOf op 0)
  | .check op => selectorByte (selectorOf op 1)
  | .keyload op => selectorByte (selectorOf op 2)
  | .nonce op => selectorByte (selectorOf op 3)
  | .adFull op => selectorByte (selectorOf op 4)
  | .adPart op => selectorByte (selectorOf op 5)
  | .msgFullEnc => selectorByte 0x06
  | .msgFullDec => selectorByte 0x16
  | .msgPartEnc => selectorByte 0x07
  | .msgPartDec => selectorByte 0x17
  | .fin1 op => selectorByte (selectorOf op 8)
  | .fin2 op => selectorByte (selectorOf op 9)
  | .finishEnc => selectorByte 0x0A
  | .verifyDec => selectorByte 0x1A

/-- A row of spec/opcode_table.json: `word & mask = match` at its level (R61, R65). -/
structure Row where
  mnemonic : String
  level : Level
  matchBits : Nat
  maskBits : Nat
  deriving DecidableEq, Repr

/-- Does a row match an instruction's bits? -/
def Row.matches (r : Row) (l : Level) (w : Nat) : Bool := r.level == l && w &&& r.maskBits == r.matchBits

/-- The opcode table, in its own order (spec/opcode_table.json; R61, R65). -/
def opcodeTable : List Row :=
  [⟨"ENCRYPT", .command, 0x1, 0x3⟩, ⟨"DECRYPT", .command, 0x3, 0x3⟩, ⟨"SETOP", .command, 0x0, 0x1⟩] ++
  [⟨"IDLE", .selector, 0x00, 0x0F⟩, ⟨"CHECK", .selector, 0x01, 0x0F⟩, ⟨"KEYLOAD", .selector, 0x02, 0x0F⟩,
   ⟨"NONCE", .selector, 0x03, 0x0F⟩, ⟨"AD_FULL", .selector, 0x04, 0x0F⟩, ⟨"AD_PART", .selector, 0x05, 0x0F⟩] ++
  [⟨"MSG_FULL_ENC", .selector, 0x06, 0x1F⟩, ⟨"MSG_FULL_DEC", .selector, 0x16, 0x1F⟩,
   ⟨"MSG_PART_ENC", .selector, 0x07, 0x1F⟩, ⟨"MSG_PART_DEC", .selector, 0x17, 0x1F⟩] ++
  [⟨"FIN1", .selector, 0x08, 0x0F⟩, ⟨"FIN2", .selector, 0x09, 0x0F⟩, ⟨"FINISH_ENC", .selector, 0x0A, 0x1F⟩,
   ⟨"VERIFY_DEC", .selector, 0x1A, 0x1F⟩]

/-- An instruction's mnemonic in the table. -/
def Instr.mnemonic : Instr → String
  | .encrypt _ => "ENCRYPT"
  | .decrypt _ => "DECRYPT"
  | .setop _ => "SETOP"
  | .idle _ => "IDLE"
  | .check _ => "CHECK"
  | .keyload _ => "KEYLOAD"
  | .nonce _ => "NONCE"
  | .adFull _ => "AD_FULL"
  | .adPart _ => "AD_PART"
  | .msgFullEnc => "MSG_FULL_ENC"
  | .msgFullDec => "MSG_FULL_DEC"
  | .msgPartEnc => "MSG_PART_ENC"
  | .msgPartDec => "MSG_PART_DEC"
  | .fin1 _ => "FIN1"
  | .fin2 _ => "FIN2"
  | .finishEnc => "FINISH_ENC"
  | .verifyDec => "VERIFY_DEC"

/-- An instruction's bits as one number, numbered as spec/opcode_table.json numbers them. -/
def bytesNumber : List Byte → Nat
  | [] => 0
  | b :: bs => b.toNat + 256 * bytesNumber bs

/-- Which level a table row of `nbits` bits is written at: a selector's row has one byte, a command's four
(log entry 1). -/
def tableLevel (nbits : Nat) : Level := if nbits ≤ 8 then .selector else .command

/-- The bytes of a table row's word at a level, the first byte least significant; none where the word has bits the
level does not hold. -/
def tableBytes : Level → Nat → Option (List Byte)
  | .command, w => if w < 2 ^ 32 then some (Machine.st32 (BitVec.ofNat 32 w)) else none
  | .selector, w => if w < 2 ^ 8 then some [BitVec.ofNat 8 w] else none

/-- The instruction the decoder reads from a table row's word. -/
def decodeTableWord (nbits w : Nat) : Option Instr :=
  match tableBytes (tableLevel nbits) w with
  | none => none
  | some bytes =>
      match decodeBytes (tableLevel nbits) bytes with
      | .ok i => some i
      | .error _ => none

end Sys2Proof
end

