-- ==== Sys2Proof/Config.lean ====
section
/-! DEFINITION. The fixed parameters of 00_scope.md R7 and the parameters the spec leaves open (R8).
An open parameter is an opaque constant: nothing can prove a value of it, so a claim holds for every value the spec
admits. -/

namespace Sys2Proof.Config

/-- ROUNDS_SHORT, in bit-steps (R7, 40_register_engine.md R76). -/
def roundsShort : Nat := 640

/-- ROUNDS_LONG, in bit-steps (R7, R76). -/
def roundsLong : Nat := 1280

/-- FB_NONCE (R7, R77). -/
def fbNonce : Word := 0x10

/-- FB_AD (R7, R77). -/
def fbAd : Word := 0x30

/-- FB_MSG (R7, R77). -/
def fbMsg : Word := 0x50

/-- FB_FIN (R7, R77). -/
def fbFin : Word := 0x70

/-- The tag's length in bytes (R3, R7). -/
def tagLen : Nat := 8

/-- The aperture's size in bytes (20_memory.md R40). -/
def apertureBytes : Nat := 0x40000

/-- The parameter AD_CAP with its bound 0 <= AD_CAP <= 65536 (R8, D4). DESIGN CHOICE: one AD_CAP, and one IN_CAP, for
every instance of a platform; the spec does not say whether instances may differ (log entry 17). -/
opaque adCapParam : Fin 65537

/-- AD_CAP, the capacity of AB in bytes (R8). -/
def adCap : Nat := adCapParam.val

/-- The parameter IN_CAP - 8, with the bound that 8 <= IN_CAP <= 65528 gives it (R8, D4). One for every instance, a
DESIGN CHOICE as for AD_CAP (log entry 17). -/
opaque inCapParam : Fin 65521

/-- IN_CAP, the capacity of IB in bytes (R8). -/
def inCap : Nat := inCapParam.val + 8

/-- OUT_CAP = IN_CAP + 8 (R8). -/
def outCap : Nat := inCap + 8

/-- N_INST - 1 (R8, D24). -/
opaque nInstParam : Nat

/-- N_INST, the number of engine instances of a platform, at least 1 (R8). -/
def nInst : Nat := nInstParam + 1

/-- How many free places of an aperture's size lie before the aperture of instance `k`: before instance 0 from address
0 on, and before each further one from the end of the aperture before it on. Every set of 0x40000-aligned bases of
disjoint apertures is such a list of gaps (R8, D2, D24). -/
opaque baseGap : Nat → Nat

/-- BASE of instance `k` in units of the aperture's size. DESIGN CHOICE: the instances are numbered by rising BASE
(log entry 18). -/
def baseUnits : Nat → Nat
  | 0 => baseGap 0
  | k + 1 => baseUnits k + 1 + baseGap (k + 1)

/-- BASE, the bus address of the aperture of instance `k` (R8, 20_memory.md R40). -/
def base (k : Nat) : Nat := baseUnits k * apertureBytes

/-- bufInit: the value of the `n`-th draw, for a read of a buffer byte not written since reset (R8, D25). FREE VALUE
(log entry 4). -/
opaque bufInit : Nat → Byte

/-- The byte a host read finds past the end of the aperture, which is not this engine's; the `n`-th draw. FREE VALUE
(log entry 7). -/
opaque offAperture : Nat → Byte

end Sys2Proof.Config
end

