-- ==== Sys2Proof/Machine/State.lean ====
section
/-! DEFINITION. The state of one engine instance with what the outside world still does to it, as plain data
(10_state.md; INVENTORY.md lists every field with its rule). -/

namespace Sys2Proof.Machine

/-- The NFSR words S[0] (oldest) to S[3] (newest) (R20). -/
structure Nfsr where
  s0 : Word
  s1 : Word
  s2 : Word
  s3 : Word
  deriving DecidableEq, Repr

/-- The key words K[0..3], KEY0..KEY3 (R22). -/
structure Key where
  k0 : Word
  k1 : Word
  k2 : Word
  k3 : Word
  deriving DecidableEq, Repr

/-- The nonce words N[0..2], NONCE0..NONCE2 (R23). -/
structure Nonce where
  n0 : Word
  n1 : Word
  n2 : Word
  deriving DecidableEq, Repr

/-- The fields of STATUS (R25). Its reserved bits read 0 and are no storage. -/
structure Status where
  busy : Bool
  done : Bool
  outv : Bool
  err : BitVec 3
  deriving DecidableEq, Repr

/-- A byte buffer (R33): the bytes written since reset, as (index, byte) pairs with the indices strictly rising
(`Memory.wf`). An index that is not listed reads as `Memory.unlisted`. -/
abbrev Memory := List Host.Cell

/-- The width of a host access (R40). -/
inductive Width where
  | w8
  | w16
  | w32
  deriving DecidableEq, Repr

/-- One thing the outside world does to the engine: a line of a host program (30_encoding.md R67), or a reset
(70_reset_and_hazards.md R140). `off` is an aperture offset (20_memory.md R40). -/
inductive HostInput where
  /-- `wr32`, `wr16`, `wr8`: MemWrite(off, n, val). -/
  | write (off : BitVec 18) (width : Width) (val : Word)
  /-- `rd32`, `rd16`, `rd8`: MemRead(off, n). -/
  | read (off : BitVec 18) (width : Width)
  /-- `poll off, mask, val`: `rd32 off` until the value under the mask is `val`. -/
  | poll (off : BitVec 18) (mask val : Word)
  /-- The engine's reset is asserted. -/
  | reset
  deriving DecidableEq, Repr

/-- The two agents (44_sequencer_and_commands.md R107). -/
inductive Agent where
  | host
  | engine
  deriving DecidableEq, Repr

structure State where
  /-- S (R20). -/
  nfsr : Nfsr
  /-- KEY0..KEY3 (R22). -/
  key : Key
  /-- NONCE0..NONCE2 (R23). -/
  nonce : Nonce
  /-- CTRL.OP (R24): 0 encrypt, 1 decrypt. -/
  ctrlOp : BitVec 1
  /-- STATUS (R25). -/
  status : Status
  /-- AD_LEN (R26). -/
  adLen : Word
  /-- IN_LEN (R27). -/
  inLen : Word
  /-- OUT_LEN (R28). -/
  outLen : Word
  /-- PH (R30). -/
  ph : BitVec 4
  /-- NIDX (R31). -/
  nidx : Nat
  /-- ADP (R31). -/
  adp : Nat
  /-- MP (R31). -/
  mp : Nat
  /-- T0 (R32). -/
  t0 : Word
  /-- T1 (R32). -/
  t1 : Word
  /-- AB, keyed by byte index 0..AD_CAP-1 (R33). -/
  ab : Memory
  /-- IB, keyed by byte index 0..IN_CAP-1 (R33). -/
  ib : Memory
  /-- OB, keyed by byte index 0..OUT_CAP-1 (R33). -/
  ob : Memory
  /-- MODEL's own: what the outside world still does, oldest first (log entries 2 and 3). -/
  inputs : List HostInput
  /-- MODEL's own: who moves at the next points where both agents could, oldest first. FREE VALUE (log entry 3). -/
  sched : List Agent
  /-- MODEL's own: what the host's reads returned, newest first (log entry 15). -/
  observed : List Word
  /-- MODEL's own: how many free values were used, the argument of the next one (log entry 4). -/
  draws : Nat
  deriving DecidableEq, Repr

/-- Why the machine stops. The hardware has no such stop (60_exceptions.md R126); each of these is a state the spec
says no run reaches. -/
inductive Fault where
  /-- PH is one of 11..15 (30_encoding.md R65, D28). Raised by a step of either agent. Safe: no run reaches it. -/
  | unreachablePhase
  /-- STATUS.ERR is one of 4..7 (93_implementation_defined.md item 7). Raised by a step of either agent. Safe: no run
  reaches it. -/
  | reservedErrCode
  /-- NONCE with NIDX past 2: there is no such nonce word (R81). Raised by NONCE. Safe: no run reaches it
  (log entry 9). -/
  | nonceIndexOutOfRange
  /-- A data micro-operation outside the precondition its rule states (R82, R83, R90 to R93). Raised by AD_FULL,
  AD_PART and the four MSG micro-operations. Safe: no run reaches it (log entry 8). -/
  | phasePrecondition
  deriving DecidableEq, Repr

/-- Why an instruction has no meaning. -/
inductive Refusal where
  /-- The instruction has no meaning yet. Raised by an arm of `exec` only. Safe. -/
  | notModelled (mnemonic : String)
  deriving DecidableEq, Repr

/-- The state after reset (10_state.md R36, 70_reset_and_hazards.md R140). No byte of a buffer is listed. The model's
own fields are empty or zero (log entries 2, 3, 4, 15). -/
def State.reset : State where
  nfsr := ⟨0, 0, 0, 0⟩
  key := ⟨0, 0, 0, 0⟩
  nonce := ⟨0, 0, 0⟩
  ctrlOp := 0
  status := ⟨false, false, false, 0⟩
  adLen := 0
  inLen := 0
  outLen := 0
  ph := 0
  nidx := 0
  adp := 0
  mp := 0
  t0 := 0
  t1 := 0
  ab := []
  ib := []
  ob := []
  inputs := []
  sched := []
  observed := []
  draws := 0

end Sys2Proof.Machine
end

