-- ==== Sys2Proof/Machine/Flags.lean ====
section
/-! DEFINITION. STATUS and CTRL: the words a host reads (10_state.md R24, R25), the error codes (60_exceptions.md R120)
and every change of a STATUS field the rules make (44_sequencer_and_commands.md R100, R103, R106). -/

namespace Sys2Proof.Machine

/-- ERR code 0 (R120). -/
abbrev errNone : BitVec 3 := 0

/-- ERR code 1 (R120, R121). -/
abbrev errCtShort : BitVec 3 := 1

/-- ERR code 2 (R120, R122). -/
abbrev errCapacity : BitVec 3 := 2

/-- ERR code 3 (R120, R123). -/
abbrev errAuthFail : BitVec 3 := 3

/-- STATUS as a word: BUSY bit 0, DONE bit 1, OUTV bit 2, ERR bits 6:4, the rest 0 (R25). -/
def Status.toWord (f : Status) : Word :=
  (0 : BitVec 25) ++ f.err ++ (0 : BitVec 1) ++ BitVec.ofBool f.outv ++ BitVec.ofBool f.done ++ BitVec.ofBool f.busy

/-- CTRL as a word: OP bit 1, START and the reserved bits 0 (R24). -/
def ctrlWord (op : BitVec 1) : Word := (0 : BitVec 30) ++ op ++ (0 : BitVec 1)

/-- START: BUSY 1, DONE 0, ERR 0; OUTV unchanged (R100). -/
def Status.start (f : Status) : Status := { f with busy := true, done := false, err := errNone }

/-- Completion with a code: ERR the code, DONE 1, BUSY 0; OUTV unchanged (R106). -/
def Status.complete (f : Status) (code : BitVec 3) : Status := { f with busy := false, done := true, err := code }

/-- OUTV set or cleared (R103, R106). -/
def Status.withOutv (f : Status) (v : Bool) : Status := { f with outv := v }

end Sys2Proof.Machine
end

