-- ==== Sys2Proof/Machine/RegisterEngine.lean ====
section
/-! DEFINITION. The Register Engine (40_register_engine.md R70 to R78) and the NFSR's bit numbering (10_state.md R20).
`batch` and `batchesFrom` are the normative word form; the bit-serial form (R75) and the inverse (R78) are the spec's
derived views, kept for claims. -/

namespace Sys2Proof.Machine

/-- t1: register bits 47..78 (R70). -/
def tap1 (s : Nfsr) : Word := (s.s1 >>> 15) ||| (s.s2 <<< 17)

/-- t2: register bits 70..101 (R70). -/
def tap2 (s : Nfsr) : Word := (s.s2 >>> 6) ||| (s.s3 <<< 26)

/-- t3: register bits 85..116 (R70). -/
def tap3 (s : Nfsr) : Word := (s.s2 >>> 21) ||| (s.s3 <<< 11)

/-- t4: register bits 91..122 (R70). -/
def tap4 (s : Nfsr) : Word := (s.s2 >>> 27) ||| (s.s3 <<< 5)

/-- K[i mod 4] (R71, R73). -/
def Key.word (k : Key) (i : Nat) : Word :=
  match i % 4 with
  | 0 => k.k0
  | 1 => k.k1
  | 2 => k.k2
  | _ => k.k3

/-- The feedback word of batch `b` (R71). -/
def feedback (s : Nfsr) (k : Key) (b : Nat) : Word :=
  s.s0 ^^^ tap1 s ^^^ ~~~(tap2 s &&& tap3 s) ^^^ tap4 s ^^^ k.word b

/-- One batch of 32 bit-steps (R72). -/
def batch (s : Nfsr) (k : Key) (b : Nat) : Nfsr := ⟨s.s1, s.s2, s.s3, feedback s k b⟩

/-- `n` batches, the first numbered `b` (R73, R74). -/
def batchesFrom (k : Key) (b : Nat) : Nat → Nfsr → Nfsr
  | 0, s => s
  | n + 1, s => batchesFrom k (b + 1) n (batch s k b)

/-- The batch counter starts at 0 at every call (R73). -/
def batches (s : Nfsr) (k : Key) (n : Nat) : Nfsr := batchesFrom k 0 n s

/-- `advance(S, K, steps)` (R74), refused where `steps` is no multiple of 32 (R74, 93_implementation_defined.md
item 1). -/
def advance (s : Nfsr) (k : Key) (steps : Nat) : Option Nfsr :=
  if steps % 32 = 0 then some (batches s k (steps / 32)) else none

/-- `advance(S, K, ROUNDS_SHORT)` (R74, R76). -/
def advanceShort (s : Nfsr) (k : Key) : Nfsr := batches s k (Config.roundsShort / 32)

/-- `advance(S, K, ROUNDS_LONG)` (R74, R76). -/
def advanceLong (s : Nfsr) (k : Key) : Nfsr := batches s k (Config.roundsLong / 32)

/-- The 128-bit register: bit i is `S[i div 32][i mod 32]` (R20). -/
def Nfsr.bits (s : Nfsr) : BitVec 128 := s.s3 ++ s.s2 ++ s.s1 ++ s.s0

/-- The key as 128 bits: bit i is `K[i div 32][i mod 32]` (R75). -/
def Key.bits (k : Key) : BitVec 128 := k.k3 ++ k.k2 ++ k.k1 ++ k.k0

/-- The one-bit feedback of R75. -/
def bitFeedback (r : BitVec 128) (keyBit : Bool) : Bool :=
  r.getLsbD 0 ^^ r.getLsbD 47 ^^ !(r.getLsbD 70 && r.getLsbD 85) ^^ r.getLsbD 91 ^^ keyBit

/-- One bit-step: every bit moves down one place and the feedback comes in at bit 127 (R75). -/
def bitStep (r : BitVec 128) (keyBit : Bool) : BitVec 128 :=
  BitVec.ofBool (bitFeedback r keyBit) ++ r.extractLsb' 1 127

/-- `n` bit-steps, the first numbered `j`; bit-step j uses key bit `j mod 128` (R75). -/
def bitStepsFrom (k : Key) (j : Nat) : Nat → BitVec 128 → BitVec 128
  | 0, r => r
  | n + 1, r => bitStepsFrom k (j + 1) n (bitStep r (k.bits.getLsbD (j % 128)))

/-- R78: the state before the batch that gave `[a, c, d, f]`; the taps are those of `[_, a, c, d]`. -/
def unbatch (s : Nfsr) (k : Key) (b : Nat) : Nfsr :=
  let before : Nfsr := ⟨0, s.s0, s.s1, s.s2⟩
  ⟨s.s3 ^^^ tap1 before ^^^ ~~~(tap2 before &&& tap3 before) ^^^ tap4 before ^^^ k.word b, s.s0, s.s1, s.s2⟩

end Sys2Proof.Machine
end

