-- ==== Sys2Proof/Machine/Ops.lean ====
section
/-! DEFINITION. The named operations the meanings share: the byte buffers (20_memory.md R43 to R45, R50, R51), the byte
view of the NFSR (10_state.md R21, 20_memory.md R47), the domain-separation step (40_register_engine.md R77), and the
start and the completion of a transaction (44_sequencer_and_commands.md R100, R106), the taking of an error among them
(60_exceptions.md R127). -/

namespace Sys2Proof.Machine

/-! ### Byte buffers -/

/-- What a byte that is not listed reads as: no value. A read of it is a draw (R36; log entry 4). -/
def Memory.unlisted : Option Byte := none

/-- The byte written at an index since reset. -/
def Memory.get : Memory → Nat → Option Byte
  | [], _ => Memory.unlisted
  | (a, b) :: rest, o => if a = o then some b else Memory.get rest o

/-- Write one byte, keeping the indices strictly rising. -/
def Memory.set : Memory → Nat → Byte → Memory
  | [], o, v => [(o, v)]
  | (a, b) :: rest, o, v =>
      if o < a then (o, v) :: (a, b) :: rest
      else if o = a then (a, v) :: rest
      else (a, b) :: Memory.set rest o v

/-- The canonical form: indices strictly rising. No entry can equal what an unlisted byte reads as, which is no
value. -/
abbrev Memory.wf (m : Memory) : Prop := m.Pairwise fun x y => x.1 < y.1

/-- Read one byte, by either agent: the byte written there, or the next draw (R36, R50, D25). The number is how many
draws the run has made. -/
def Memory.load1 (m : Memory) (o d : Nat) : Byte × Nat :=
  match Memory.get m o with
  | some b => (b, d)
  | none => (Config.bufInit d, d + 1)

/-- Read `n` bytes from index `o` on, in rising order. -/
def Memory.loadBytes (m : Memory) (o : Nat) : Nat → Nat → List Byte × Nat
  | 0, d => ([], d)
  | n + 1, d =>
      let b := Memory.load1 m o d
      let bs := Memory.loadBytes m (o + 1) n b.2
      (b.1 :: bs.1, bs.2)

/-- The word of a buffer at byte index `o`, LE32 of its four bytes (R44). -/
def Memory.loadWord (m : Memory) (o d : Nat) : Word × Nat :=
  let b0 := Memory.load1 m o d
  let b1 := Memory.load1 m (o + 1) b0.2
  let b2 := Memory.load1 m (o + 2) b1.2
  let b3 := Memory.load1 m (o + 3) b2.2
  (le32 b0.1 b1.1 b2.1 b3.1, b3.2)

/-- Write bytes from index `o` on (R45). -/
def Memory.storeBytes (m : Memory) (o : Nat) : List Byte → Memory
  | [] => m
  | b :: bs => Memory.storeBytes (Memory.set m o b) (o + 1) bs

/-- Bytes 0 to n-1 set to zero (R98). -/
def Memory.zeroFirst (m : Memory) (n : Nat) : Memory := Memory.storeBytes m 0 (List.replicate n 0)

/-! ### The byte view of the NFSR -/

/-- S[i] (R20). -/
def Nfsr.word (s : Nfsr) : Nat → Word
  | 0 => s.s0
  | 1 => s.s1
  | 2 => s.s2
  | _ => s.s3

/-- S[i] replaced. -/
def Nfsr.setWord (s : Nfsr) (i : Nat) (v : Word) : Nfsr :=
  match i with
  | 0 => { s with s0 := v }
  | 1 => { s with s1 := v }
  | 2 => { s with s2 := v }
  | _ => { s with s3 := v }

/-- A word with byte `j` replaced and its other bits kept. -/
def setWordByte (w : Word) (j : Nat) (v : Byte) : Word :=
  (w &&& ~~~((0xFF : Word) <<< (8 * j))) ||| (v.setWidth 32 <<< (8 * j))

/-- SB[n], for n below 16 (R21). -/
def Nfsr.byte (s : Nfsr) (n : Nat) : Byte := wordByte (s.word (n / 4)) (n % 4)

/-- `SB[n] <- v`, for n below 16 (R21). -/
def Nfsr.setByte (s : Nfsr) (n : Nat) (v : Byte) : Nfsr :=
  s.setWord (n / 4) (setWordByte (s.word (n / 4)) (n % 4) v)

/-- `SB[n] <- SB[n] ^ v`. -/
def Nfsr.xorByte (s : Nfsr) (n : Nat) (v : Byte) : Nfsr := s.setByte n (s.byte n ^^^ v)

/-- `S[3] <- S[3] ^ x`: a word absorbed (R81, R82, R90, R91). -/
def Nfsr.absorbWord (s : Nfsr) (x : Word) : Nfsr := { s with s3 := s.s3 ^^^ x }

/-- `S[1] <- S[1] ^ zext_32(v)`: a domain constant or a length tweak (R66, R77). -/
def Nfsr.xorWord1 (s : Nfsr) (v : Word) : Nfsr := { s with s1 := s.s1 ^^^ v }

/-- The byte loop of AD_PART: `SB[12+j] <- SB[12+j] ^ d[j]`, from byte `j` on (R47, R83). -/
def absorbBytes (s : Nfsr) (j : Nat) : List Byte → Nfsr
  | [] => s
  | d :: ds => absorbBytes (s.xorByte (12 + j) d) (j + 1) ds

/-- The byte loop of MSG_PART_ENC from byte `j` on: the register after it and the ciphertext bytes (R92). -/
def encryptBytes (s : Nfsr) (j : Nat) : List Byte → Nfsr × List Byte
  | [] => (s, [])
  | x :: xs =>
      let rest := encryptBytes (s.xorByte (12 + j) x) (j + 1) xs
      (rest.1, (s.byte (8 + j) ^^^ x) :: rest.2)

/-- The byte loop of MSG_PART_DEC from byte `j` on: the register after it and the recovered bytes (R93). -/
def decryptBytes (s : Nfsr) (j : Nat) : List Byte → Nfsr × List Byte
  | [] => (s, [])
  | y :: ys =>
      let p := y ^^^ s.byte (8 + j)
      let rest := decryptBytes (s.xorByte (12 + j) p) (j + 1) ys
      (rest.1, p :: rest.2)

/-! ### The domain-separation step -/

/-- A domain constant into word1, then 640 steps (R77; R81 to R83, R96). -/
def tagShort (s : Nfsr) (k : Key) (tag : Word) : Nfsr := advanceShort (s.xorWord1 tag) k

/-- A domain constant into word1, then 1280 steps (R77; R90 to R93, R95). -/
def tagLong (s : Nfsr) (k : Key) (tag : Word) : Nfsr := advanceLong (s.xorWord1 tag) k

/-! ### Phases, the start and the end of a transaction -/

/-- The phase codes (R30). -/
abbrev phIdle : BitVec 4 := 0
abbrev phCheck : BitVec 4 := 1
abbrev phKeyload : BitVec 4 := 2
abbrev phNonce : BitVec 4 := 3
abbrev phAdFull : BitVec 4 := 4
abbrev phAdPart : BitVec 4 := 5
abbrev phMsgFull : BitVec 4 := 6
abbrev phMsgPart : BitVec 4 := 7
abbrev phFin1 : BitVec 4 := 8
abbrev phFin2 : BitVec 4 := 9
abbrev phFinish : BitVec 4 := 10

/-- The effect of an ENCRYPT or DECRYPT that is accepted (R100, R101). -/
def State.startTransaction (s : State) (op : BitVec 1) : State :=
  { s with ctrlOp := op, status := s.status.start, ph := phCheck }

/-- S, T0, T1 and the counters to zero (R106). -/
def State.zeroize (s : State) : State :=
  { s with nfsr := ⟨0, 0, 0, 0⟩, t0 := 0, t1 := 0, nidx := 0, adp := 0, mp := 0 }

/-- The record every completion makes: the code in ERR, DONE, not BUSY, IDLE (R106, R127). -/
def State.endTransaction (s : State) (code : BitVec 3) : State :=
  { s with status := s.status.complete code, ph := phIdle }

/-- `complete_err(code)` (R106): an error taken by CHECK. -/
def State.completeErr (s : State) (code : BitVec 3) : State := s.endTransaction code

/-- `complete_ok(n)` (R106). -/
def State.completeOk (s : State) (n : Nat) : State :=
  ({ s with outLen := BitVec.ofNat 32 n, status := s.status.withOutv true }).zeroize.endTransaction errNone

/-- `complete_auth_fail()` (R106): an error taken by VERIFY_DEC, after it has zeroed OB. -/
def State.completeAuthFail (s : State) : State :=
  ({ s with outLen := 0, status := s.status.withOutv false }).zeroize.endTransaction errAuthFail

end Sys2Proof.Machine
end

