-- ==== Sys2Proof/Machine/Operands.lean ====
section
/-! DEFINITION. The implicit operands of the micro-operations (30_encoding.md R66): the message length, the chunk
lengths, the nonce word and the data bytes; and NEXT_INPUT, which those lengths decide
(44_sequencer_and_commands.md R104). Lengths are natural numbers (00_scope.md R11). -/

namespace Sys2Proof.Machine

/-- ML (10_state.md R37). The rule defines it once CHECK has passed; a decrypt with IN_LEN < 8 never passes
(log entry 11). -/
def State.ml (s : State) : Nat := if s.ctrlOp = 0 then s.inLen.toNat else s.inLen.toNat - Config.tagLen

/-- r = AD_LEN - ADP, the length of the trailing AD chunk (R83). -/
def State.adRest (s : State) : Nat := s.adLen.toNat - s.adp

/-- r = ML - MP, the length of the trailing message chunk (R92, R93). -/
def State.msgRest (s : State) : Nat := s.ml - s.mp

/-- N[NIDX] (R81); there is none past N[2]. -/
def State.nonceWord (s : State) : Option Word :=
  match s.nidx with
  | 0 => some s.nonce.n0
  | 1 => some s.nonce.n1
  | 2 => some s.nonce.n2
  | _ => none

/-- The AD word at ADP, and the draws after reading it (R82). -/
def State.adWord (s : State) : Word × Nat := Memory.loadWord s.ab s.adp s.draws

/-- The AD bytes from ADP to AD_LEN-1 (R83). -/
def State.adChunk (s : State) : List Byte × Nat := Memory.loadBytes s.ab s.adp s.adRest s.draws

/-- The input word at MP (R90, R91). -/
def State.msgWord (s : State) : Word × Nat := Memory.loadWord s.ib s.mp s.draws

/-- The input bytes from MP to ML-1 (R92, R93). -/
def State.msgChunk (s : State) : List Byte × Nat := Memory.loadBytes s.ib s.mp s.msgRest s.draws

/-- The supplied tag, IB[ML .. ML+7] (R98). -/
def State.suppliedTag (s : State) : List Byte × Nat := Memory.loadBytes s.ib s.ml Config.tagLen s.draws

/-- The computed tag, ST32(T0) then ST32(T1) (R97, R98). -/
def State.tagBytes (s : State) : List Byte := st32 s.t0 ++ st32 s.t1

/-- NEXT_INPUT() (R104). -/
def State.nextInput (s : State) : BitVec 4 :=
  if s.adp + 4 ≤ s.adLen.toNat then phAdFull
  else if s.adp < s.adLen.toNat then phAdPart
  else if s.mp + 4 ≤ s.ml then phMsgFull
  else if s.mp < s.ml then phMsgPart
  else phFin1

/-- `PH <- NEXT_INPUT()`. -/
def State.enterNextInput (s : State) : State := { s with ph := s.nextInput }

end Sys2Proof.Machine
end

