-- ==== Sys2Proof/Machine/Commands.lean ====
section
/-! DEFINITION. The host commands (44_sequencer_and_commands.md R100 to R102). Each is the effect of a CTRL write with
the data word `d`; while BUSY = 1 the write is ignored (20_memory.md R48). -/

namespace Sys2Proof.Machine

/-- ENCRYPT (R100). Bits 31:2 of the data word are ignored (R62), and its low bits are the decoder's. -/
def execEncrypt (s : State) : Host.Outcome State Fault Refusal :=
  .next (if s.status.busy then s else s.startTransaction 0)

/-- DECRYPT (R101). -/
def execDecrypt (s : State) : Host.Outcome State Fault Refusal :=
  .next (if s.status.busy then s else s.startTransaction 1)

/-- SETOP: `CTRL.OP <- d[1]` (R102). -/
def execSetop (d : Word) (s : State) : Host.Outcome State Fault Refusal :=
  .next (if s.status.busy then s else { s with ctrlOp := d.extractLsb' 1 1 })

end Sys2Proof.Machine
end

