-- ==== Sys2Proof/Machine/Finalization.lean ====
section
/-! DEFINITION. Finalization and tag verification (43_finalization.md R95 to R98). -/

namespace Sys2Proof.Machine

/-- FIN1 (R95). -/
def execFin1 (s : State) : Host.Outcome State Fault Refusal :=
  let n := tagLong s.nfsr s.key Config.fbFin
  .next { s with nfsr := n, t0 := n.s2, ph := phFin2 }

/-- FIN2 (R96). -/
def execFin2 (s : State) : Host.Outcome State Fault Refusal :=
  let n := tagShort s.nfsr s.key Config.fbFin
  .next { s with nfsr := n, t1 := n.s2, ph := phFinish }

/-- FINISH_ENC (R97): the tag is appended at OB[ML]. -/
def execFinishEnc (s : State) : Host.Outcome State Fault Refusal :=
  .next (({ s with ob := Memory.storeBytes s.ob s.ml s.tagBytes }).completeOk (s.ml + Config.tagLen))

/-- All differences of two tags, accumulated from `acc` on over every byte (R98). -/
def tagDifference (acc : Byte) : List Byte → List Byte → Byte
  | t :: ts, b :: bs => tagDifference (acc ||| (t ^^^ b)) ts bs
  | _, _ => acc

/-- VERIFY_DEC (R98): all 8 bytes are compared; on a difference OB[0 .. ML-1] is zeroed and the error is taken. -/
def execVerifyDec (s : State) : Host.Outcome State Fault Refusal :=
  let supplied := s.suppliedTag
  let t := { s with draws := supplied.2 }
  .next (if tagDifference 0 s.tagBytes supplied.1 = 0 then t.completeOk s.ml
    else ({ t with ob := Memory.zeroFirst s.ob s.ml }).completeAuthFail)

end Sys2Proof.Machine
end

