-- ==== Sys2Proof/Machine/InitAd.lean ====
section
/-! DEFINITION. Initialization and associated-data absorption (41_init_ad.md R80 to R83). -/

namespace Sys2Proof.Machine

/-- KEYLOAD (R80). -/
def execKeyload (s : State) : Host.Outcome State Fault Refusal :=
  .next { s with nfsr := advanceLong ⟨0, 0, 0, 0⟩ s.key, ph := phNonce }

/-- NONCE (R81): one nonce word; on from the third to NEXT_INPUT. NIDX past 2 names no word (log entry 9). -/
def execNonce (s : State) : Host.Outcome State Fault Refusal :=
  match s.nonceWord with
  | none => .fault .nonceIndexOutOfRange
  | some w =>
      let t := { s with nfsr := (tagShort s.nfsr s.key Config.fbNonce).absorbWord w, nidx := s.nidx + 1 }
      .next (if t.nidx = 3 then t.enterNextInput else { t with ph := phNonce })

/-- AD_FULL (R82), where its precondition holds (log entry 8). -/
def execAdFull (s : State) : Host.Outcome State Fault Refusal :=
  if s.adp + 4 ≤ s.adLen.toNat then
    let x := s.adWord
    .next ({ s with
      nfsr := (tagShort s.nfsr s.key Config.fbAd).absorbWord x.1, adp := s.adp + 4, draws := x.2 }).enterNextInput
  else .fault .phasePrecondition

/-- AD_PART (R83), where its precondition holds (log entry 8): the bytes, then the length tweak. -/
def execAdPart (s : State) : Host.Outcome State Fault Refusal :=
  if 1 ≤ s.adRest ∧ s.adRest ≤ 3 then
    let x := s.adChunk
    .next ({ s with
      nfsr := (absorbBytes (tagShort s.nfsr s.key Config.fbAd) 0 x.1).xorWord1 (BitVec.ofNat 32 s.adRest)
      adp := s.adLen.toNat
      draws := x.2 }).enterNextInput
  else .fault .phasePrecondition

end Sys2Proof.Machine
end

