-- ==== Sys2Proof/Machine/Message.lean ====
section
/-! DEFINITION. The message transform (42_message.md R90 to R93). Each micro-operation runs where the precondition its
rule states holds (log entry 8). -/

namespace Sys2Proof.Machine

/-- MSG_FULL_ENC (R90): the plaintext word is absorbed. -/
def execMsgFullEnc (s : State) : Host.Outcome State Fault Refusal :=
  if s.mp + 4 ≤ s.ml then
    let n := tagLong s.nfsr s.key Config.fbMsg
    let x := s.msgWord
    .next ({ s with
      nfsr := n.absorbWord x.1
      ob := Memory.storeBytes s.ob s.mp (st32 (n.s2 ^^^ x.1))
      mp := s.mp + 4
      draws := x.2 }).enterNextInput
  else .fault .phasePrecondition

/-- MSG_FULL_DEC (R91): the recovered word is absorbed. -/
def execMsgFullDec (s : State) : Host.Outcome State Fault Refusal :=
  if s.mp + 4 ≤ s.ml then
    let n := tagLong s.nfsr s.key Config.fbMsg
    let y := s.msgWord
    .next ({ s with
      nfsr := n.absorbWord (n.s2 ^^^ y.1)
      ob := Memory.storeBytes s.ob s.mp (st32 (n.s2 ^^^ y.1))
      mp := s.mp + 4
      draws := y.2 }).enterNextInput
  else .fault .phasePrecondition

/-- MSG_PART_ENC (R92): the bytes, then the length tweak. -/
def execMsgPartEnc (s : State) : Host.Outcome State Fault Refusal :=
  if 1 ≤ s.msgRest ∧ s.msgRest ≤ 3 then
    let x := s.msgChunk
    let r := encryptBytes (tagLong s.nfsr s.key Config.fbMsg) 0 x.1
    .next ({ s with
      nfsr := r.1.xorWord1 (BitVec.ofNat 32 s.msgRest)
      ob := Memory.storeBytes s.ob s.mp r.2
      mp := s.ml
      draws := x.2 }).enterNextInput
  else .fault .phasePrecondition

/-- MSG_PART_DEC (R93): the bytes, then the length tweak. -/
def execMsgPartDec (s : State) : Host.Outcome State Fault Refusal :=
  if 1 ≤ s.msgRest ∧ s.msgRest ≤ 3 then
    let y := s.msgChunk
    let r := decryptBytes (tagLong s.nfsr s.key Config.fbMsg) 0 y.1
    .next ({ s with
      nfsr := r.1.xorWord1 (BitVec.ofNat 32 s.msgRest)
      ob := Memory.storeBytes s.ob s.mp r.2
      mp := s.ml
      draws := y.2 }).enterNextInput
  else .fault .phasePrecondition

end Sys2Proof.Machine
end

