-- ==== Sys2Proof/Machine/Sequencer.lean ====
section
/-! DEFINITION. IDLE and CHECK (44_sequencer_and_commands.md R103, R105). -/

namespace Sys2Proof.Machine

/-- IDLE: the engine waits, and nothing changes (R105; log entry 12). -/
def execIdle (s : State) : Host.Outcome State Fault Refusal := .next s

/-- The condition of CT_SHORT: a decrypt with IN_LEN < 8 (R103, R121). -/
def State.ctShort (s : State) : Bool := s.ctrlOp == 1 && decide (s.inLen.toNat < Config.tagLen)

/-- The condition of CAPACITY (R103, R122). -/
def State.overCapacity (s : State) : Bool :=
  decide (s.adLen.toNat > Config.adCap) || decide (s.inLen.toNat > Config.inCap)

/-- A CHECK that passes: no valid output, the counters to zero, on to KEYLOAD (R103). -/
def State.passCheck (s : State) : State :=
  { s with status := s.status.withOutv false, outLen := 0, nidx := 0, adp := 0, mp := 0, ph := phKeyload }

/-- CHECK (R103): CT_SHORT before CAPACITY (R124). -/
def execCheck (s : State) : Host.Outcome State Fault Refusal :=
  .next (if s.ctShort then s.completeErr errCtShort
    else if s.overCapacity then s.completeErr errCapacity
    else s.passCheck)

end Sys2Proof.Machine
end

