-- ==== Sys2Proof/Machine/Dispatch.lean ====
section
/-! DEFINITION. One arm per instruction: the meaning it calls. -/

namespace Sys2Proof.Machine

def exec (i : Instr) (s : State) : Host.Outcome State Fault Refusal :=
  match i with
  | .encrypt _ => Sys2Proof.Machine.execEncrypt s
  | .decrypt _ => Sys2Proof.Machine.execDecrypt s
  | .setop d => Sys2Proof.Machine.execSetop d s
  | .idle _ => Sys2Proof.Machine.execIdle s
  | .check _ => Sys2Proof.Machine.execCheck s
  | .keyload _ => Sys2Proof.Machine.execKeyload s
  | .nonce _ => Sys2Proof.Machine.execNonce s
  | .adFull _ => Sys2Proof.Machine.execAdFull s
  | .adPart _ => Sys2Proof.Machine.execAdPart s
  | .msgFullEnc => Sys2Proof.Machine.execMsgFullEnc s
  | .msgFullDec => Sys2Proof.Machine.execMsgFullDec s
  | .msgPartEnc => Sys2Proof.Machine.execMsgPartEnc s
  | .msgPartDec => Sys2Proof.Machine.execMsgPartDec s
  | .fin1 _ => Sys2Proof.Machine.execFin1 s
  | .fin2 _ => Sys2Proof.Machine.execFin2 s
  | .finishEnc => Sys2Proof.Machine.execFinishEnc s
  | .verifyDec => Sys2Proof.Machine.execVerifyDec s

end Sys2Proof.Machine
end

