-- ==== Sys2Proof/Machine/HostPort.lean ====
section
/-! DEFINITION. The host's accesses to the aperture: the register block (20_memory.md R41, R42), the buffer windows
(R43, R46), the busy rule (R48) and the output view (R49); and the reset action (70_reset_and_hazards.md R140). A write
to CTRL is a command and is not here: Machine/Agents.lean decodes it. -/

namespace Sys2Proof.Machine

/-! ### The address map (R41) -/

abbrev offCtrl : Nat := 0x00
abbrev offStatus : Nat := 0x04
abbrev offAdLen : Nat := 0x08
abbrev offInLen : Nat := 0x0C
abbrev offOutLen : Nat := 0x10
abbrev offAdCapr : Nat := 0x14
abbrev offInCapr : Nat := 0x18
abbrev offKey (i : Nat) : Nat := 0x20 + 4 * i
abbrev offNonce (i : Nat) : Nat := 0x30 + 4 * i
abbrev offAdBuf : Nat := 0x10000
abbrev offInBuf : Nat := 0x20000
abbrev offOutBuf : Nat := 0x30000

/-- The bytes of an access (R40). -/
def Width.bytes : Width → Nat
  | .w8 => 1
  | .w16 => 2
  | .w32 => 4

/-- An access inside the register block, by the offset it names (R42; log entry 6). -/
def inRegisterBlock (off : BitVec 18) : Bool := decide (off.toNat < offAdBuf)

/-- The only access the register block defines: 4 bytes at a multiple of 4 (R42). -/
def isWordAccess (off : BitVec 18) (w : Width) : Bool := w == .w32 && off.toNat % 4 == 0

/-! ### Reads -/

/-- What an aligned 4-byte read of the register block returns. KEY, and every reserved offset, reads 0
(R41, 10_state.md R22 to R29). -/
def readRegister (s : State) (off : Nat) : Word :=
  if off = offCtrl then ctrlWord s.ctrlOp
  else if off = offStatus then s.status.toWord
  else if off = offAdLen then s.adLen
  else if off = offInLen then s.inLen
  else if off = offOutLen then s.outLen
  else if off = offAdCapr then BitVec.ofNat 32 Config.adCap
  else if off = offInCapr then BitVec.ofNat 32 Config.inCap
  else if off = offNonce 0 then s.nonce.n0
  else if off = offNonce 1 then s.nonce.n1
  else if off = offNonce 2 then s.nonce.n2
  else 0

/-- The OUT_BUF view of byte `o` (R49). -/
def readOutput (s : State) (o d : Nat) : Byte × Nat :=
  if s.status.busy = false ∧ s.status.outv = true ∧ o < s.outLen.toNat then Memory.load1 s.ob o d else (0, d)

/-- A byte read at aperture offset `a`, at or above 0x10000 (R43). A byte past the aperture is not this engine's: its
value is free (log entry 7). -/
def readWindowByte (s : State) (a d : Nat) : Byte × Nat :=
  match a / 0x10000 with
  | 0 => (0, d)
  | 1 => if a % 0x10000 < Config.adCap then Memory.load1 s.ab (a % 0x10000) d else (0, d)
  | 2 => if a % 0x10000 < Config.inCap then Memory.load1 s.ib (a % 0x10000) d else (0, d)
  | 3 => readOutput s (a % 0x10000) d
  | _ => (Config.offAperture d, d + 1)

/-- `n` bytes read from offset `a` on, each by its own offset (R46). -/
def readWindow (s : State) (a : Nat) : Nat → Nat → List Byte × Nat
  | 0, d => ([], d)
  | n + 1, d =>
      let b := readWindowByte s a d
      let bs := readWindow s (a + 1) n b.2
      (b.1 :: bs.1, bs.2)

/-- MemRead(off, n): the value, and the draws after it (R42, R46). -/
def hostRead (s : State) (off : BitVec 18) (w : Width) : Word × Nat :=
  if inRegisterBlock off then
    (if isWordAccess off w then readRegister s off.toNat else 0, s.draws)
  else
    let bs := readWindow s off.toNat w.bytes s.draws
    (leBytes bs.1, bs.2)

/-! ### Writes, while BUSY = 0 -/

/-- An aligned 4-byte write of the register block, but for CTRL. A read-only register and a reserved offset ignore it
(R41, 10_state.md R22 to R29). -/
def writeRegister (s : State) (off : Nat) (v : Word) : State :=
  if off = offAdLen then { s with adLen := v }
  else if off = offInLen then { s with inLen := v }
  else if off = offKey 0 then { s with key := { s.key with k0 := v } }
  else if off = offKey 1 then { s with key := { s.key with k1 := v } }
  else if off = offKey 2 then { s with key := { s.key with k2 := v } }
  else if off = offKey 3 then { s with key := { s.key with k3 := v } }
  else if off = offNonce 0 then { s with nonce := { s.nonce with n0 := v } }
  else if off = offNonce 1 then { s with nonce := { s.nonce with n1 := v } }
  else if off = offNonce 2 then { s with nonce := { s.nonce with n2 := v } }
  else s

/-- A byte written at aperture offset `a`, at or above 0x10000 (R43). OUT_BUF ignores it, and a byte past the aperture
is not this engine's (log entry 7). -/
def writeWindowByte (s : State) (a : Nat) (b : Byte) : State :=
  match a / 0x10000 with
  | 1 => if a % 0x10000 < Config.adCap then { s with ab := Memory.set s.ab (a % 0x10000) b } else s
  | 2 => if a % 0x10000 < Config.inCap then { s with ib := Memory.set s.ib (a % 0x10000) b } else s
  | _ => s

/-- Bytes written from offset `a` on, each by its own offset (R46). -/
def writeWindow (s : State) (a : Nat) : List Byte → State
  | [] => s
  | b :: bs => writeWindow (writeWindowByte s a b) (a + 1) bs

/-- MemWrite(off, n, v) at BUSY = 0, for any access that is not a command (R42, R46). -/
def hostWrite (s : State) (off : BitVec 18) (w : Width) (v : Word) : State :=
  if inRegisterBlock off then
    (if isWordAccess off w then writeRegister s off.toNat v else s)
  else writeWindow s off.toNat ((st32 v).take w.bytes)

/-- A command is a 4-byte write at CTRL's offset (R60, R63). -/
def isCommand (off : BitVec 18) (w : Width) : Bool := w == .w32 && off.toNat == offCtrl

/-! ### The host's view, and reset -/

/-- A read's value goes to the host (log entry 15). -/
def State.observe (s : State) (r : Word × Nat) : State := { s with observed := r.1 :: s.observed, draws := r.2 }

/-- The reset action (R140, R141): every piece of the engine's state to its reset value, the buffers unwritten. The
outside world's own fields stay (log entry 19). -/
def State.resetAction (s : State) : State :=
  { State.reset with inputs := s.inputs, sched := s.sched, observed := s.observed, draws := s.draws }

end Sys2Proof.Machine
end

