-- ==== Sys2Proof/Machine/Agents.lean ====
section
/-! DEFINITION. The two agents (44_sequencer_and_commands.md R107): who moves, what a step of each does, and the states
the spec calls faults (30_encoding.md R65, 93_implementation_defined.md item 7). -/

namespace Sys2Proof.Machine

/-- The states no run reaches and the spec asks to be faults (R65; 93 item 7; log entry 10). -/
def State.badState (s : State) : Option Fault :=
  if s.ph.toNat > 10 then some .unreachablePhase
  else if s.status.err.toNat > 3 then some .reservedErrCode
  else none

/-- Who moves, and the choices left. In IDLE the engine has no step (R105), so the host moves where it has something
to do; with nothing to do the engine moves; where both could, the next choice decides, and when the choices are used
up the engine moves, which is the fairness of R107 (log entry 3). -/
def State.turn (s : State) : Agent × List Agent :=
  if s.inputs = [] then (.engine, s.sched)
  else if s.ph = phIdle then (.host, s.sched)
  else match s.sched with
    | [] => (.engine, [])
    | a :: rest => (a, rest)

/-- The micro-operation the phase machine selects (R64, R65). -/
def State.fetch (s : State) : Except DecodeReject Instr :=
  decodeBytes .selector (selectorByte (selectorOf s.ctrlOp s.ph))

/-- A step of the engine: perform the micro-operation SEL selects (R64, R107). -/
def engineStep (s : State) : Host.Outcome State Fault Refusal :=
  match s.fetch with
  | .ok i => exec i s
  | .error _ => .fault .unreachablePhase

/-- A host write: ignored while BUSY = 1, before any decode (R48, R61); a command where it is a word write to CTRL;
else a plain access. -/
def hostWriteStep (s : State) (off : BitVec 18) (w : Width) (v : Word) : Host.Outcome State Fault Refusal :=
  if s.status.busy then .next s
  else if isCommand off w then exec (decodeCommand v) s
  else .next (hostWrite s off w v)

/-- One read of a poll: it is done where the value under the mask is the one waited for, and stays at the head of the
inputs otherwise (30_encoding.md R67; log entry 22). -/
def pollStep (s : State) (off : BitVec 18) (mask val : Word) (rest : List HostInput) : State :=
  let r := hostRead s off .w32
  if r.1 &&& mask = val then ({ s with inputs := rest }).observe r else s.observe r

/-- A step of the host: one access, or one reset, from the head of the inputs (R107). -/
def hostStep (s : State) : Host.Outcome State Fault Refusal :=
  match s.inputs with
  | [] => .next s
  | .write off w v :: rest => hostWriteStep { s with inputs := rest } off w v
  | .read off w :: rest => .next (({ s with inputs := rest }).observe (hostRead s off w))
  | .poll off mask val :: rest => .next (pollStep s off mask val rest)
  | .reset :: rest => .next ({ s with inputs := rest }).resetAction

/-- One step of the machine. -/
def agentStep (s : State) : Host.Outcome State Fault Refusal :=
  match s.badState with
  | some f => .fault f
  | none =>
      match s.turn with
      | (.host, sched) => hostStep { s with sched := sched }
      | (.engine, sched) => engineStep { s with sched := sched }

/-! ### Placing a table row's word where the next step fetches it -/

/-- The lengths and counters under which the phase machine selects a phase at all (the preconditions R104 guarantees);
left alone where they hold already (log entry 2). -/
def State.preparePhase (s : State) : State :=
  if s.ph = phNonce ∧ s.nidx > 2 then { s with nidx := 0 }
  else if s.ph = phAdFull ∧ ¬ s.adp + 4 ≤ s.adLen.toNat then { s with adp := 0, adLen := 4 }
  else if s.ph = phAdPart ∧ ¬ (1 ≤ s.adRest ∧ s.adRest ≤ 3) then { s with adp := 0, adLen := 1 }
  else if s.ph = phMsgFull ∧ ¬ s.mp + 4 ≤ s.ml then
    { s with mp := 0, inLen := if s.ctrlOp = 0 then 4 else 12 }
  else if s.ph = phMsgPart ∧ ¬ (1 ≤ s.msgRest ∧ s.msgRest ≤ 3) then
    { s with mp := 0, inLen := if s.ctrlOp = 0 then 1 else 9 }
  else s

/-- A selector placed: PH and CTRL.OP are its fields, BUSY is as the phase has it, and the host has nothing to do. -/
def State.withSelector (s : State) (sel : BitVec 5) : State :=
  ({ s with
    ph := selectorPhase sel
    ctrlOp := selectorOp sel
    status := { s.status with busy := selectorPhase sel != phIdle }
    inputs := [] }).preparePhase

/-- A command word placed: the engine is idle, and the host's next access writes the word to CTRL. -/
def State.withCommand (s : State) (d : Word) : State :=
  { s with
    ph := phIdle
    status := { s.status with busy := false }
    inputs := .write 0 .w32 d :: s.inputs }

/-- The word of a table row placed, at the level `decodeTableWord` reads it at. -/
def State.placeWord (s : State) (nbits w : Nat) : State :=
  match tableLevel nbits with
  | .command => s.withCommand (BitVec.ofNat 32 w)
  | .selector => s.withSelector (BitVec.ofNat 5 w)

end Sys2Proof.Machine
end

