-- ==== Sys2Proof/Machine/Step.lean ====
section
/-! DEFINITION. The machine's step, and where a table row's word is placed for the next step to run
(log entry 2). -/

namespace Sys2Proof.Machine

/-- One step of the machine: one host access, one reset, or one micro-operation (R107). -/
def step (s : State) : Host.Outcome State Fault Refusal := agentStep s

/-- `s` with a table row's word placed so that the very next step runs it. -/
def State.withFetchWord (s : State) (nbits w : Nat) : State := s.placeWord nbits w

end Sys2Proof.Machine
end

