-- ==== Sys2Proof/Machine/HostProgram.lean ====
section
/-! DEFINITION. Host programs: the lines of 30_encoding.md R67 and the pseudo-instructions of R68 as lists of accesses,
and the sequences that the source's `encrypt` and `decrypt` stand for (R69, 70_reset_and_hazards.md R143), which refuse
byte strings of a wrong length (60_exceptions.md R125). Each has no meaning beyond the accesses it expands to. -/

namespace Sys2Proof.Machine

/-! ### Lines (R67) -/

/-- OFF of a line. DESIGN CHOICE: the spec gives no meaning to a line whose OFF, `NAME+k` or `WIN+i` added up, is past
0x3FFFF; here OFF is taken modulo 2^18 (log entry 25). -/
def lineOffset (off : Nat) : BitVec 18 := BitVec.ofNat 18 off

/-- `wr32 OFF, VAL`. -/
def wr32 (off : Nat) (v : Word) : HostInput := .write (lineOffset off) .w32 v

/-- `wr16 OFF, VAL`. -/
def wr16 (off : Nat) (v : BitVec 16) : HostInput := .write (lineOffset off) .w16 (v.setWidth 32)

/-- `wr8 OFF, VAL`. -/
def wr8 (off : Nat) (b : Byte) : HostInput := .write (lineOffset off) .w8 (b.setWidth 32)

/-- `rd32 OFF`. -/
def rd32 (off : Nat) : HostInput := .read (lineOffset off) .w32

/-- `rd16 OFF`. -/
def rd16 (off : Nat) : HostInput := .read (lineOffset off) .w16

/-- `rd8 OFF`. -/
def rd8 (off : Nat) : HostInput := .read (lineOffset off) .w8

/-- `poll OFF, MASK, VAL`. -/
def poll (off : Nat) (mask val : Word) : HostInput := .poll (lineOffset off) mask val

/-! ### Pseudo-instructions (R68) -/

/-- ENCRYPT. -/
def pseudoEncrypt : List HostInput := [wr32 offCtrl 0x1]

/-- DECRYPT. -/
def pseudoDecrypt : List HostInput := [wr32 offCtrl 0x3]

/-- `SETOP n`. -/
def pseudoSetop (n : Nat) : List HostInput := [wr32 offCtrl ((BitVec.ofNat 32 n &&& 0x1) <<< 1)]

/-- WAIT. -/
def pseudoWait : List HostInput := [poll offStatus 0x1 0x0]

/-- The bytes of a string as words, LE32 of each four (20_memory.md R44). -/
def leWords : List Byte → List Word
  | b0 :: b1 :: b2 :: b3 :: rest => le32 b0 b1 b2 b3 :: leWords rest
  | _ => []

/-- LOADKEY k0..k15, of a string of 16 bytes. -/
def pseudoLoadKey (key : List Byte) : List HostInput :=
  (leWords key).zipIdx.map fun w => wr32 (offKey w.2) w.1

/-- LOADNONCE n0..n11, of a string of 12 bytes. -/
def pseudoLoadNonce (nonce : List Byte) : List HostInput :=
  (leWords nonce).zipIdx.map fun w => wr32 (offNonce w.2) w.1

/-- LOADBUF WIN, b0..b(L-1): one byte write each. -/
def pseudoLoadBuf (win : Nat) (bytes : List Byte) : List HostInput :=
  bytes.zipIdx.map fun b => wr8 (win + b.2) b.1

/-! ### The source's API (R69, R143) -/

/-- Why a host refuses its own byte strings before it writes a register (R125; R143 step 1; 93 item 11). -/
inductive AdapterReject where
  /-- The key is not 16 bytes. -/
  | keyLength
  /-- The nonce is not 12 bytes. -/
  | nonceLength
  /-- The ciphertext of a decrypt is shorter than its 8-byte tag. -/
  | ciphertextLength
  deriving DecidableEq, Repr

/-- What the host writes before a transaction (R69, R143 steps 1 and 3 to 5). A length is written modulo 2^32
(log entry 25). DESIGN CHOICE: where both lengths are wrong the key's is reported; the spec does not say which (log
entry 26). -/
def loadOperands (key nonce ad input : List Byte) : Except AdapterReject (List HostInput) :=
  if key.length ≠ 16 then .error .keyLength
  else if nonce.length ≠ 12 then .error .nonceLength
  else .ok (pseudoLoadKey key ++ pseudoLoadNonce nonce ++ pseudoLoadBuf offAdBuf ad ++ pseudoLoadBuf offInBuf input ++
    [wr32 offAdLen (BitVec.ofNat 32 ad.length), wr32 offInLen (BitVec.ofNat 32 input.length)])

/-- The source's `encrypt` up to the host's read of OUT_LEN (R69); `encryptReads` is the rest. -/
def encryptProgram (key nonce ad plaintext : List Byte) : Except AdapterReject (List HostInput) :=
  (loadOperands key nonce ad plaintext).map fun p => p ++ pseudoEncrypt ++ pseudoWait ++ [rd32 offOutLen]

/-- The source's `decrypt` up to the host's reads of STATUS, for ERR, and of OUT_LEN (R69); `decryptReads` is the
rest. DESIGN CHOICE: a ciphertext that is too short is reported before a wrong key or nonce; the spec does not say which
of several refusals is reported (log entry 26). -/
def decryptProgram (key nonce ad ciphertext : List Byte) : Except AdapterReject (List HostInput) :=
  if ciphertext.length < Config.tagLen then .error .ciphertextLength
  else (loadOperands key nonce ad ciphertext).map fun p =>
    p ++ pseudoDecrypt ++ pseudoWait ++ [rd32 offStatus, rd32 offOutLen]

/-- A program of a host that does not know the engine idle: the WAIT of R143 step 2 comes first. -/
def awaitIdle (program : Except AdapterReject (List HostInput)) : Except AdapterReject (List HostInput) :=
  program.map fun p => pseudoWait ++ p

/-- `read OUT_BUF`: the bytes OUT_BUF[0..n-1] (R69). DESIGN CHOICE: one `rd8` for each byte; the rule gives no width
(log entry 27). -/
def readOutBuf (n : Nat) : List HostInput := (List.range n).map fun i => rd8 (offOutBuf + i)

/-- The rest of `encrypt`, from what the host has read, newest first: the result OUT_BUF[0..OUT_LEN-1] (R69). -/
def encryptReads (observed : List Word) : List HostInput :=
  match observed with
  | outLen :: _ => readOutBuf outLen.toNat
  | [] => []

/-- The rest of `decrypt`, from what the host has read, newest first: where STATUS.ERR, bits 6:4, is NONE the result
OUT_BUF[0..OUT_LEN-1] (R69). DESIGN CHOICE: else no read; the rule does not say whether a decrypt that failed still
reads OUT_BUF, and R146 warns of the stale output it would find after a CHECK that failed (log entry 28). -/
def decryptReads (observed : List Word) : List HostInput :=
  match observed with
  | outLen :: status :: _ => if status.extractLsb' 4 3 = errNone then readOutBuf outLen.toNat else []
  | _ => []

/-- The bytes that the last `n` byte reads returned, in the order they were read. -/
def resultBytes (n : Nat) (observed : List Word) : List Byte := ((observed.take n).map fun w => w.setWidth 8).reverse

end Sys2Proof.Machine
end

