-- ==== Sys2Proof/Machine/Contract.lean ====
section
/-! DEFINITION. The whole-buffer contracts as functions of byte strings, with no state, no memory and no phases:
initialization (41_init_ad.md R85), AD absorption (R82 to R84), the message transform (42_message.md R90 to R94), the
tag (43_finalization.md R95, R96) and the two operations (44_sequencer_and_commands.md R108, R109). And the shape of a
transaction: the micro-operations it performs (R104) and their batches (R111). Claims compare the machine with these;
no meaning uses them. -/

namespace Sys2Proof.Machine

/-- absorbN (R85). -/
def absorbNonceWord (k : Key) (s : Nfsr) (n : Word) : Nfsr := (tagShort s k Config.fbNonce).absorbWord n

/-- S_init (R85). -/
def initState (k : Key) (n : Nonce) : Nfsr :=
  absorbNonceWord k (absorbNonceWord k (absorbNonceWord k (advanceLong ⟨0, 0, 0, 0⟩ k) n.n0) n.n1) n.n2

/-- The register after the AD bytes: full words, then a partial chunk with its length (R82, R83, R84). -/
def absorbAd (k : Key) : List Byte → Nfsr → Nfsr
  | [], s => s
  | b0 :: b1 :: b2 :: b3 :: rest, s =>
      absorbAd k rest ((tagShort s k Config.fbAd).absorbWord (le32 b0 b1 b2 b3))
  | chunk, s => (absorbBytes (tagShort s k Config.fbAd) 0 chunk).xorWord1 (BitVec.ofNat 32 chunk.length)

/-- The register after a plaintext, and its ciphertext (R90, R92). -/
def encryptMessage (k : Key) : List Byte → Nfsr → Nfsr × List Byte
  | [], s => (s, [])
  | b0 :: b1 :: b2 :: b3 :: rest, s =>
      let n := tagLong s k Config.fbMsg
      let r := encryptMessage k rest (n.absorbWord (le32 b0 b1 b2 b3))
      (r.1, st32 (n.s2 ^^^ le32 b0 b1 b2 b3) ++ r.2)
  | chunk, s =>
      let r := encryptBytes (tagLong s k Config.fbMsg) 0 chunk
      (r.1.xorWord1 (BitVec.ofNat 32 chunk.length), r.2)

/-- The register after a ciphertext body, and the recovered plaintext (R91, R93). -/
def decryptMessage (k : Key) : List Byte → Nfsr → Nfsr × List Byte
  | [], s => (s, [])
  | b0 :: b1 :: b2 :: b3 :: rest, s =>
      let n := tagLong s k Config.fbMsg
      let p := n.s2 ^^^ le32 b0 b1 b2 b3
      let r := decryptMessage k rest (n.absorbWord p)
      (r.1, st32 p ++ r.2)
  | chunk, s =>
      let r := decryptBytes (tagLong s k Config.fbMsg) 0 chunk
      (r.1.xorWord1 (BitVec.ofNat 32 chunk.length), r.2)

/-- The 8 tag bytes of the register the message phase leaves (R95, R96). -/
def tagOf (k : Key) (s : Nfsr) : List Byte :=
  let a := tagLong s k Config.fbFin
  let b := tagShort a k Config.fbFin
  st32 a.s2 ++ st32 b.s2

/-- `encrypt`: the ciphertext with its tag (R108). -/
def aeadEncrypt (k : Key) (n : Nonce) (ad pt : List Byte) : List Byte :=
  let r := encryptMessage k pt (absorbAd k ad (initState k n))
  r.2 ++ tagOf k r.1

/-- `decrypt` of a ciphertext with its tag, at least 8 bytes: the plaintext, or none on an authentication failure
(R109). -/
def aeadDecrypt (k : Key) (n : Nonce) (ad ct : List Byte) : Option (List Byte) :=
  let body := ct.take (ct.length - Config.tagLen)
  let r := decryptMessage k body (absorbAd k ad (initState k n))
  if tagOf k r.1 = ct.drop (ct.length - Config.tagLen) then some r.2 else none

/-- The batches a micro-operation performs (R111; 40_register_engine.md R76). -/
def Instr.batches : Instr → Nat
  | .encrypt _ | .decrypt _ | .setop _ | .idle _ | .check _ | .finishEnc | .verifyDec => 0
  | .nonce _ | .adFull _ | .adPart _ | .fin2 _ => 20
  | .keyload _ | .msgFullEnc | .msgFullDec | .msgPartEnc | .msgPartDec | .fin1 _ => 40

/-- The micro-operations the engine performs from `s` to IDLE, at most `n` of them, the host silent. -/
def microTrace : Nat → State → List Instr
  | 0, _ => []
  | n + 1, s =>
      if s.ph = phIdle then []
      else match s.fetch, engineStep s with
        | .ok i, .next t => i :: microTrace n t
        | _, _ => []

/-- The micro-operations of a transaction that passes CHECK (R104), for AD length `a` and message length `m`. -/
def transactionOps (op : BitVec 1) (a m : Nat) : List Instr :=
  [.check op, .keyload op, .nonce op, .nonce op, .nonce op] ++
  List.replicate (a / 4) (.adFull op) ++ (if a % 4 = 0 then [] else [.adPart op]) ++
  List.replicate (m / 4) (if op = 0 then .msgFullEnc else .msgFullDec) ++
  (if m % 4 = 0 then [] else [if op = 0 then .msgPartEnc else .msgPartDec]) ++
  [.fin1 op, .fin2 op, if op = 0 then .finishEnc else .verifyDec]

end Sys2Proof.Machine
end

