-- ==== Sys2Proof/Machine/Platform.lean ====
section
/-! DEFINITION. A platform of N_INST engine instances, each with its own aperture, state and phase machine
(60_exceptions.md R133, 20_memory.md R40, 00_scope.md R8). A platform step is one step of one instance, or one access at
a bus address, which the instance whose aperture holds the address performs; in which order they come is the
caller's (44_sequencer_and_commands.md R107; log entry 18). -/

namespace Sys2Proof.Machine

/-- A platform: its instances in the order of their numbers, and how many free values they have used together, so that
no two reads of any instances share a draw (00_scope.md R8; log entry 4). -/
structure Platform where
  instances : List State
  draws : Nat
  deriving DecidableEq, Repr

/-- A platform right after reset. -/
def Platform.reset : Platform := ⟨List.replicate Config.nInst State.reset, 0⟩

/-- Instance `k` takes a step with the platform's draws, and no other instance changes (R133). A number past the last
instance names no engine, and nothing happens. -/
def Platform.onInstance (p : Platform) (k : Nat) (f : State → Host.Outcome State Fault Refusal) :
    Host.Outcome Platform Fault Refusal :=
  match p.instances[k]? with
  | none => .next p
  | some s =>
      match f { s with draws := p.draws } with
      | .next t => .next ⟨p.instances.set k t, t.draws⟩
      | .fault e => .fault e
      | .refused r => .refused r

/-- One step of instance `k`. -/
def Platform.stepAt (p : Platform) (k : Nat) : Host.Outcome Platform Fault Refusal := p.onInstance k step

/-! ### The bus -/

/-- The aperture offset that a bus address names in instance `k`, where it lies in its aperture (R40). -/
def busOffset (k a : Nat) : Option Nat :=
  if Config.base k ≤ a ∧ a < Config.base k + Config.apertureBytes then some (a - Config.base k) else none

/-- The width and the direction of an access, with the value of a write (R40). -/
inductive BusAccess where
  | write (width : Width) (val : Word)
  | read (width : Width)
  deriving DecidableEq, Repr

/-- The access at an aperture offset. -/
def BusAccess.at (x : BusAccess) (off : Nat) : HostInput :=
  match x with
  | .write w v => .write (BitVec.ofNat 18 off) w v
  | .read w => .read (BitVec.ofNat 18 off) w

/-- The instance whose aperture holds a bus address, and the offset there. -/
def Platform.target (p : Platform) (a : Nat) : Option (Nat × Nat) :=
  (List.range p.instances.length).findSome? fun k => (busOffset k a).map fun o => (k, o)

/-- One access performed now, before the accesses the host still lists. -/
def accessStep (x : HostInput) (s : State) : Host.Outcome State Fault Refusal :=
  match s.badState with
  | some f => .fault f
  | none => hostStep { s with inputs := x :: s.inputs }

/-- One access at a bus address. An address in no aperture reaches no engine, and nothing happens; an
access that starts in an aperture is that instance's as a whole, also where it runs past the end (log entries 7 and
18). -/
def Platform.busStep (p : Platform) (a : Nat) (x : BusAccess) : Host.Outcome Platform Fault Refusal :=
  match p.target a with
  | none => .next p
  | some (k, o) => p.onInstance k (accessStep (x.at o))

end Sys2Proof.Machine
end

