-- ==== Sys2Proof/Safety.lean ====
section
/-! DEFINITION. What a safe run is and the terms claims use: the invariant of the machine, what a buffer holds, and the
states a transaction starts from. -/

namespace Sys2Proof.Machine

/-- A step that stops neither by a fault nor by a refusal. -/
def Safe (s : State) : Prop := ∃ t, step s = .next t

/-- A buffer holds these bytes from index `o` on, every one written. -/
def Memory.holds (m : Memory) (o : Nat) (bs : List Byte) : Prop :=
  ∀ j, (h : j < bs.length) → Memory.get m (o + j) = some bs[j]

/-- These bytes are what a buffer may read as from index `o` on: a byte written since reset reads as it stands, and one
not written is free (10_state.md R36). -/
def Memory.readsAs (m : Memory) (o : Nat) (bs : List Byte) : Prop :=
  ∀ j, (h : j < bs.length) → ∀ b, Memory.get m (o + j) = some b → bs[j] = b

/-- Every byte below `n` has been written since reset. -/
def Memory.written (m : Memory) (n : Nat) : Prop := ∀ o, o < n → (Memory.get m o).isSome = true

/-! ### The invariant -/

/-- The buffers are in canonical form and list no byte past their capacity (10_state.md R33, 20_memory.md R43, R51). -/
def BuffersOk (s : State) : Prop :=
  (Memory.wf s.ab ∧ ∀ c ∈ s.ab, c.1 < Config.adCap) ∧
  (Memory.wf s.ib ∧ ∀ c ∈ s.ib, c.1 < Config.inCap) ∧
  (Memory.wf s.ob ∧ ∀ c ∈ s.ob, c.1 < Config.outCap)

/-- PH is one of the codes 0..10 and ERR one of 0..3; BUSY is PH past IDLE; a transaction has no record yet
(10_state.md R25, R30; 44_sequencer_and_commands.md R100). -/
def StatusOk (s : State) : Prop :=
  s.ph.toNat ≤ 10 ∧ s.status.err.toNat ≤ 3 ∧
  (s.status.busy = true ↔ s.ph ≠ phIdle) ∧
  (s.status.busy = true → s.status.done = false ∧ s.status.err = errNone)

/-- Nothing of one transaction is left for the next: until KEYLOAD runs, S, T and the counters are zero
(10_state.md R35). -/
def ZeroBeforeKeyload (s : State) : Prop :=
  s.ph.toNat ≤ 2 →
    s.nfsr = ⟨0, 0, 0, 0⟩ ∧ s.t0 = 0 ∧ s.t1 = 0 ∧ s.nidx = 0 ∧ s.adp = 0 ∧ s.mp = 0

/-- Past CHECK the lengths are legal (44_sequencer_and_commands.md R103). -/
def LengthsOk (s : State) : Prop :=
  2 ≤ s.ph.toNat →
    s.adLen.toNat ≤ Config.adCap ∧ s.inLen.toNat ≤ Config.inCap ∧ (s.ctrlOp = 1 → Config.tagLen ≤ s.inLen.toNat)

/-- The counters are where the phase has them (10_state.md R31, 44_sequencer_and_commands.md R104). -/
def CountersOk (s : State) : Prop :=
  (s.ph = phNonce → s.nidx ≤ 2 ∧ s.adp = 0 ∧ s.mp = 0) ∧
  (s.ph = phAdFull → s.adp + 4 ≤ s.adLen.toNat ∧ s.adp % 4 = 0 ∧ s.mp = 0) ∧
  (s.ph = phAdPart → s.adp < s.adLen.toNat ∧ s.adLen.toNat < s.adp + 4 ∧ s.adp % 4 = 0 ∧ s.mp = 0) ∧
  (s.ph = phMsgFull → s.adp = s.adLen.toNat ∧ s.mp + 4 ≤ s.ml ∧ s.mp % 4 = 0) ∧
  (s.ph = phMsgPart → s.adp = s.adLen.toNat ∧ s.mp < s.ml ∧ s.ml < s.mp + 4 ∧ s.mp % 4 = 0) ∧
  (8 ≤ s.ph.toNat → s.adp = s.adLen.toNat ∧ s.mp = s.ml)

/-- Past CHECK nothing is readable and the processed bytes are written; a readable result lies within OUT_BUF and is
written (10_state.md R25, R28; 20_memory.md R49). -/
def OutputOk (s : State) : Prop :=
  (2 ≤ s.ph.toNat → s.status.outv = false ∧ s.outLen = 0 ∧ Memory.written s.ob s.mp) ∧
  (s.status.outv = true → s.outLen.toNat ≤ Config.outCap ∧ Memory.written s.ob s.outLen.toNat)

/-- The invariant of the machine. -/
def EngineInv (s : State) : Prop :=
  BuffersOk s ∧ StatusOk s ∧ ZeroBeforeKeyload s ∧ LengthsOk s ∧ CountersOk s ∧ OutputOk s

/-! ### Transactions with the host silent -/

/-- `n` steps of the machine, stopping at the first that is no next state. -/
def runSteps (n : Nat) (s : State) : Host.Outcome State Fault Refusal := Host.Core.run Sys2Proof.core n s

/-- The batches of a list of micro-operations (44_sequencer_and_commands.md R111). -/
def batchesOf (is : List Instr) : Nat := (is.map Instr.batches).sum

/-- The state right after a START was accepted, with nothing left for the host to do. -/
def Started (s : State) : Prop :=
  s.ph = phCheck ∧ s.inputs = [] ∧ s.status.busy = true ∧ s.status.done = false ∧ s.status.err = errNone

/-- The lengths CHECK passes (44_sequencer_and_commands.md R103). -/
def Admitted (s : State) : Prop :=
  s.adLen.toNat ≤ Config.adCap ∧ s.inLen.toNat ≤ Config.inCap ∧ (s.ctrlOp = 1 → Config.tagLen ≤ s.inLen.toNat)

/-- The engine steps of a transaction that passes CHECK (44_sequencer_and_commands.md R111). -/
def transactionSteps (a m : Nat) : Nat := 1 + 1 + 3 + (a + 3) / 4 + (m + 3) / 4 + 2 + 1

/-- Everything but the world outside the engine: its inputs, the interleaving, what the host saw, and the draws. -/
def State.engineView (s : State) : State := { s with inputs := [], sched := [], observed := [], draws := 0 }

end Sys2Proof.Machine
end

