-- ==== Sys2Proof/Certificates/Slice0/Obligations.lean ====
section
/-! DEFINITION. The statements for the provers. Each docstring names the rule of spec/ it formalises, or the log entry
it rests on. Every field the text of a statement does not name is unchanged: the next state is written as the old one
with its changes (`ob := t.ob` where the bytes of OB follow). -/

open Sys2Proof Sys2Proof.Machine

namespace Sys2Proof.Machine

/-- The phase after an input step with these counters and lengths, R104's text on numbers. -/
def phaseAfterInput (adp adLen mp ml : Nat) : BitVec 4 :=
  if adp + 4 ≤ adLen then 4 else if adp < adLen then 5 else if mp + 4 ≤ ml then 6 else if mp < ml then 7 else 8

/-- The register with a constant XORed into word1 and then advanced, through the exposed `advance` (R74, R77). -/
def afterTag (s : State) (tag : Word) (steps : Nat) : Option Nfsr :=
  advance { s.nfsr with s1 := s.nfsr.s1 ^^^ tag } s.key steps

/-- What a window shows at aperture offset `a`, 0x10000 to 0x3FFFF (R43, R49), where no draw decides it: a byte past a
capacity and a masked byte of OUT_BUF show 0, and a byte of a buffer shows what was written. -/
def windowByte (s : State) (a : Nat) : Option Byte :=
  if a < 0x20000 then (if a - 0x10000 < Config.adCap then Memory.get s.ab (a - 0x10000) else some 0)
  else if a < 0x30000 then (if a - 0x20000 < Config.inCap then Memory.get s.ib (a - 0x20000) else some 0)
  else if s.status.busy = false ∧ s.status.outv = true ∧ a - 0x30000 < s.outLen.toNat then
    Memory.get s.ob (a - 0x30000)
  else some 0

/-- Byte `j` of a word by its bit range (R45). -/
def byteOf (w : Word) (j : Nat) : Byte := w.extractLsb' (8 * j) 8

end Sys2Proof.Machine

/-! ### Encoding -/

/-- Words of 95_test_vectors.md section 2.6 (R61, R65), written out byte by byte. -/
def Obligations.WordsOfTheSpecDecode : Prop :=
  decodeBytes .command [0x01, 0x00, 0x00, 0x00] = .ok (.encrypt 0x00000001) ∧
  decodeBytes .command [0x05, 0x00, 0x00, 0x80] = .ok (.encrypt 0x80000005) ∧
  decodeBytes .command [0xFF, 0xFF, 0xFF, 0x7F] = .ok (.decrypt 0x7FFFFFFF) ∧
  decodeBytes .command [0xFC, 0xFF, 0xFF, 0xFF] = .ok (.setop 0xFFFFFFFC) ∧
  decodeBytes .selector [0x02] = .ok (.keyload 0) ∧ decodeBytes .selector [0x12] = .ok (.keyload 1) ∧
  decodeBytes .selector [0x06] = .ok .msgFullEnc ∧ decodeBytes .selector [0x16] = .ok .msgFullDec ∧
  decodeBytes .selector [0x0A] = .ok .finishEnc ∧ decodeBytes .selector [0x1A] = .ok .verifyDec ∧
  decodeBytes .selector [0x0B] = .error .unreachablePhase ∧ decodeBytes .selector [0x1F] = .error .unreachablePhase

/-- R61: every data word decodes to exactly one of the three commands, and a CTRL write while BUSY = 1 is no command:
it changes nothing but the host's own list. -/
def Obligations.EveryDataWordIsOneCommand : Prop :=
  (∀ d : Word,
    (d &&& 0x3 = 0x1 → decodeBytes .command (st32 d) = .ok (.encrypt d)) ∧
    (d &&& 0x3 = 0x3 → decodeBytes .command (st32 d) = .ok (.decrypt d)) ∧
    (d &&& 0x1 = 0x0 → decodeBytes .command (st32 d) = .ok (.setop d)) ∧
    (d &&& 0x3 = 0x1 ∨ d &&& 0x3 = 0x3 ∨ d &&& 0x1 = 0x0)) ∧
  (∀ (s : State) (d : Word) (rest : List HostInput),
    s.inputs = .write 0 .w32 d :: rest → s.status.busy = true → hostStep s = .next { s with inputs := rest })

/-- R65: the selector table row by row for either OP, and the fault of the unused codes. -/
def Obligations.SelectorTableIsDecoded : Prop :=
  (∀ op : BitVec 1,
    decodeBytes .selector (selectorByte (selectorOf op 0)) = .ok (.idle op) ∧
    decodeBytes .selector (selectorByte (selectorOf op 1)) = .ok (.check op) ∧
    decodeBytes .selector (selectorByte (selectorOf op 2)) = .ok (.keyload op) ∧
    decodeBytes .selector (selectorByte (selectorOf op 3)) = .ok (.nonce op) ∧
    decodeBytes .selector (selectorByte (selectorOf op 4)) = .ok (.adFull op) ∧
    decodeBytes .selector (selectorByte (selectorOf op 5)) = .ok (.adPart op) ∧
    decodeBytes .selector (selectorByte (selectorOf op 8)) = .ok (.fin1 op) ∧
    decodeBytes .selector (selectorByte (selectorOf op 9)) = .ok (.fin2 op)) ∧
  decodeBytes .selector (selectorByte (selectorOf 0 6)) = .ok .msgFullEnc ∧
  decodeBytes .selector (selectorByte (selectorOf 1 6)) = .ok .msgFullDec ∧
  decodeBytes .selector (selectorByte (selectorOf 0 7)) = .ok .msgPartEnc ∧
  decodeBytes .selector (selectorByte (selectorOf 1 7)) = .ok .msgPartDec ∧
  decodeBytes .selector (selectorByte (selectorOf 0 10)) = .ok .finishEnc ∧
  decodeBytes .selector (selectorByte (selectorOf 1 10)) = .ok .verifyDec ∧
  (∀ (op : BitVec 1) (ph : BitVec 4), 11 ≤ ph.toNat →
    decodeBytes .selector (selectorByte (selectorOf op ph)) = .error .unreachablePhase) ∧
  (∀ s : State, 11 ≤ s.ph.toNat → step s = .fault .unreachablePhase)

/-- R61, R65: no bits match two rows of the opcode table at one level, and the encoding of a well-formed instruction
matches the row of its own mnemonic and no other. -/
def Obligations.OpcodeRowsAreDisjoint : Prop :=
  (opcodeTable.Pairwise fun r q => ∀ (l : Level) (w : Nat), ¬ (r.matches l w = true ∧ q.matches l w = true)) ∧
  (∀ i : Instr, i.wf = true → ∀ r ∈ opcodeTable,
    (r.matches i.level (bytesNumber (encode i)) = true ↔ r.mnemonic = i.mnemonic))

/-- R61, R65: the decoder reads back every well-formed instruction of every family, each operand at every value. -/
def Obligations.DecodeReadsBackEncode : Prop :=
  ∀ i : Instr, i.wf = true → decodeBytes i.level (encode i) = .ok i

/-- R61, R65: whatever bytes decode, they decode to a well-formed instruction of that level whose encoding they are. -/
def Obligations.DecodedBytesAreTheEncoding : Prop :=
  ∀ (l : Level) (bytes : List Byte) (i : Instr), decodeBytes l bytes = .ok i →
    i.wf = true ∧ i.level = l ∧ encode i = bytes

/-! ### Steps -/

/-- R64, R65, R107: where the engine moves, the step is the meaning of the micro-operation the selector of CTRL.OP and
PH decodes to; around it the step only uses up a choice of the interleaving. -/
def Obligations.StepRunsTheSelectedMicroOp : Prop :=
  ∀ (s : State) (i : Instr), s.badState = none → s.turn.1 = .engine →
    decodeBytes .selector (selectorByte (selectorOf s.ctrlOp s.ph)) = .ok i →
    i.wf = true ∧ step s = exec i { s with sched := s.turn.2 }

/-- R60, R61: where the host moves and writes a word to CTRL while BUSY = 0, the step is the meaning of the command the
word's bytes decode to; around it the step only moves past the access and uses up a choice of the interleaving. -/
def Obligations.StepRunsTheWrittenCommand : Prop :=
  ∀ (s : State) (d : Word) (rest : List HostInput) (i : Instr), s.badState = none → s.turn.1 = .host →
    s.inputs = .write 0 .w32 d :: rest → s.status.busy = false → decodeBytes .command (st32 d) = .ok i →
    i.wf = true ∧ step s = exec i { s with inputs := rest, sched := s.turn.2 }

/-! ### The Register Engine -/

/-- R70: the four taps, and that each is the 32-bit window of the register at bit 47, 70, 85 or 91. -/
def Obligations.TapsAreRegisterWindows : Prop :=
  ∀ s : Nfsr,
    tap1 s = (s.s1 >>> 15) ||| (s.s2 <<< 17) ∧ tap2 s = (s.s2 >>> 6) ||| (s.s3 <<< 26) ∧
    tap3 s = (s.s2 >>> 21) ||| (s.s3 <<< 11) ∧ tap4 s = (s.s2 >>> 27) ||| (s.s3 <<< 5) ∧
    ∀ j, j < 32 →
      (tap1 s).getLsbD j = s.bits.getLsbD (47 + j) ∧ (tap2 s).getLsbD j = s.bits.getLsbD (70 + j) ∧
      (tap3 s).getLsbD j = s.bits.getLsbD (85 + j) ∧ (tap4 s).getLsbD j = s.bits.getLsbD (91 + j)

/-- R71, R72: one batch, the key word at the batch's index modulo 4. -/
def Obligations.BatchRotatesInTheFeedback : Prop :=
  ∀ (s : Nfsr) (k : Key) (b : Nat) (w : Word), [k.k0, k.k1, k.k2, k.k3][b % 4]? = some w →
    batch s k b = ⟨s.s1, s.s2, s.s3, s.s0 ^^^ tap1 s ^^^ ~~~(tap2 s &&& tap3 s) ^^^ tap4 s ^^^ w⟩

/-- R74, R73: `advance` refuses a count that is no multiple of 32, is the identity at 0, performs its batches in order
with the counter starting at 0, and the two counts the micro-operations use are 640 and 1280. -/
def Obligations.AdvanceRunsItsBatchesInOrder : Prop :=
  ∀ (s : Nfsr) (k : Key),
    (∀ steps, steps % 32 ≠ 0 → advance s k steps = none) ∧
    advance s k 0 = some s ∧
    (∀ n, advance s k (32 * (n + 1)) = (advance s k (32 * n)).map fun r => batch r k n) ∧
    advance s k 640 = some (advanceShort s k) ∧ advance s k 1280 = some (advanceLong s k)

/-- R75: the batches are the bit-steps of the 128-bit register. -/
def Obligations.AdvanceIsTheBitSerialRegister : Prop :=
  ∀ (s : Nfsr) (k : Key) (n : Nat) (r : Nfsr), advance s k (32 * n) = some r →
    r.bits = bitStepsFrom k 0 (32 * n) s.bits

/-- R78: a batch is undone by the rule's inverse on either side, and `advance` is a bijection. -/
def Obligations.BatchAndAdvanceAreInvertible : Prop :=
  ∀ k : Key,
    (∀ (s : Nfsr) (b : Nat), unbatch (batch s k b) k b = s ∧ batch (unbatch s k b) k b = s) ∧
    ∀ n : Nat, Function.Bijective fun s : Nfsr => batches s k n

/-! ### Bytes and buffers -/

/-- R44, R45: a word load is LE32 of the four bytes there; a word store writes the word's bytes, least significant
first, and leaves every other byte; loading it again gives the word. -/
def Obligations.WordsAreLittleEndianInBuffers : Prop :=
  ∀ (m : Memory) (o d : Nat),
    (∀ b0 b1 b2 b3 : Byte, Memory.get m o = some b0 → Memory.get m (o + 1) = some b1 →
      Memory.get m (o + 2) = some b2 → Memory.get m (o + 3) = some b3 →
      Memory.loadWord m o d =
        (b0.setWidth 32 ||| (b1.setWidth 32 <<< 8) ||| (b2.setWidth 32 <<< 16) ||| (b3.setWidth 32 <<< 24), d)) ∧
    ∀ w : Word,
      (∀ j, j < 4 → Memory.get (Memory.storeBytes m o (st32 w)) (o + j) = some (byteOf w j)) ∧
      (∀ a, a < o ∨ o + 4 ≤ a → Memory.get (Memory.storeBytes m o (st32 w)) a = Memory.get m a) ∧
      Memory.loadWord (Memory.storeBytes m o (st32 w)) o d = (w, d)

/-- R21: the byte view overlays the four words, and a byte write replaces those 8 bits and nothing else. -/
def Obligations.ByteViewOverlaysTheWords : Prop :=
  ∀ s : Nfsr,
    (∀ j, j < 4 → s.byte j = byteOf s.s0 j ∧ s.byte (4 + j) = byteOf s.s1 j ∧
      s.byte (8 + j) = byteOf s.s2 j ∧ s.byte (12 + j) = byteOf s.s3 j) ∧
    ∀ (n m : Nat) (v : Byte), n < 16 → m < 16 → (s.setByte n v).byte m = if m = n then v else s.byte m

/-- R47: XORing the 1 to 3 bytes of a partial chunk into the low bytes of word3 is XORing their little-endian sum into
word3; the other bytes of word3 stay; a keystream byte is a byte of word2. -/
def Obligations.PartialChunkGoesToTheLowBytes : Prop :=
  ∀ (s : Nfsr) (ds : List Byte), 1 ≤ ds.length → ds.length ≤ 3 →
    absorbBytes s 0 ds = { s with s3 := s.s3 ^^^ leBytes ds } ∧
    (∀ j, (h : j < ds.length) → (absorbBytes s 0 ds).byte (12 + j) = s.byte (12 + j) ^^^ ds[j]) ∧
    (∀ j, ds.length ≤ j → j < 4 → (absorbBytes s 0 ds).byte (12 + j) = s.byte (12 + j)) ∧
    (∀ j, j < 4 → s.byte (8 + j) = byteOf s.s2 j)

/-! ### The host's accesses -/

/-- R42: the register block. Aligned word reads give each register's value and 0 for KEY and every reserved offset;
aligned word writes set each writable register and nothing else; every other access reads 0 and writes nothing; and no
access stops the machine. That an access starting at 0xFFFD to 0xFFFF, which runs past the register block, reads 0 and
writes nothing as a whole is the model's reading (log entry 6, DEDUCED). -/
def Obligations.RegisterBlockAccesses : Prop :=
  (∀ s : State,
    (hostRead s 0x00 .w32).1.toNat = 2 * s.ctrlOp.toNat ∧
    (hostRead s 0x04 .w32).1.toNat = s.status.busy.toNat + 2 * s.status.done.toNat + 4 * s.status.outv.toNat +
      16 * s.status.err.toNat ∧
    hostRead s 0x08 .w32 = (s.adLen, s.draws) ∧ hostRead s 0x0C .w32 = (s.inLen, s.draws) ∧
    hostRead s 0x10 .w32 = (s.outLen, s.draws) ∧
    (hostRead s 0x14 .w32).1.toNat = Config.adCap ∧ (hostRead s 0x18 .w32).1.toNat = Config.inCap ∧
    hostRead s 0x30 .w32 = (s.nonce.n0, s.draws) ∧ hostRead s 0x34 .w32 = (s.nonce.n1, s.draws) ∧
    hostRead s 0x38 .w32 = (s.nonce.n2, s.draws) ∧
    (∀ off : BitVec 18, off.toNat < 0x10000 →
      off ∉ [0x00, 0x04, 0x08, 0x0C, 0x10, 0x14, 0x18, 0x30, 0x34, 0x38] → hostRead s off .w32 = (0, s.draws))) ∧
  (∀ (s : State) (v : Word),
    hostWrite s 0x08 .w32 v = { s with adLen := v } ∧ hostWrite s 0x0C .w32 v = { s with inLen := v } ∧
    hostWrite s 0x20 .w32 v = { s with key := { s.key with k0 := v } } ∧
    hostWrite s 0x24 .w32 v = { s with key := { s.key with k1 := v } } ∧
    hostWrite s 0x28 .w32 v = { s with key := { s.key with k2 := v } } ∧
    hostWrite s 0x2C .w32 v = { s with key := { s.key with k3 := v } } ∧
    hostWrite s 0x30 .w32 v = { s with nonce := { s.nonce with n0 := v } } ∧
    hostWrite s 0x34 .w32 v = { s with nonce := { s.nonce with n1 := v } } ∧
    hostWrite s 0x38 .w32 v = { s with nonce := { s.nonce with n2 := v } } ∧
    (∀ off : BitVec 18, off.toNat < 0x10000 →
      off ∉ [0x00, 0x08, 0x0C, 0x20, 0x24, 0x28, 0x2C, 0x30, 0x34, 0x38] → hostWrite s off .w32 v = s)) ∧
  (∀ (s : State) (off : BitVec 18) (w : Width) (v : Word), off.toNat < 0x10000 → (w ≠ .w32 ∨ off.toNat % 4 ≠ 0) →
    hostRead s off w = (0, s.draws) ∧ hostWrite s off w v = s) ∧
  (∀ s : State, ∃ t, hostStep s = .next t)

/-- R46, R43: host accesses of the buffer windows are bytewise and little-endian, at every width and alignment, each
byte by its own offset, also across two windows or a capacity (inside the aperture; what runs past its end is log
entry 7). A write sets exactly the bytes of AB and IB it covers and nothing else; a read gives, byte by byte, what the
window shows there, where a byte has been written or the view fixes it. And a word written within a capacity reads
back, whole and by bytes. -/
def Obligations.HostWordsAreLittleEndianBytes : Prop :=
  (∀ (s : State) (off : BitVec 18) (w : Width) (v : Word), 0x10000 ≤ off.toNat → off.toNat + w.bytes ≤ 0x40000 →
    ∃ t, hostWrite s off w v = t ∧ t = { s with ab := t.ab, ib := t.ib } ∧
      (∀ o, Memory.get t.ab o =
        if o < Config.adCap ∧ off.toNat ≤ 0x10000 + o ∧ 0x10000 + o < off.toNat + w.bytes then
          some (byteOf v (0x10000 + o - off.toNat)) else Memory.get s.ab o) ∧
      (∀ o, Memory.get t.ib o =
        if o < Config.inCap ∧ off.toNat ≤ 0x20000 + o ∧ 0x20000 + o < off.toNat + w.bytes then
          some (byteOf v (0x20000 + o - off.toNat)) else Memory.get s.ib o)) ∧
  (∀ (s : State) (off : BitVec 18) (w : Width), 0x10000 ≤ off.toNat → off.toNat + w.bytes ≤ 0x40000 →
    (hostRead s off w).1.toNat < 256 ^ w.bytes ∧
    (∀ (j : Nat) (b : Byte), j < w.bytes → windowByte s (off.toNat + j) = some b →
      byteOf (hostRead s off w).1 j = b) ∧
    ((∀ j, j < w.bytes → (windowByte s (off.toNat + j)).isSome = true) → (hostRead s off w).2 = s.draws)) ∧
  (∀ (s : State) (o : Nat) (off : BitVec 18) (v : Word), o + 4 ≤ Config.inCap → off.toNat = 0x20000 + o →
    ∃ t, hostWrite s off .w32 v = t ∧ t = { s with ib := t.ib } ∧
      (∀ j, j < 4 → Memory.get t.ib (o + j) = some (byteOf v j)) ∧
      (∀ a, a < o ∨ o + 4 ≤ a → Memory.get t.ib a = Memory.get s.ib a) ∧
      hostRead t off .w32 = (v, s.draws) ∧
      ∀ (j : Nat) (p : BitVec 18), j < 4 → p.toNat = off.toNat + j →
        hostRead t p .w8 = ((byteOf v j).setWidth 32, s.draws)) ∧
  (∀ (s : State) (o : Nat) (off : BitVec 18) (v : Word), o + 4 ≤ Config.adCap → off.toNat = 0x10000 + o →
    ∃ t, hostWrite s off .w32 v = t ∧ t = { s with ab := t.ab } ∧
      (∀ j, j < 4 → Memory.get t.ab (o + j) = some (byteOf v j)) ∧
      (∀ a, a < o ∨ o + 4 ≤ a → Memory.get t.ab a = Memory.get s.ab a) ∧
      hostRead t off .w32 = (v, s.draws))

/-- R43: byte accesses of the windows at and past the capacities, and of OUT_BUF: reads past a capacity give 0 and
writes there, and every write to OUT_BUF, change nothing; within the capacity a byte write sets that byte, and a read
of a written byte gives it. -/
def Obligations.WindowBytesRespectTheCapacities : Prop :=
  ∀ (s : State) (o : Nat) (off : BitVec 18) (v : Word), o < 0x10000 →
    (off.toNat = 0x10000 + o → o < Config.adCap →
      hostWrite s off .w8 v = { s with ab := Memory.set s.ab o (byteOf v 0) } ∧
      ∀ b, Memory.get s.ab o = some b → hostRead s off .w8 = (b.setWidth 32, s.draws)) ∧
    (off.toNat = 0x10000 + o → Config.adCap ≤ o → hostRead s off .w8 = (0, s.draws) ∧ hostWrite s off .w8 v = s) ∧
    (off.toNat = 0x20000 + o → o < Config.inCap →
      hostWrite s off .w8 v = { s with ib := Memory.set s.ib o (byteOf v 0) } ∧
      ∀ b, Memory.get s.ib o = some b → hostRead s off .w8 = (b.setWidth 32, s.draws)) ∧
    (off.toNat = 0x20000 + o → Config.inCap ≤ o → hostRead s off .w8 = (0, s.draws) ∧ hostWrite s off .w8 v = s) ∧
    (off.toNat = 0x30000 + o → hostWrite s off .w8 v = s)

/-- R48: while BUSY = 1 every host write is ignored whatever its offset, width and value, and a read of OUT_BUF
returns 0. On the host's own move; `StepRunsTheHostsMove` says when the step is that move. -/
def Obligations.WritesAreIgnoredWhileBusy : Prop :=
  ∀ s : State, s.status.busy = true →
    (∀ (off : BitVec 18) (w : Width) (v : Word) (rest : List HostInput), s.inputs = .write off w v :: rest →
      hostStep s = .next { s with inputs := rest }) ∧
    (∀ (off : BitVec 18) (w : Width), 0x30000 ≤ off.toNat → off.toNat + w.bytes ≤ 0x40000 →
      hostRead s off w = (0, s.draws))

/-- R49: the masked view of OUT_BUF; and nothing is readable through it from the CHECK that passes until a completion,
nor after a failed verification. -/
def Obligations.OutputIsMasked : Prop :=
  (∀ (s : State) (o : Nat) (off : BitVec 18), o < 0x10000 → off.toNat = 0x30000 + o →
    (s.status.busy = false → s.status.outv = true → o < s.outLen.toNat →
      ∀ b, Memory.get s.ob o = some b → hostRead s off .w8 = (b.setWidth 32, s.draws)) ∧
    (s.status.busy = true ∨ s.status.outv = false ∨ s.outLen.toNat ≤ o → hostRead s off .w8 = (0, s.draws))) ∧
  (∀ s : State, EngineInv s → 2 ≤ s.ph.toNat → s.status.outv = false) ∧
  (∀ s : State, s.completeAuthFail.status.outv = false ∧ s.completeAuthFail.outLen = 0)

/-- R53: a read, on the host's own move, changes nothing but what the host has seen (and which draws are left); it
always completes. `StepRunsTheHostsMove` says when the step is that move. -/
def Obligations.ReadsHaveNoSideEffect : Prop :=
  ∀ (s : State) (off : BitVec 18) (w : Width) (rest : List HostInput), s.inputs = .read off w :: rest →
    ∃ t, hostStep s = .next t ∧ t = { s with inputs := rest, observed := t.observed, draws := t.draws } ∧
      t.observed = (hostRead s off w).1 :: s.observed

/-- R35, R22: what the host reads does not depend on the key, on S, PH, the counters or the tag words, nor on the
bytes of OB that the view masks. Two reads with the same draws to come are compared: for a byte not written since reset
both give the same draw, the model's form of a free value (log entry 4, DESIGN CHOICE), and so past the end of the
aperture (log entry 7, DESIGN CHOICE). -/
def Obligations.HiddenStateIsNotReadable : Prop :=
  ∀ (s : State) (nfsr : Nfsr) (key : Key) (ph : BitVec 4) (nidx adp mp : Nat) (t0 t1 : Word) (ob : Memory),
    (s.status.busy = false → s.status.outv = true → ∀ o, o < s.outLen.toNat → Memory.get ob o = Memory.get s.ob o) →
    ∀ (off : BitVec 18) (w : Width),
      hostRead { s with
        nfsr := nfsr, key := key, ph := ph, nidx := nidx, adp := adp, mp := mp, t0 := t0, t1 := t1, ob := ob } off w =
        hostRead s off w

/-! ### Reset -/

/-- R140, R141: a reset, on the host's own move (`StepRunsTheHostsMove` says when the step is that move, in every state
but the faults of log entry 10), sets every register and the phase state to the values of R36 and unwrites
every buffer byte; the record of an operation in progress is gone and OUT_BUF reads 0. -/
def Obligations.ResetSetsEveryRegister : Prop :=
  ∀ (s : State) (rest : List HostInput), s.inputs = .reset :: rest →
    ∃ t, hostStep s = .next t ∧
      t.nfsr = ⟨0, 0, 0, 0⟩ ∧ t.key = ⟨0, 0, 0, 0⟩ ∧ t.nonce = ⟨0, 0, 0⟩ ∧ t.ctrlOp = 0 ∧
      t.status = ⟨false, false, false, 0⟩ ∧ t.adLen = 0 ∧ t.inLen = 0 ∧ t.outLen = 0 ∧ t.ph = 0 ∧
      t.nidx = 0 ∧ t.adp = 0 ∧ t.mp = 0 ∧ t.t0 = 0 ∧ t.t1 = 0 ∧
      (∀ o, Memory.get t.ab o = none ∧ Memory.get t.ib o = none) ∧
      (∀ (off : BitVec 18) (w : Width), 0x30000 ≤ off.toNat → off.toNat + w.bytes ≤ 0x40000 →
        (hostRead t off w).1 = 0)

/-! ### Host commands -/

/-- R100, R101: ENCRYPT and DECRYPT, for every data word. That a term whose data word is another command's, which the
decoder never gives, goes by its constructor is the model's choice (log entry 23, DESIGN CHOICE). -/
def Obligations.StartCommandsBeginATransaction : Prop :=
  ∀ (d : Word) (s : State),
    (s.status.busy = false →
      exec (.encrypt d) s = .next { s with ctrlOp := 0, status := ⟨true, false, s.status.outv, 0⟩, ph := 1 } ∧
      exec (.decrypt d) s = .next { s with ctrlOp := 1, status := ⟨true, false, s.status.outv, 0⟩, ph := 1 }) ∧
    (s.status.busy = true → exec (.encrypt d) s = .next s ∧ exec (.decrypt d) s = .next s)

/-- R102: SETOP writes bit 1 of the data word to CTRL.OP, and that is all; the next read of CTRL shows it. That a term
whose data word has bit 0 set, which the decoder never gives, goes by its constructor is the model's choice (log entry
23, DESIGN CHOICE). -/
def Obligations.SetopWritesTheDirection : Prop :=
  ∀ (d : Word) (s : State),
    (s.status.busy = false → ∃ t, exec (.setop d) s = .next t ∧ t = { s with ctrlOp := t.ctrlOp } ∧
      t.ctrlOp.toNat = d.toNat / 2 % 2 ∧ (hostRead t 0 .w32).1.toNat = 2 * (d.toNat / 2 % 2)) ∧
    (s.status.busy = true → exec (.setop d) s = .next s)

/-! ### Sequencer -/

/-- R105 and log entry 12: IDLE waits, changing nothing (the model's stutter). -/
def Obligations.IdleChangesNothing : Prop :=
  ∀ (op : BitVec 1) (s : State), exec (.idle op) s = .next s

/-- R103, R121, R122: CHECK ends the transaction with CT_SHORT, else with CAPACITY, else passes; a failed CHECK changes
nothing but STATUS and PH. -/
def Obligations.CheckRejectsIllegalLengths : Prop :=
  ∀ (op : BitVec 1) (s : State),
    (s.ctrlOp = 1 → s.inLen.toNat < 8 → exec (.check op) s =
      .next { s with status := ⟨false, true, s.status.outv, 1⟩, ph := 0 }) ∧
    (¬ (s.ctrlOp = 1 ∧ s.inLen.toNat < 8) → (Config.adCap < s.adLen.toNat ∨ Config.inCap < s.inLen.toNat) →
      exec (.check op) s = .next { s with status := ⟨false, true, s.status.outv, 2⟩, ph := 0 }) ∧
    (¬ (s.ctrlOp = 1 ∧ s.inLen.toNat < 8) → s.adLen.toNat ≤ Config.adCap → s.inLen.toNat ≤ Config.inCap →
      exec (.check op) s = .next { s with
        status := { s.status with outv := false }, outLen := 0, nidx := 0, adp := 0, mp := 0, ph := 2 })

/-! ### Initialization and AD -/

/-- R80: KEYLOAD. -/
def Obligations.KeyloadAdvancesFromZero : Prop :=
  ∀ (op : BitVec 1) (s : State), ∃ n, advance ⟨0, 0, 0, 0⟩ s.key 1280 = some n ∧
    exec (.keyload op) s = .next { s with nfsr := n, ph := 3 }

/-- R81: NONCE, for each of the three words. -/
def Obligations.NonceAbsorbsEachWord : Prop :=
  ∀ (op : BitVec 1) (s : State), ∃ n, afterTag s 0x10 640 = some n ∧
    (s.nidx = 0 → exec (.nonce op) s =
      .next { s with nfsr := { n with s3 := n.s3 ^^^ s.nonce.n0 }, nidx := 1, ph := 3 }) ∧
    (s.nidx = 1 → exec (.nonce op) s =
      .next { s with nfsr := { n with s3 := n.s3 ^^^ s.nonce.n1 }, nidx := 2, ph := 3 }) ∧
    (s.nidx = 2 → exec (.nonce op) s =
      .next { s with
        nfsr := { n with s3 := n.s3 ^^^ s.nonce.n2 }, nidx := 3
        ph := phaseAfterInput s.adp s.adLen.toNat s.mp s.ml })

/-- R82: AD_FULL under its precondition, whatever the bytes read. -/
def Obligations.AdFullAbsorbsAWord : Prop :=
  ∀ (op : BitVec 1) (s : State), s.adp + 4 ≤ s.adLen.toNat → ∃ n, afterTag s 0x30 640 = some n ∧
    exec (.adFull op) s = .next { s with
      nfsr := { n with s3 := n.s3 ^^^ (Memory.loadWord s.ab s.adp s.draws).1 }
      adp := s.adp + 4
      draws := (Memory.loadWord s.ab s.adp s.draws).2
      ph := phaseAfterInput (s.adp + 4) s.adLen.toNat s.mp s.ml }

/-- R83: AD_PART under its precondition, whatever the bytes read: the chunk's little-endian sum into word3, its length
into word1. -/
def Obligations.AdPartAbsorbsTheChunk : Prop :=
  ∀ (op : BitVec 1) (s : State) (r : Nat), s.adp + r = s.adLen.toNat → 1 ≤ r → r ≤ 3 →
    ∃ n, afterTag s 0x30 640 = some n ∧
      exec (.adPart op) s = .next { s with
        nfsr := { n with
          s1 := n.s1 ^^^ BitVec.ofNat 32 r
          s3 := n.s3 ^^^ leBytes (Memory.loadBytes s.ab s.adp r s.draws).1 }
        adp := s.adLen.toNat
        draws := (Memory.loadBytes s.ab s.adp r s.draws).2
        ph := if s.mp + 4 ≤ s.ml then 6 else if s.mp < s.ml then 7 else 8 }

/-- R85: KEYLOAD and the three NONCE steps leave the register a function of the key and the nonce alone. -/
def Obligations.InitializationDependsOnKeyAndNonce : Prop :=
  ∀ s : State, s.ph = 2 → s.nidx = 0 → s.inputs = [] → s.status.err.toNat ≤ 3 →
    ∃ t, runSteps 4 s = .next t ∧ t.nfsr = initState s.key s.nonce ∧
      t = { s with nfsr := t.nfsr, nidx := 3, ph := phaseAfterInput s.adp s.adLen.toNat s.mp s.ml }

/-! ### Message transform -/

/-- R90: MSG_FULL_ENC under its precondition, whatever the bytes read. -/
def Obligations.MsgFullEncEncryptsAWord : Prop :=
  ∀ s : State, s.mp + 4 ≤ s.ml → ∃ n t, afterTag s 0x50 1280 = some n ∧ exec .msgFullEnc s = .next t ∧
    t = { s with
      nfsr := { n with s3 := n.s3 ^^^ (Memory.loadWord s.ib s.mp s.draws).1 }
      ob := t.ob
      mp := s.mp + 4
      draws := (Memory.loadWord s.ib s.mp s.draws).2
      ph := phaseAfterInput s.adp s.adLen.toNat (s.mp + 4) s.ml } ∧
    (∀ j, j < 4 →
      Memory.get t.ob (s.mp + j) = some (byteOf (n.s2 ^^^ (Memory.loadWord s.ib s.mp s.draws).1) j)) ∧
    (∀ a, a < s.mp ∨ s.mp + 4 ≤ a → Memory.get t.ob a = Memory.get s.ob a)

/-- R91: MSG_FULL_DEC under its precondition, whatever the bytes read: the recovered word is absorbed. -/
def Obligations.MsgFullDecRecoversAWord : Prop :=
  ∀ s : State, s.mp + 4 ≤ s.ml → ∃ n t p, afterTag s 0x50 1280 = some n ∧ exec .msgFullDec s = .next t ∧
    p = n.s2 ^^^ (Memory.loadWord s.ib s.mp s.draws).1 ∧
    t = { s with
      nfsr := { n with s3 := n.s3 ^^^ p }
      ob := t.ob
      mp := s.mp + 4
      draws := (Memory.loadWord s.ib s.mp s.draws).2
      ph := phaseAfterInput s.adp s.adLen.toNat (s.mp + 4) s.ml } ∧
    (∀ j, j < 4 → Memory.get t.ob (s.mp + j) = some (byteOf p j)) ∧
    (∀ a, a < s.mp ∨ s.mp + 4 ≤ a → Memory.get t.ob a = Memory.get s.ob a)

/-- R92: MSG_PART_ENC under its precondition, whatever the bytes read. -/
def Obligations.MsgPartEncEncryptsTheChunk : Prop :=
  ∀ (s : State) (r : Nat), s.mp + r = s.ml → 1 ≤ r → r ≤ 3 →
    ∃ n t xs, afterTag s 0x50 1280 = some n ∧ exec .msgPartEnc s = .next t ∧
      xs = (Memory.loadBytes s.ib s.mp r s.draws).1 ∧
      t = { s with
        nfsr := { n with s1 := n.s1 ^^^ BitVec.ofNat 32 r, s3 := n.s3 ^^^ leBytes xs }
        ob := t.ob
        mp := s.ml
        draws := (Memory.loadBytes s.ib s.mp r s.draws).2
        ph := phaseAfterInput s.adp s.adLen.toNat s.ml s.ml } ∧
      (∀ j, (h : j < xs.length) → Memory.get t.ob (s.mp + j) = some (byteOf n.s2 j ^^^ xs[j])) ∧
      (∀ a, a < s.mp ∨ s.ml ≤ a → Memory.get t.ob a = Memory.get s.ob a)

/-- R93: MSG_PART_DEC under its precondition, whatever the bytes read: the recovered bytes are absorbed. -/
def Obligations.MsgPartDecRecoversTheChunk : Prop :=
  ∀ (s : State) (r : Nat), s.mp + r = s.ml → 1 ≤ r → r ≤ 3 →
    ∃ n t ys ps, afterTag s 0x50 1280 = some n ∧ exec .msgPartDec s = .next t ∧
      ys = (Memory.loadBytes s.ib s.mp r s.draws).1 ∧ ps = ys.mapIdx (fun j y => y ^^^ byteOf n.s2 j) ∧
      t = { s with
        nfsr := { n with s1 := n.s1 ^^^ BitVec.ofNat 32 r, s3 := n.s3 ^^^ leBytes ps }
        ob := t.ob
        mp := s.ml
        draws := (Memory.loadBytes s.ib s.mp r s.draws).2
        ph := phaseAfterInput s.adp s.adLen.toNat s.ml s.ml } ∧
      (∀ j, (h : j < ps.length) → Memory.get t.ob (s.mp + j) = some ps[j]) ∧
      (∀ a, a < s.mp ∨ s.ml ≤ a → Memory.get t.ob a = Memory.get s.ob a)

/-- R94 (b): a decrypt step that reads the bytes an encrypt step wrote, from the same register and key, recovers the
plaintext and reaches the same register; full blocks and partial chunks. -/
def Obligations.DecryptStepMirrorsEncryptStep : Prop :=
  ∀ s d t : State, d.nfsr = s.nfsr → d.key = s.key →
    (s.mp + 4 ≤ s.ml → d.mp + 4 ≤ d.ml → exec .msgFullEnc s = .next t →
      (∀ j, j < 4 → Memory.get d.ib (d.mp + j) = Memory.get t.ob (s.mp + j)) →
      ∃ u, exec .msgFullDec d = .next u ∧ u.nfsr = t.nfsr ∧ u.draws = d.draws ∧
        ∀ j, j < 4 → Memory.get u.ob (d.mp + j) = some (byteOf (Memory.loadWord s.ib s.mp s.draws).1 j)) ∧
    (∀ r, s.mp + r = s.ml → d.mp + r = d.ml → 1 ≤ r → r ≤ 3 → exec .msgPartEnc s = .next t →
      (∀ j, j < r → Memory.get d.ib (d.mp + j) = Memory.get t.ob (s.mp + j)) →
      ∃ u, exec .msgPartDec d = .next u ∧ u.nfsr = t.nfsr ∧ u.draws = d.draws ∧
        ∀ j, j < r → Memory.get u.ob (d.mp + j) = (Memory.loadBytes s.ib s.mp r s.draws).1[j]?)

/-- Log entry 8: a data micro-operation outside the precondition its rule states, and NONCE past the third word, stop
by name (R82, R83, R90 to R93, R81; no run reaches such a state). -/
def Obligations.BrokenPreconditionsStop : Prop :=
  ∀ (op : BitVec 1) (s : State),
    (s.adLen.toNat < s.adp + 4 → exec (.adFull op) s = .fault .phasePrecondition) ∧
    (s.adLen.toNat ≤ s.adp ∨ s.adp + 4 ≤ s.adLen.toNat → exec (.adPart op) s = .fault .phasePrecondition) ∧
    (s.ml < s.mp + 4 → exec .msgFullEnc s = .fault .phasePrecondition ∧
      exec .msgFullDec s = .fault .phasePrecondition) ∧
    (s.ml ≤ s.mp ∨ s.mp + 4 ≤ s.ml → exec .msgPartEnc s = .fault .phasePrecondition ∧
      exec .msgPartDec s = .fault .phasePrecondition) ∧
    (3 ≤ s.nidx → exec (.nonce op) s = .fault .nonceIndexOutOfRange)

/-! ### Finalization and verification -/

/-- R95, R96: FIN1 and FIN2. -/
def Obligations.FinalizationExtractsTheTagWords : Prop :=
  ∀ (op : BitVec 1) (s : State),
    (∃ n, afterTag s 0x70 1280 = some n ∧ exec (.fin1 op) s = .next { s with nfsr := n, t0 := n.s2, ph := 9 }) ∧
    (∃ n, afterTag s 0x70 640 = some n ∧ exec (.fin2 op) s = .next { s with nfsr := n, t1 := n.s2, ph := 10 })

/-- R97: FINISH_ENC appends the tag at OB[ML], at any byte offset, and completes. That OUT_LEN holds ML + 8 modulo 2^32
is the model's reading of a length no run reaches (log entry 13, DEDUCED), and so is ML of a decrypt with IN_LEN < 8
(log entry 11). -/
def Obligations.FinishEncAppendsTheTag : Prop :=
  ∀ s : State, ∃ t, exec .finishEnc s = .next t ∧
    t = { s with
      nfsr := ⟨0, 0, 0, 0⟩, t0 := 0, t1 := 0, nidx := 0, adp := 0, mp := 0
      ob := t.ob, outLen := BitVec.ofNat 32 (s.ml + 8), status := ⟨false, true, true, 0⟩, ph := 0 } ∧
    (∀ j, j < 4 → Memory.get t.ob (s.ml + j) = some (byteOf s.t0 j) ∧
      Memory.get t.ob (s.ml + 4 + j) = some (byteOf s.t1 j)) ∧
    (∀ a, a < s.ml ∨ s.ml + 8 ≤ a → Memory.get t.ob a = Memory.get s.ob a)

/-- R98: VERIFY_DEC succeeds exactly where the 8 supplied bytes, as read, are the computed tag; else it zeroes
OB[0 .. ML-1] and takes AUTH_FAIL. OUT_LEN modulo 2^32 is log entry 13, ML with IN_LEN < 8 log entry 11 (DEDUCED). -/
def Obligations.VerifyDecComparesEveryTagByte : Prop :=
  ∀ (s : State) (supplied : List Byte) (d : Nat), Memory.loadBytes s.ib s.ml 8 s.draws = (supplied, d) →
    (supplied = st32 s.t0 ++ st32 s.t1 → exec .verifyDec s = .next { s with
      nfsr := ⟨0, 0, 0, 0⟩, t0 := 0, t1 := 0, nidx := 0, adp := 0, mp := 0
      outLen := BitVec.ofNat 32 s.ml, status := ⟨false, true, true, 0⟩, ph := 0, draws := d }) ∧
    (supplied ≠ st32 s.t0 ++ st32 s.t1 → ∃ t, exec .verifyDec s = .next t ∧
      t = { s with
        nfsr := ⟨0, 0, 0, 0⟩, t0 := 0, t1 := 0, nidx := 0, adp := 0, mp := 0
        ob := t.ob, outLen := 0, status := ⟨false, true, false, 3⟩, ph := 0, draws := d } ∧
      ∀ a, Memory.get t.ob a = if a < s.ml then some 0 else Memory.get s.ob a)

/-- R99: two computed tags that agree about matching leave the same state, so a decrypt tells nothing of its tag but
whether it matched. -/
def Obligations.DecryptHidesItsTag : Prop :=
  ∀ (s : State) (t0 t1 : Word),
    ((s.suppliedTag.1 = st32 s.t0 ++ st32 s.t1) ↔ (s.suppliedTag.1 = st32 t0 ++ st32 t1)) →
    exec .verifyDec { s with t0 := t0, t1 := t1 } = exec .verifyDec s

/-! ### Whole-machine rules -/

/-- R48, R54 (b): while BUSY = 1, no step of either agent but a reset changes the direction, the key, the nonce, a
length or an input buffer. -/
def Obligations.TransactionInputsAreFrozen : Prop :=
  ∀ s t : State, s.status.busy = true → (∀ rest, s.inputs ≠ .reset :: rest) → step s = .next t →
    t.ctrlOp = s.ctrlOp ∧ t.key = s.key ∧ t.nonce = s.nonce ∧ t.adLen = s.adLen ∧ t.inLen = s.inLen ∧
    t.ab = s.ab ∧ t.ib = s.ib

/-- R107: with every input byte written, a step of a running transaction, whatever the interleaving and the host's
accesses short of a reset, either leaves the engine as it was or is the engine's own step from it. -/
def Obligations.InterleavingDoesNotReachTheEngine : Prop :=
  ∀ s t : State, EngineInv s → s.status.busy = true → (∀ rest, s.inputs ≠ .reset :: rest) →
    Memory.written s.ab s.adLen.toNat → Memory.written s.ib s.inLen.toNat → step s = .next t →
    t.engineView = s.engineView ∨ ∃ u, step s.engineView = .next u ∧ t.engineView = u.engineView

/-- R128: in IDLE the record of the last transaction and its output stay, until a START is written or a reset
comes. -/
def Obligations.RecordStaysUntilTheNextStart : Prop :=
  ∀ s t : State, s.ph = 0 → (∀ rest, s.inputs ≠ .reset :: rest) →
    (∀ d rest, s.inputs = .write 0 .w32 d :: rest → d &&& 0x1 = 0x0) → step s = .next t →
    t.status = s.status ∧ t.outLen = s.outLen ∧ t.ob = s.ob ∧ t.ph = 0

/-- R25, R106: OUTV is set only by a completion that succeeds: FINISH_ENC, or VERIFY_DEC with a tag that matches. -/
def Obligations.OnlySuccessMakesOutputValid : Prop :=
  ∀ s t : State, step s = .next t → s.status.outv = false → t.status.outv = true →
    s.turn.1 = .engine ∧
      (s.fetch = .ok .finishEnc ∨ (s.fetch = .ok .verifyDec ∧ s.suppliedTag.1 = st32 s.t0 ++ st32 s.t1))

/-- R25, R30, R31, R33, R35, R50, R51, R103, R104: every step, of either agent, keeps the invariant. -/
def Obligations.EveryStepKeepsTheInvariant : Prop :=
  ∀ s t : State, EngineInv s → step s = .next t → EngineInv t

/-- R36: the invariant holds at reset. -/
def Obligations.ResetMeetsTheInvariant : Prop := EngineInv State.reset

/-- R126, R104, R50: under the invariant no step stops: the phase machine never reaches an unused phase, a reserved
code, a missing nonce word or a broken precondition. -/
def Obligations.InvariantStatesNeverStop : Prop := ∀ s : State, EngineInv s → Safe s

/-! ### Transactions -/

/-- R104: a transaction that passes CHECK performs exactly the micro-operations of the rule, in its order. -/
def Obligations.TransactionPerformsTheSequence : Prop :=
  ∀ s : State, Started s → Admitted s →
    microTrace (transactionSteps s.adLen.toNat s.ml) s = transactionOps s.ctrlOp s.adLen.toNat s.ml

/-- R111: a transaction that passes CHECK is busy for exactly the rule's number of engine steps and then complete, with
the rule's number of batches; one that fails CHECK is complete after 1 step and no batch. -/
def Obligations.TransactionsTerminateInBoundedWork : Prop :=
  ∀ s : State, Started s →
    (Admitted s →
      (∀ k, k < transactionSteps s.adLen.toNat s.ml → ∃ u, runSteps k s = .next u ∧ u.status.busy = true) ∧
      (∃ t, runSteps (transactionSteps s.adLen.toNat s.ml) s = .next t ∧ t.status.busy = false ∧
        t.status.done = true ∧ t.ph = 0) ∧
      batchesOf (microTrace (transactionSteps s.adLen.toNat s.ml) s) =
        160 + 20 * ((s.adLen.toNat + 3) / 4) + 40 * ((s.ml + 3) / 4)) ∧
    (¬ Admitted s →
      (∃ t, runSteps 1 s = .next t ∧ t.status.busy = false ∧ t.status.done = true ∧ t.ph = 0) ∧
      batchesOf (microTrace 1 s) = 0)

/-- R108: a started ENCRYPT within the capacities ends with OB = C || tag as the whole-buffer function gives it from
the key, the nonce and the bytes read, with OUT_LEN = len(P) + 8, and nothing else of the previous state matters. -/
def Obligations.EncryptMeetsItsContract : Prop :=
  ∀ s : State, Started s → s.ctrlOp = 0 → s.adLen.toNat ≤ Config.adCap → s.inLen.toNat ≤ Config.inCap →
    ∃ (t : State) (ad pt : List Byte),
      runSteps (transactionSteps s.adLen.toNat s.inLen.toNat) s = .next t ∧
      ad.length = s.adLen.toNat ∧ Memory.readsAs s.ab 0 ad ∧ pt.length = s.inLen.toNat ∧ Memory.readsAs s.ib 0 pt ∧
      (aeadEncrypt s.key s.nonce ad pt).length = pt.length + 8 ∧
      Memory.holds t.ob 0 (aeadEncrypt s.key s.nonce ad pt) ∧
      t = { s with
        nfsr := ⟨0, 0, 0, 0⟩, t0 := 0, t1 := 0, nidx := 0, adp := 0, mp := 0
        ob := t.ob, outLen := t.outLen, status := ⟨false, true, true, 0⟩, ph := 0, draws := t.draws } ∧
      t.outLen.toNat = pt.length + 8 ∧
      ∀ a, pt.length + 8 ≤ a → Memory.get t.ob a = Memory.get s.ob a

/-- R109: a started DECRYPT with 8 <= IN_LEN <= IN_CAP (and AD_LEN <= AD_CAP, which CHECK asks too) ends with the
recovered plaintext exactly where the whole-buffer function gives one, and else with AUTH_FAIL and OB[0 .. ML-1]
zeroed; IN_LEN < 8 ends with CT_SHORT after CHECK. -/
def Obligations.DecryptMeetsItsContract : Prop :=
  ∀ s : State, Started s → s.ctrlOp = 1 →
    (8 ≤ s.inLen.toNat → s.inLen.toNat ≤ Config.inCap → s.adLen.toNat ≤ Config.adCap →
      ∃ (t : State) (ad ct : List Byte),
        runSteps (transactionSteps s.adLen.toNat (s.inLen.toNat - 8)) s = .next t ∧
        ad.length = s.adLen.toNat ∧ Memory.readsAs s.ab 0 ad ∧ ct.length = s.inLen.toNat ∧
        Memory.readsAs s.ib 0 ct ∧
        t = { s with
          nfsr := ⟨0, 0, 0, 0⟩, t0 := 0, t1 := 0, nidx := 0, adp := 0, mp := 0
          ob := t.ob, outLen := t.outLen, status := t.status, ph := 0, draws := t.draws } ∧
        (∀ pt, aeadDecrypt s.key s.nonce ad ct = some pt →
          t.status = ⟨false, true, true, 0⟩ ∧ t.outLen.toNat = ct.length - 8 ∧ pt.length = ct.length - 8 ∧
          Memory.holds t.ob 0 pt) ∧
        (aeadDecrypt s.key s.nonce ad ct = none →
          t.status = ⟨false, true, false, 3⟩ ∧ t.outLen = 0 ∧
          ∀ a, a < s.inLen.toNat - 8 → Memory.get t.ob a = some 0)) ∧
    (s.inLen.toNat < 8 → runSteps 1 s =
      .next { s with status := ⟨false, true, s.status.outv, 1⟩, ph := 0 })

/-- R110, on the whole-buffer functions: decrypting an encryption under the same key, nonce and AD gives the plaintext
back. -/
def Obligations.DecryptInvertsEncrypt : Prop :=
  ∀ (k : Key) (n : Nonce) (ad pt : List Byte), aeadDecrypt k n ad (aeadEncrypt k n ad pt) = some pt

/-- R110, on the machine: an encrypt's output, placed in IB and decrypted with the same key, nonce and AD, gives
ERR = NONE and the plaintext. -/
def Obligations.MachineRoundTrip : Prop :=
  ∀ (s d t : State) (ad pt : List Byte),
    Started s → s.ctrlOp = 0 → ad.length = s.adLen.toNat → pt.length = s.inLen.toNat →
    Memory.holds s.ab 0 ad → Memory.holds s.ib 0 pt → s.adLen.toNat ≤ Config.adCap →
    pt.length + 8 ≤ Config.inCap →
    runSteps (transactionSteps s.adLen.toNat s.inLen.toNat) s = .next t →
    Started d → d.ctrlOp = 1 → d.key = s.key → d.nonce = s.nonce → d.adLen = s.adLen → Memory.holds d.ab 0 ad →
    d.inLen = t.outLen → (∀ j, j < t.outLen.toNat → Memory.get d.ib j = Memory.get t.ob j) →
    ∃ u, runSteps (transactionSteps ad.length pt.length) d = .next u ∧ u.status = ⟨false, true, true, 0⟩ ∧
      u.outLen.toNat = pt.length ∧ Memory.holds u.ob 0 pt

/-- R107, R145, R68: a WAIT issued during a transaction ends, in every interleaving, with the transaction complete. -/
def Obligations.WaitEndsInEveryInterleaving : Prop :=
  ∀ s : State, EngineInv s → s.status.busy = true → s.inputs = pseudoWait →
    ∃ n t, runSteps n s = .next t ∧ t.inputs = [] ∧ t.status.busy = false ∧ t.status.done = true

/-- R22, R68: after LOADKEY of 16 bytes on an idle engine, key byte 4i+j is bits 8j+7..8j of K[i], and nothing else of
the engine changed. -/
def Obligations.LoadKeyWritesLittleEndianWords : Prop :=
  ∀ (s : State) (key : List Byte), s.ph = 0 → s.status.busy = false → s.status.err.toNat ≤ 3 → key.length = 16 →
    s.inputs = pseudoLoadKey key →
    ∃ t, runSteps 4 s = .next t ∧ t = { s with key := t.key, inputs := [] } ∧
      ∀ j, j < 4 →
        key[j]? = some (byteOf t.key.k0 j) ∧ key[4 + j]? = some (byteOf t.key.k1 j) ∧
        key[8 + j]? = some (byteOf t.key.k2 j) ∧ key[12 + j]? = some (byteOf t.key.k3 j)

/-! ### The host's moves, and the platform -/

/-- R107, R53, R48, R67: where the host moves, the step is the host's move on the state with a choice of the
interleaving used up; and the host's move of a plain write with BUSY = 0 is the write of R42 and R43 and nothing else, of
a read the read, and of a poll one read, which ends the poll exactly where the value under the mask is the one waited
for. Who moves is log entry 3, a bad state log entry 10, a poll's reads log entry 22. -/
def Obligations.StepRunsTheHostsMove : Prop :=
  (∀ s : State, s.badState = none → s.turn.1 = .host → step s = hostStep { s with sched := s.turn.2 }) ∧
  (∀ (s : State) (off : BitVec 18) (w : Width) (v : Word) (rest : List HostInput),
    s.inputs = .write off w v :: rest → s.status.busy = false → (w ≠ .w32 ∨ off ≠ 0) →
    hostStep s = .next (hostWrite { s with inputs := rest } off w v)) ∧
  (∀ (s : State) (off : BitVec 18) (w : Width) (rest : List HostInput), s.inputs = .read off w :: rest →
    hostStep s = .next { s with
      inputs := rest, observed := (hostRead s off w).1 :: s.observed, draws := (hostRead s off w).2 }) ∧
  (∀ (s : State) (off : BitVec 18) (mask val : Word) (rest : List HostInput),
    s.inputs = .poll off mask val :: rest →
    hostStep s = .next { s with
      inputs := if (hostRead s off .w32).1 &&& mask = val then rest else s.inputs
      observed := (hostRead s off .w32).1 :: s.observed
      draws := (hostRead s off .w32).2 })

/-- R133, R40, R8: every instance has an aperture of its own, aligned and disjoint from every other's; a step of one
instance, and a bus access that falls in its aperture, is that instance's own step and changes no other instance; an
access in no aperture reaches none; and the draws a step uses are never used again by any instance. The numbering of
the instances, and a bus address in no aperture, are log entry 18 (DESIGN CHOICE); the common count of draws is log
entry 4. A 2- or 4-byte access that starts at offset 0x3FFFD to 0x3FFFF and runs past the end of its aperture, possibly
into the next instance's, is the first instance's as a whole (log entry 18, DESIGN CHOICE), the bytes past the end
dropped on a write and free on a read (log entry 7, DESIGN CHOICE). -/
def Obligations.InstancesShareNothing : Prop :=
  (∀ k, Config.base k % 0x40000 = 0) ∧
  (∀ k j a o q : Nat, busOffset k a = some o → busOffset j a = some q → k = j ∧ o = q ∧ o < 0x40000) ∧
  (∀ (p : Platform) (k : Nat) (s t : State), p.instances[k]? = some s → step { s with draws := p.draws } = .next t →
    ∃ q, p.stepAt k = .next q ∧ q.instances[k]? = some t ∧ (∀ j, j ≠ k → q.instances[j]? = p.instances[j]?) ∧
      q.draws = t.draws ∧ p.draws ≤ q.draws) ∧
  (∀ (p : Platform) (k a o : Nat) (x : BusAccess) (s t : State), p.instances[k]? = some s → busOffset k a = some o →
    s.badState = none → hostStep { s with draws := p.draws, inputs := x.at o :: s.inputs } = .next t →
    ∃ q, p.busStep a x = .next q ∧ q.instances[k]? = some t ∧ (∀ j, j ≠ k → q.instances[j]? = p.instances[j]?) ∧
      q.draws = t.draws ∧ p.draws ≤ q.draws) ∧
  (∀ (p : Platform) (a : Nat) (x : BusAccess), (∀ k, k < p.instances.length → busOffset k a = none) →
    p.busStep a x = .next p)
end

