-- ==== Sys2Proof/Laws/ByteOrder.lean ====
section
/-! SUPPORT. Byte order: a word and its four bytes determine each other (20_memory.md R44, R45). -/

namespace Sys2Proof.Machine

theorem getLsbD_wordByte (w : Word) (j i : Nat) :
    (wordByte w j).getLsbD i = (decide (i < 8) && w.getLsbD (8 * j + i)) := by
  simp [wordByte, BitVec.getLsbD_extractLsb']

theorem getLsbD_le32 (b0 b1 b2 b3 : Byte) (i : Nat) :
    (le32 b0 b1 b2 b3).getLsbD i = (decide (i < 32) && ((decide (i < 8) && b0.getLsbD i) ||
      (decide (8 ≤ i) && b1.getLsbD (i - 8)) || (decide (16 ≤ i) && b2.getLsbD (i - 16)) ||
      (decide (24 ≤ i) && b3.getLsbD (i - 24)))) := by
  simp only [le32, BitVec.getLsbD_or, BitVec.getLsbD_setWidth, BitVec.getLsbD_shiftLeft]
  grind

/-- A word is LE32 of its bytes. -/
@[simp] theorem le32_wordBytes (w : Word) :
    le32 (wordByte w 0) (wordByte w 1) (wordByte w 2) (wordByte w 3) = w := by
  refine BitVec.eq_of_getLsbD_eq fun i hi => ?_
  simp only [getLsbD_le32, getLsbD_wordByte]
  grind

/-- Byte `j` of LE32 is the `j`-th of its bytes. -/
theorem wordByte_le32 (b0 b1 b2 b3 : Byte) :
    wordByte (le32 b0 b1 b2 b3) 0 = b0 ∧ wordByte (le32 b0 b1 b2 b3) 1 = b1 ∧
    wordByte (le32 b0 b1 b2 b3) 2 = b2 ∧ wordByte (le32 b0 b1 b2 b3) 3 = b3 := by
  refine ⟨?_, ?_, ?_, ?_⟩ <;> refine BitVec.eq_of_getLsbD_eq fun i hi => ?_ <;>
    simp only [getLsbD_le32, getLsbD_wordByte] <;> grind

/-- The bytes of LE32 are its bytes. -/
@[simp] theorem st32_le32 (b0 b1 b2 b3 : Byte) : st32 (le32 b0 b1 b2 b3) = [b0, b1, b2, b3] := by
  obtain ⟨h0, h1, h2, h3⟩ := wordByte_le32 b0 b1 b2 b3
  simp [st32, h0, h1, h2, h3]

@[simp] theorem st32_length (w : Word) : (st32 w).length = 4 := rfl

end Sys2Proof.Machine
end

