-- ==== Sys2Proof/Laws/Memory.lean ====
section
/-! SUPPORT. The laws of the byte buffers: a read after a write, the canonical form, stores and loads of several
bytes. -/

namespace Sys2Proof.Machine

@[simp] theorem Memory.get_nil (p : Nat) : Memory.get [] p = none := rfl

theorem Memory.get_set (m : Memory) (o p : Nat) (v : Byte) :
    Memory.get (Memory.set m o v) p = if p = o then some v else Memory.get m p := by
  induction m with
  | nil => simp only [Memory.set, Memory.get, Memory.unlisted]; grind
  | cons c rest ih =>
    obtain ⟨a, b⟩ := c
    simp only [Memory.set]
    split
    · simp only [Memory.get]; grind
    · split
      · simp only [Memory.get]; grind
      · simp only [Memory.get, ih]; grind

@[simp] theorem Memory.get_set_same (m : Memory) (o : Nat) (v : Byte) :
    Memory.get (Memory.set m o v) o = some v := by simp [Memory.get_set]

theorem Memory.get_set_other (m : Memory) {o p : Nat} (v : Byte) (h : p ≠ o) :
    Memory.get (Memory.set m o v) p = Memory.get m p := by simp [Memory.get_set, h]

/-- The cells after a write: the written one, and cells that were there. -/
theorem Memory.mem_set {m : Memory} {o : Nat} {v : Byte} {c : Host.Cell} (h : c ∈ Memory.set m o v) :
    c = (o, v) ∨ c ∈ m := by
  induction m with
  | nil => simpa [Memory.set] using h
  | cons d rest ih =>
    obtain ⟨a, b⟩ := d
    simp only [Memory.set] at h
    split at h
    · simpa using h
    · split at h <;> grind

theorem Memory.wf_nil : Memory.wf [] := List.Pairwise.nil

/-- A write keeps the canonical form. -/
theorem Memory.wf_set {m : Memory} (h : Memory.wf m) (o : Nat) (v : Byte) : Memory.wf (Memory.set m o v) := by
  induction m with
  | nil => simp [Memory.set, Memory.wf]
  | cons d rest ih =>
    obtain ⟨a, b⟩ := d
    obtain ⟨hlt, hrest⟩ := List.pairwise_cons.mp h
    simp only [Memory.set]
    split
    · refine List.pairwise_cons.mpr ⟨fun c hc => ?_, h⟩
      rcases List.mem_cons.mp hc with rfl | hc
      · assumption
      · exact Nat.lt_trans ‹_› (hlt c hc)
    · split
      · exact List.pairwise_cons.mpr ⟨hlt, hrest⟩
      · refine List.pairwise_cons.mpr ⟨fun c hc => ?_, ih hrest⟩
        rcases Memory.mem_set hc with rfl | hc
        · simp only; omega
        · exact hlt c hc

theorem Memory.bound_set {m : Memory} {o n : Nat} {v : Byte} (h : ∀ c ∈ m, c.1 < n) (ho : o < n) :
    ∀ c ∈ Memory.set m o v, c.1 < n := fun c hc => by
  rcases Memory.mem_set hc with rfl | hc
  · exact ho
  · exact h c hc

/-- A byte after a store of several: the stored one inside, the old one outside. -/
theorem Memory.get_storeBytes (m : Memory) (o : Nat) (bs : List Byte) (p : Nat) :
    Memory.get (Memory.storeBytes m o bs) p = if o ≤ p ∧ p < o + bs.length then bs[p - o]? else Memory.get m p := by
  induction bs generalizing m o with
  | nil => simp [Memory.storeBytes]
  | cons b bs ih =>
    simp only [Memory.storeBytes, ih, Memory.get_set, List.length_cons]
    by_cases hp : p = o
    · subst hp; simp
    · by_cases hin : o + 1 ≤ p ∧ p < o + 1 + bs.length
      · have h2 : p - o = (p - (o + 1)) + 1 := by omega
        rw [if_pos hin, if_pos (by omega), h2, List.getElem?_cons_succ]
      · rw [if_neg hin, if_neg hp, if_neg (by omega)]

/-- Bytes outside a store are unchanged. -/
theorem Memory.get_storeBytes_outside (m : Memory) (o : Nat) (bs : List Byte) {p : Nat}
    (h : p < o ∨ o + bs.length ≤ p) : Memory.get (Memory.storeBytes m o bs) p = Memory.get m p := by
  rw [Memory.get_storeBytes, if_neg (by omega)]

/-- Bytes inside a store are the stored ones. -/
theorem Memory.get_storeBytes_inside (m : Memory) (o : Nat) (bs : List Byte) {j : Nat} (h : j < bs.length) :
    Memory.get (Memory.storeBytes m o bs) (o + j) = some bs[j] := by
  rw [Memory.get_storeBytes, if_pos (by omega)]
  simp [h]

/-- A store keeps the canonical form. -/
theorem Memory.wf_storeBytes {m : Memory} (h : Memory.wf m) (o : Nat) (bs : List Byte) :
    Memory.wf (Memory.storeBytes m o bs) := by
  induction bs generalizing m o with
  | nil => exact h
  | cons b bs ih => exact ih (Memory.wf_set h o b) (o + 1)

theorem Memory.bound_storeBytes {m : Memory} {o n : Nat} {bs : List Byte} (h : ∀ c ∈ m, c.1 < n)
    (ho : o + bs.length ≤ n) : ∀ c ∈ Memory.storeBytes m o bs, c.1 < n := by
  induction bs generalizing m o with
  | nil => exact h
  | cons b bs ih =>
    simp only [List.length_cons] at ho
    exact ih (Memory.bound_set h (by omega)) (by omega)

/-- Zeroing keeps the canonical form. -/
theorem Memory.wf_zeroFirst {m : Memory} (h : Memory.wf m) (n : Nat) : Memory.wf (Memory.zeroFirst m n) :=
  Memory.wf_storeBytes h _ _

theorem Memory.get_zeroFirst (m : Memory) (n p : Nat) :
    Memory.get (Memory.zeroFirst m n) p = if p < n then some 0 else Memory.get m p := by
  rw [Memory.zeroFirst, Memory.get_storeBytes]
  simp only [List.length_replicate]
  by_cases h : p < n
  · rw [if_pos (by omega), if_pos h]; simp [h]
  · rw [if_neg (by omega), if_neg h]

/-- No index of a canonical buffer's tail is listed below its head. -/
theorem Memory.get_eq_none_of_lt {m : Memory} {p : Nat} (h : ∀ c ∈ m, p < c.1) : Memory.get m p = none := by
  induction m with
  | nil => rfl
  | cons c rest ih =>
    have := h c (by simp)
    rw [Memory.get, if_neg (by omega)]
    exact ih fun d hd => h d (by simp [hd])

/-- Canonical buffers that read the same everywhere are the same list. -/
theorem Memory.ext_get {m n : Memory} (hm : Memory.wf m) (hn : Memory.wf n)
    (h : ∀ p, Memory.get m p = Memory.get n p) : m = n := by
  induction m generalizing n with
  | nil =>
    cases n with
    | nil => rfl
    | cons c rest => have := h c.1; simp [Memory.get, Memory.unlisted] at this
  | cons c rest ih =>
    obtain ⟨hc, hrest⟩ := List.pairwise_cons.mp hm
    cases n with
    | nil => have := h c.1; simp [Memory.get, Memory.unlisted] at this
    | cons d rest' =>
      obtain ⟨hd, hrest'⟩ := List.pairwise_cons.mp hn
      have key : c.1 = d.1 := by
        rcases Nat.lt_trichotomy c.1 d.1 with lt | eq | gt
        · have h1 := h c.1
          rw [Memory.get, if_pos rfl, Memory.get, if_neg (by omega),
            Memory.get_eq_none_of_lt fun e he => Nat.lt_trans lt (hd e he)] at h1
          simp at h1
        · exact eq
        · have h1 := h d.1
          rw [Memory.get, if_neg (by omega), Memory.get, if_pos rfl,
            Memory.get_eq_none_of_lt fun e he => Nat.lt_trans gt (hc e he)] at h1
          simp at h1
      have val : c.2 = d.2 := by
        have h1 := h c.1
        rw [Memory.get, if_pos rfl, Memory.get, if_pos key.symm] at h1
        exact Option.some.inj h1
      obtain ⟨a, b⟩ := c
      obtain ⟨a', b'⟩ := d
      simp only at key val
      subst key val
      congr 1
      refine ih hrest hrest' fun p => ?_
      by_cases hp : a = p
      · subst hp
        rw [Memory.get_eq_none_of_lt hc, Memory.get_eq_none_of_lt hd]
      · have h1 := h p
        rwa [Memory.get, if_neg hp, Memory.get, if_neg hp] at h1

/-! ### Loads -/

/-- A byte written since reset is read, and nothing is drawn. -/
theorem Memory.load1_written {m : Memory} {o d : Nat} {b : Byte} (h : Memory.get m o = some b) :
    Memory.load1 m o d = (b, d) := by simp [Memory.load1, h]

/-- A byte not written since reset is drawn. -/
theorem Memory.load1_unwritten {m : Memory} {o d : Nat} (h : Memory.get m o = none) :
    Memory.load1 m o d = (Config.bufInit d, d + 1) := by simp [Memory.load1, h]

@[simp] theorem Memory.loadBytes_length (m : Memory) (o n d : Nat) : (Memory.loadBytes m o n d).1.length = n := by
  induction n generalizing o d with
  | zero => rfl
  | succ n ih => simp [Memory.loadBytes, ih]

/-- Bytes written since reset are read as they stand, and nothing is drawn. -/
theorem Memory.loadBytes_written {m : Memory} {o d : Nat} {bs : List Byte}
    (h : ∀ j, (hj : j < bs.length) → Memory.get m (o + j) = some bs[j]) :
    Memory.loadBytes m o bs.length d = (bs, d) := by
  induction bs generalizing o with
  | nil => rfl
  | cons b bs ih =>
    have h0 := h 0 (by simp)
    simp only [Nat.add_zero, List.getElem_cons_zero] at h0
    have hrest : Memory.loadBytes m (o + 1) bs.length d = (bs, d) := ih fun j hj => by
      have := h (j + 1) (by simp [hj])
      rw [Nat.add_right_comm, Nat.add_assoc]
      simpa using this
    simp [Memory.loadBytes, Memory.load1_written h0, hrest]

/-- A word load is a load of its four bytes. -/
theorem Memory.loadWord_eq (m : Memory) (o d : Nat) :
    Memory.loadWord m o d = (leBytes (Memory.loadBytes m o 4 d).1, (Memory.loadBytes m o 4 d).2) := by
  simp only [Memory.loadWord, Memory.loadBytes, leBytes, le32, Prod.mk.injEq, and_true]
  ext i
  simp only [BitVec.getElem_or, BitVec.getElem_shiftLeft]
  grind

end Sys2Proof.Machine
end

