-- ==== Sys2Proof/Laws/PerInstr.lean ====
section
/-! SUPPORT. Statements about every instruction as syntax, one lemma per constructor.
Family EncodedLength: an instruction's encoding has four bytes at the command level and one at the selector level
(30_encoding.md R63, R64). -/

namespace Sys2Proof.Laws.EncodedLength

/-- The number of bytes of an encoding at a level. -/
def bytesOf : Level → Nat
  | .command => 4
  | .selector => 1

def Statement (i : Instr) : Prop := (encode i).length = bytesOf i.level

theorem encrypt (d : Word) : Statement (.encrypt d) := rfl
theorem decrypt (d : Word) : Statement (.decrypt d) := rfl
theorem setop (d : Word) : Statement (.setop d) := rfl
theorem idle (op : BitVec 1) : Statement (.idle op) := rfl
theorem check (op : BitVec 1) : Statement (.check op) := rfl
theorem keyload (op : BitVec 1) : Statement (.keyload op) := rfl
theorem nonce (op : BitVec 1) : Statement (.nonce op) := rfl
theorem adFull (op : BitVec 1) : Statement (.adFull op) := rfl
theorem adPart (op : BitVec 1) : Statement (.adPart op) := rfl
theorem msgFullEnc : Statement .msgFullEnc := rfl
theorem msgFullDec : Statement .msgFullDec := rfl
theorem msgPartEnc : Statement .msgPartEnc := rfl
theorem msgPartDec : Statement .msgPartDec := rfl
theorem fin1 (op : BitVec 1) : Statement (.fin1 op) := rfl
theorem fin2 (op : BitVec 1) : Statement (.fin2 op) := rfl
theorem finishEnc : Statement .finishEnc := rfl
theorem verifyDec : Statement .verifyDec := rfl

end Sys2Proof.Laws.EncodedLength
end

