-- ==== Sys2Proof/Laws/Platform.lean ====
section
/-! SUPPORT. Laws of the platform: the bases rise by at least an aperture, and everything a step of one instance does. -/

namespace Sys2Proof.Machine

/-- The aperture of an instance ends before that of any later one begins (20_memory.md R40). -/
theorem base_add_aperture_le {k j : Nat} (h : k < j) : Config.base k + Config.apertureBytes ≤ Config.base j := by
  have hu : ∀ n, Config.baseUnits k + 1 ≤ Config.baseUnits (k + 1 + n) := by
    intro n
    induction n with
    | zero => show _ ≤ Config.baseUnits k + 1 + _; omega
    | succ n ih => show _ ≤ Config.baseUnits (k + 1 + n) + 1 + _; omega
  have hj := hu (j - (k + 1))
  rw [show k + 1 + (j - (k + 1)) = j by omega] at hj
  have := Nat.mul_le_mul_right Config.apertureBytes hj
  simpa [Config.base, Nat.add_mul] using this

/-- Where an instance's step answers a next state, the platform's does, with that state in its place. -/
theorem Platform.onInstance_next {p : Platform} {k : Nat} {s t : State}
    {f : State → Host.Outcome State Fault Refusal} (hk : p.instances[k]? = some s)
    (hf : f { s with draws := p.draws } = .next t) : p.onInstance k f = .next ⟨p.instances.set k t, t.draws⟩ := by
  simp only [Platform.onInstance, hk, hf]

/-- A number past the last instance names no engine. -/
theorem Platform.onInstance_none {p : Platform} {k : Nat} {f : State → Host.Outcome State Fault Refusal}
    (hk : p.instances[k]? = none) : p.onInstance k f = .next p := by
  simp only [Platform.onInstance, hk]

/-- The access at an offset reads or writes there. -/
@[simp] theorem BusAccess.at_write (w : Width) (v : Word) (o : Nat) :
    (BusAccess.write w v).at o = .write (BitVec.ofNat 18 o) w v := rfl
@[simp] theorem BusAccess.at_read (w : Width) (o : Nat) : (BusAccess.read w).at o = .read (BitVec.ofNat 18 o) w := rfl

end Sys2Proof.Machine
end

