-- ==== Sys2Proof/Laws/State.lean ====
section
/-! SUPPORT. One lemma per field per named update of State, so that no proof unfolds a record update. -/

namespace Sys2Proof.Machine

/-! ### startTransaction -/

@[simp] theorem State.startTransaction_nfsr (s : State) (op : BitVec 1) : (s.startTransaction op).nfsr = s.nfsr := rfl
@[simp] theorem State.startTransaction_key (s : State) (op : BitVec 1) : (s.startTransaction op).key = s.key := rfl
@[simp] theorem State.startTransaction_nonce (s : State) (op : BitVec 1) :
    (s.startTransaction op).nonce = s.nonce := rfl
@[simp] theorem State.startTransaction_ctrlOp (s : State) (op : BitVec 1) : (s.startTransaction op).ctrlOp = op := rfl
@[simp] theorem State.startTransaction_status (s : State) (op : BitVec 1) :
    (s.startTransaction op).status = s.status.start := rfl
@[simp] theorem State.startTransaction_adLen (s : State) (op : BitVec 1) :
    (s.startTransaction op).adLen = s.adLen := rfl
@[simp] theorem State.startTransaction_inLen (s : State) (op : BitVec 1) :
    (s.startTransaction op).inLen = s.inLen := rfl
@[simp] theorem State.startTransaction_outLen (s : State) (op : BitVec 1) :
    (s.startTransaction op).outLen = s.outLen := rfl
@[simp] theorem State.startTransaction_ph (s : State) (op : BitVec 1) : (s.startTransaction op).ph = phCheck := rfl
@[simp] theorem State.startTransaction_nidx (s : State) (op : BitVec 1) : (s.startTransaction op).nidx = s.nidx := rfl
@[simp] theorem State.startTransaction_adp (s : State) (op : BitVec 1) : (s.startTransaction op).adp = s.adp := rfl
@[simp] theorem State.startTransaction_mp (s : State) (op : BitVec 1) : (s.startTransaction op).mp = s.mp := rfl
@[simp] theorem State.startTransaction_t0 (s : State) (op : BitVec 1) : (s.startTransaction op).t0 = s.t0 := rfl
@[simp] theorem State.startTransaction_t1 (s : State) (op : BitVec 1) : (s.startTransaction op).t1 = s.t1 := rfl
@[simp] theorem State.startTransaction_ab (s : State) (op : BitVec 1) : (s.startTransaction op).ab = s.ab := rfl
@[simp] theorem State.startTransaction_ib (s : State) (op : BitVec 1) : (s.startTransaction op).ib = s.ib := rfl
@[simp] theorem State.startTransaction_ob (s : State) (op : BitVec 1) : (s.startTransaction op).ob = s.ob := rfl
@[simp] theorem State.startTransaction_inputs (s : State) (op : BitVec 1) :
    (s.startTransaction op).inputs = s.inputs := rfl
@[simp] theorem State.startTransaction_sched (s : State) (op : BitVec 1) :
    (s.startTransaction op).sched = s.sched := rfl
@[simp] theorem State.startTransaction_observed (s : State) (op : BitVec 1) :
    (s.startTransaction op).observed = s.observed := rfl
@[simp] theorem State.startTransaction_draws (s : State) (op : BitVec 1) :
    (s.startTransaction op).draws = s.draws := rfl

/-! ### zeroize -/

@[simp] theorem State.zeroize_nfsr (s : State) : s.zeroize.nfsr = ⟨0, 0, 0, 0⟩ := rfl
@[simp] theorem State.zeroize_key (s : State) : s.zeroize.key = s.key := rfl
@[simp] theorem State.zeroize_nonce (s : State) : s.zeroize.nonce = s.nonce := rfl
@[simp] theorem State.zeroize_ctrlOp (s : State) : s.zeroize.ctrlOp = s.ctrlOp := rfl
@[simp] theorem State.zeroize_status (s : State) : s.zeroize.status = s.status := rfl
@[simp] theorem State.zeroize_adLen (s : State) : s.zeroize.adLen = s.adLen := rfl
@[simp] theorem State.zeroize_inLen (s : State) : s.zeroize.inLen = s.inLen := rfl
@[simp] theorem State.zeroize_outLen (s : State) : s.zeroize.outLen = s.outLen := rfl
@[simp] theorem State.zeroize_ph (s : State) : s.zeroize.ph = s.ph := rfl
@[simp] theorem State.zeroize_nidx (s : State) : s.zeroize.nidx = 0 := rfl
@[simp] theorem State.zeroize_adp (s : State) : s.zeroize.adp = 0 := rfl
@[simp] theorem State.zeroize_mp (s : State) : s.zeroize.mp = 0 := rfl
@[simp] theorem State.zeroize_t0 (s : State) : s.zeroize.t0 = 0 := rfl
@[simp] theorem State.zeroize_t1 (s : State) : s.zeroize.t1 = 0 := rfl
@[simp] theorem State.zeroize_ab (s : State) : s.zeroize.ab = s.ab := rfl
@[simp] theorem State.zeroize_ib (s : State) : s.zeroize.ib = s.ib := rfl
@[simp] theorem State.zeroize_ob (s : State) : s.zeroize.ob = s.ob := rfl
@[simp] theorem State.zeroize_inputs (s : State) : s.zeroize.inputs = s.inputs := rfl
@[simp] theorem State.zeroize_sched (s : State) : s.zeroize.sched = s.sched := rfl
@[simp] theorem State.zeroize_observed (s : State) : s.zeroize.observed = s.observed := rfl
@[simp] theorem State.zeroize_draws (s : State) : s.zeroize.draws = s.draws := rfl

/-! ### endTransaction -/

@[simp] theorem State.endTransaction_nfsr (s : State) (code : BitVec 3) : (s.endTransaction code).nfsr = s.nfsr := rfl
@[simp] theorem State.endTransaction_key (s : State) (code : BitVec 3) : (s.endTransaction code).key = s.key := rfl
@[simp] theorem State.endTransaction_nonce (s : State) (code : BitVec 3) :
    (s.endTransaction code).nonce = s.nonce := rfl
@[simp] theorem State.endTransaction_ctrlOp (s : State) (code : BitVec 3) :
    (s.endTransaction code).ctrlOp = s.ctrlOp := rfl
@[simp] theorem State.endTransaction_status (s : State) (code : BitVec 3) :
    (s.endTransaction code).status = s.status.complete code := rfl
@[simp] theorem State.endTransaction_adLen (s : State) (code : BitVec 3) :
    (s.endTransaction code).adLen = s.adLen := rfl
@[simp] theorem State.endTransaction_inLen (s : State) (code : BitVec 3) :
    (s.endTransaction code).inLen = s.inLen := rfl
@[simp] theorem State.endTransaction_outLen (s : State) (code : BitVec 3) :
    (s.endTransaction code).outLen = s.outLen := rfl
@[simp] theorem State.endTransaction_ph (s : State) (code : BitVec 3) : (s.endTransaction code).ph = phIdle := rfl
@[simp] theorem State.endTransaction_nidx (s : State) (code : BitVec 3) : (s.endTransaction code).nidx = s.nidx := rfl
@[simp] theorem State.endTransaction_adp (s : State) (code : BitVec 3) : (s.endTransaction code).adp = s.adp := rfl
@[simp] theorem State.endTransaction_mp (s : State) (code : BitVec 3) : (s.endTransaction code).mp = s.mp := rfl
@[simp] theorem State.endTransaction_t0 (s : State) (code : BitVec 3) : (s.endTransaction code).t0 = s.t0 := rfl
@[simp] theorem State.endTransaction_t1 (s : State) (code : BitVec 3) : (s.endTransaction code).t1 = s.t1 := rfl
@[simp] theorem State.endTransaction_ab (s : State) (code : BitVec 3) : (s.endTransaction code).ab = s.ab := rfl
@[simp] theorem State.endTransaction_ib (s : State) (code : BitVec 3) : (s.endTransaction code).ib = s.ib := rfl
@[simp] theorem State.endTransaction_ob (s : State) (code : BitVec 3) : (s.endTransaction code).ob = s.ob := rfl
@[simp] theorem State.endTransaction_inputs (s : State) (code : BitVec 3) :
    (s.endTransaction code).inputs = s.inputs := rfl
@[simp] theorem State.endTransaction_sched (s : State) (code : BitVec 3) :
    (s.endTransaction code).sched = s.sched := rfl
@[simp] theorem State.endTransaction_observed (s : State) (code : BitVec 3) :
    (s.endTransaction code).observed = s.observed := rfl
@[simp] theorem State.endTransaction_draws (s : State) (code : BitVec 3) :
    (s.endTransaction code).draws = s.draws := rfl

/-! ### completeErr -/

@[simp] theorem State.completeErr_nfsr (s : State) (code : BitVec 3) : (s.completeErr code).nfsr = s.nfsr := rfl
@[simp] theorem State.completeErr_key (s : State) (code : BitVec 3) : (s.completeErr code).key = s.key := rfl
@[simp] theorem State.completeErr_nonce (s : State) (code : BitVec 3) : (s.completeErr code).nonce = s.nonce := rfl
@[simp] theorem State.completeErr_ctrlOp (s : State) (code : BitVec 3) : (s.completeErr code).ctrlOp = s.ctrlOp := rfl
@[simp] theorem State.completeErr_status (s : State) (code : BitVec 3) :
    (s.completeErr code).status = s.status.complete code := rfl
@[simp] theorem State.completeErr_adLen (s : State) (code : BitVec 3) : (s.completeErr code).adLen = s.adLen := rfl
@[simp] theorem State.completeErr_inLen (s : State) (code : BitVec 3) : (s.completeErr code).inLen = s.inLen := rfl
@[simp] theorem State.completeErr_outLen (s : State) (code : BitVec 3) : (s.completeErr code).outLen = s.outLen := rfl
@[simp] theorem State.completeErr_ph (s : State) (code : BitVec 3) : (s.completeErr code).ph = phIdle := rfl
@[simp] theorem State.completeErr_nidx (s : State) (code : BitVec 3) : (s.completeErr code).nidx = s.nidx := rfl
@[simp] theorem State.completeErr_adp (s : State) (code : BitVec 3) : (s.completeErr code).adp = s.adp := rfl
@[simp] theorem State.completeErr_mp (s : State) (code : BitVec 3) : (s.completeErr code).mp = s.mp := rfl
@[simp] theorem State.completeErr_t0 (s : State) (code : BitVec 3) : (s.completeErr code).t0 = s.t0 := rfl
@[simp] theorem State.completeErr_t1 (s : State) (code : BitVec 3) : (s.completeErr code).t1 = s.t1 := rfl
@[simp] theorem State.completeErr_ab (s : State) (code : BitVec 3) : (s.completeErr code).ab = s.ab := rfl
@[simp] theorem State.completeErr_ib (s : State) (code : BitVec 3) : (s.completeErr code).ib = s.ib := rfl
@[simp] theorem State.completeErr_ob (s : State) (code : BitVec 3) : (s.completeErr code).ob = s.ob := rfl
@[simp] theorem State.completeErr_inputs (s : State) (code : BitVec 3) : (s.completeErr code).inputs = s.inputs := rfl
@[simp] theorem State.completeErr_sched (s : State) (code : BitVec 3) : (s.completeErr code).sched = s.sched := rfl
@[simp] theorem State.completeErr_observed (s : State) (code : BitVec 3) :
    (s.completeErr code).observed = s.observed := rfl
@[simp] theorem State.completeErr_draws (s : State) (code : BitVec 3) : (s.completeErr code).draws = s.draws := rfl

/-! ### completeOk -/

@[simp] theorem State.completeOk_nfsr (s : State) (n : Nat) : (s.completeOk n).nfsr = ⟨0, 0, 0, 0⟩ := rfl
@[simp] theorem State.completeOk_key (s : State) (n : Nat) : (s.completeOk n).key = s.key := rfl
@[simp] theorem State.completeOk_nonce (s : State) (n : Nat) : (s.completeOk n).nonce = s.nonce := rfl
@[simp] theorem State.completeOk_ctrlOp (s : State) (n : Nat) : (s.completeOk n).ctrlOp = s.ctrlOp := rfl
@[simp] theorem State.completeOk_status (s : State) (n : Nat) :
    (s.completeOk n).status = (s.status.withOutv true).complete errNone := rfl
@[simp] theorem State.completeOk_adLen (s : State) (n : Nat) : (s.completeOk n).adLen = s.adLen := rfl
@[simp] theorem State.completeOk_inLen (s : State) (n : Nat) : (s.completeOk n).inLen = s.inLen := rfl
@[simp] theorem State.completeOk_outLen (s : State) (n : Nat) : (s.completeOk n).outLen = BitVec.ofNat 32 n := rfl
@[simp] theorem State.completeOk_ph (s : State) (n : Nat) : (s.completeOk n).ph = phIdle := rfl
@[simp] theorem State.completeOk_nidx (s : State) (n : Nat) : (s.completeOk n).nidx = 0 := rfl
@[simp] theorem State.completeOk_adp (s : State) (n : Nat) : (s.completeOk n).adp = 0 := rfl
@[simp] theorem State.completeOk_mp (s : State) (n : Nat) : (s.completeOk n).mp = 0 := rfl
@[simp] theorem State.completeOk_t0 (s : State) (n : Nat) : (s.completeOk n).t0 = 0 := rfl
@[simp] theorem State.completeOk_t1 (s : State) (n : Nat) : (s.completeOk n).t1 = 0 := rfl
@[simp] theorem State.completeOk_ab (s : State) (n : Nat) : (s.completeOk n).ab = s.ab := rfl
@[simp] theorem State.completeOk_ib (s : State) (n : Nat) : (s.completeOk n).ib = s.ib := rfl
@[simp] theorem State.completeOk_ob (s : State) (n : Nat) : (s.completeOk n).ob = s.ob := rfl
@[simp] theorem State.completeOk_inputs (s : State) (n : Nat) : (s.completeOk n).inputs = s.inputs := rfl
@[simp] theorem State.completeOk_sched (s : State) (n : Nat) : (s.completeOk n).sched = s.sched := rfl
@[simp] theorem State.completeOk_observed (s : State) (n : Nat) : (s.completeOk n).observed = s.observed := rfl
@[simp] theorem State.completeOk_draws (s : State) (n : Nat) : (s.completeOk n).draws = s.draws := rfl

/-! ### completeAuthFail -/

@[simp] theorem State.completeAuthFail_nfsr (s : State) : s.completeAuthFail.nfsr = ⟨0, 0, 0, 0⟩ := rfl
@[simp] theorem State.completeAuthFail_key (s : State) : s.completeAuthFail.key = s.key := rfl
@[simp] theorem State.completeAuthFail_nonce (s : State) : s.completeAuthFail.nonce = s.nonce := rfl
@[simp] theorem State.completeAuthFail_ctrlOp (s : State) : s.completeAuthFail.ctrlOp = s.ctrlOp := rfl
@[simp] theorem State.completeAuthFail_status (s : State) :
    s.completeAuthFail.status = (s.status.withOutv false).complete errAuthFail := rfl
@[simp] theorem State.completeAuthFail_adLen (s : State) : s.completeAuthFail.adLen = s.adLen := rfl
@[simp] theorem State.completeAuthFail_inLen (s : State) : s.completeAuthFail.inLen = s.inLen := rfl
@[simp] theorem State.completeAuthFail_outLen (s : State) : s.completeAuthFail.outLen = 0 := rfl
@[simp] theorem State.completeAuthFail_ph (s : State) : s.completeAuthFail.ph = phIdle := rfl
@[simp] theorem State.completeAuthFail_nidx (s : State) : s.completeAuthFail.nidx = 0 := rfl
@[simp] theorem State.completeAuthFail_adp (s : State) : s.completeAuthFail.adp = 0 := rfl
@[simp] theorem State.completeAuthFail_mp (s : State) : s.completeAuthFail.mp = 0 := rfl
@[simp] theorem State.completeAuthFail_t0 (s : State) : s.completeAuthFail.t0 = 0 := rfl
@[simp] theorem State.completeAuthFail_t1 (s : State) : s.completeAuthFail.t1 = 0 := rfl
@[simp] theorem State.completeAuthFail_ab (s : State) : s.completeAuthFail.ab = s.ab := rfl
@[simp] theorem State.completeAuthFail_ib (s : State) : s.completeAuthFail.ib = s.ib := rfl
@[simp] theorem State.completeAuthFail_ob (s : State) : s.completeAuthFail.ob = s.ob := rfl
@[simp] theorem State.completeAuthFail_inputs (s : State) : s.completeAuthFail.inputs = s.inputs := rfl
@[simp] theorem State.completeAuthFail_sched (s : State) : s.completeAuthFail.sched = s.sched := rfl
@[simp] theorem State.completeAuthFail_observed (s : State) : s.completeAuthFail.observed = s.observed := rfl
@[simp] theorem State.completeAuthFail_draws (s : State) : s.completeAuthFail.draws = s.draws := rfl

/-! ### passCheck -/

@[simp] theorem State.passCheck_nfsr (s : State) : s.passCheck.nfsr = s.nfsr := rfl
@[simp] theorem State.passCheck_key (s : State) : s.passCheck.key = s.key := rfl
@[simp] theorem State.passCheck_nonce (s : State) : s.passCheck.nonce = s.nonce := rfl
@[simp] theorem State.passCheck_ctrlOp (s : State) : s.passCheck.ctrlOp = s.ctrlOp := rfl
@[simp] theorem State.passCheck_status (s : State) : s.passCheck.status = s.status.withOutv false := rfl
@[simp] theorem State.passCheck_adLen (s : State) : s.passCheck.adLen = s.adLen := rfl
@[simp] theorem State.passCheck_inLen (s : State) : s.passCheck.inLen = s.inLen := rfl
@[simp] theorem State.passCheck_outLen (s : State) : s.passCheck.outLen = 0 := rfl
@[simp] theorem State.passCheck_ph (s : State) : s.passCheck.ph = phKeyload := rfl
@[simp] theorem State.passCheck_nidx (s : State) : s.passCheck.nidx = 0 := rfl
@[simp] theorem State.passCheck_adp (s : State) : s.passCheck.adp = 0 := rfl
@[simp] theorem State.passCheck_mp (s : State) : s.passCheck.mp = 0 := rfl
@[simp] theorem State.passCheck_t0 (s : State) : s.passCheck.t0 = s.t0 := rfl
@[simp] theorem State.passCheck_t1 (s : State) : s.passCheck.t1 = s.t1 := rfl
@[simp] theorem State.passCheck_ab (s : State) : s.passCheck.ab = s.ab := rfl
@[simp] theorem State.passCheck_ib (s : State) : s.passCheck.ib = s.ib := rfl
@[simp] theorem State.passCheck_ob (s : State) : s.passCheck.ob = s.ob := rfl
@[simp] theorem State.passCheck_inputs (s : State) : s.passCheck.inputs = s.inputs := rfl
@[simp] theorem State.passCheck_sched (s : State) : s.passCheck.sched = s.sched := rfl
@[simp] theorem State.passCheck_observed (s : State) : s.passCheck.observed = s.observed := rfl
@[simp] theorem State.passCheck_draws (s : State) : s.passCheck.draws = s.draws := rfl

/-! ### enterNextInput -/

@[simp] theorem State.enterNextInput_nfsr (s : State) : s.enterNextInput.nfsr = s.nfsr := rfl
@[simp] theorem State.enterNextInput_key (s : State) : s.enterNextInput.key = s.key := rfl
@[simp] theorem State.enterNextInput_nonce (s : State) : s.enterNextInput.nonce = s.nonce := rfl
@[simp] theorem State.enterNextInput_ctrlOp (s : State) : s.enterNextInput.ctrlOp = s.ctrlOp := rfl
@[simp] theorem State.enterNextInput_status (s : State) : s.enterNextInput.status = s.status := rfl
@[simp] theorem State.enterNextInput_adLen (s : State) : s.enterNextInput.adLen = s.adLen := rfl
@[simp] theorem State.enterNextInput_inLen (s : State) : s.enterNextInput.inLen = s.inLen := rfl
@[simp] theorem State.enterNextInput_outLen (s : State) : s.enterNextInput.outLen = s.outLen := rfl
@[simp] theorem State.enterNextInput_ph (s : State) : s.enterNextInput.ph = s.nextInput := rfl
@[simp] theorem State.enterNextInput_nidx (s : State) : s.enterNextInput.nidx = s.nidx := rfl
@[simp] theorem State.enterNextInput_adp (s : State) : s.enterNextInput.adp = s.adp := rfl
@[simp] theorem State.enterNextInput_mp (s : State) : s.enterNextInput.mp = s.mp := rfl
@[simp] theorem State.enterNextInput_t0 (s : State) : s.enterNextInput.t0 = s.t0 := rfl
@[simp] theorem State.enterNextInput_t1 (s : State) : s.enterNextInput.t1 = s.t1 := rfl
@[simp] theorem State.enterNextInput_ab (s : State) : s.enterNextInput.ab = s.ab := rfl
@[simp] theorem State.enterNextInput_ib (s : State) : s.enterNextInput.ib = s.ib := rfl
@[simp] theorem State.enterNextInput_ob (s : State) : s.enterNextInput.ob = s.ob := rfl
@[simp] theorem State.enterNextInput_inputs (s : State) : s.enterNextInput.inputs = s.inputs := rfl
@[simp] theorem State.enterNextInput_sched (s : State) : s.enterNextInput.sched = s.sched := rfl
@[simp] theorem State.enterNextInput_observed (s : State) : s.enterNextInput.observed = s.observed := rfl
@[simp] theorem State.enterNextInput_draws (s : State) : s.enterNextInput.draws = s.draws := rfl

/-! ### observe -/

@[simp] theorem State.observe_nfsr (s : State) (r : Word × Nat) : (s.observe r).nfsr = s.nfsr := rfl
@[simp] theorem State.observe_key (s : State) (r : Word × Nat) : (s.observe r).key = s.key := rfl
@[simp] theorem State.observe_nonce (s : State) (r : Word × Nat) : (s.observe r).nonce = s.nonce := rfl
@[simp] theorem State.observe_ctrlOp (s : State) (r : Word × Nat) : (s.observe r).ctrlOp = s.ctrlOp := rfl
@[simp] theorem State.observe_status (s : State) (r : Word × Nat) : (s.observe r).status = s.status := rfl
@[simp] theorem State.observe_adLen (s : State) (r : Word × Nat) : (s.observe r).adLen = s.adLen := rfl
@[simp] theorem State.observe_inLen (s : State) (r : Word × Nat) : (s.observe r).inLen = s.inLen := rfl
@[simp] theorem State.observe_outLen (s : State) (r : Word × Nat) : (s.observe r).outLen = s.outLen := rfl
@[simp] theorem State.observe_ph (s : State) (r : Word × Nat) : (s.observe r).ph = s.ph := rfl
@[simp] theorem State.observe_nidx (s : State) (r : Word × Nat) : (s.observe r).nidx = s.nidx := rfl
@[simp] theorem State.observe_adp (s : State) (r : Word × Nat) : (s.observe r).adp = s.adp := rfl
@[simp] theorem State.observe_mp (s : State) (r : Word × Nat) : (s.observe r).mp = s.mp := rfl
@[simp] theorem State.observe_t0 (s : State) (r : Word × Nat) : (s.observe r).t0 = s.t0 := rfl
@[simp] theorem State.observe_t1 (s : State) (r : Word × Nat) : (s.observe r).t1 = s.t1 := rfl
@[simp] theorem State.observe_ab (s : State) (r : Word × Nat) : (s.observe r).ab = s.ab := rfl
@[simp] theorem State.observe_ib (s : State) (r : Word × Nat) : (s.observe r).ib = s.ib := rfl
@[simp] theorem State.observe_ob (s : State) (r : Word × Nat) : (s.observe r).ob = s.ob := rfl
@[simp] theorem State.observe_inputs (s : State) (r : Word × Nat) : (s.observe r).inputs = s.inputs := rfl
@[simp] theorem State.observe_sched (s : State) (r : Word × Nat) : (s.observe r).sched = s.sched := rfl
@[simp] theorem State.observe_observed (s : State) (r : Word × Nat) :
    (s.observe r).observed = r.1 :: s.observed := rfl
@[simp] theorem State.observe_draws (s : State) (r : Word × Nat) : (s.observe r).draws = r.2 := rfl

/-! ### resetAction -/

@[simp] theorem State.resetAction_nfsr (s : State) : s.resetAction.nfsr = State.reset.nfsr := rfl
@[simp] theorem State.resetAction_key (s : State) : s.resetAction.key = State.reset.key := rfl
@[simp] theorem State.resetAction_nonce (s : State) : s.resetAction.nonce = State.reset.nonce := rfl
@[simp] theorem State.resetAction_ctrlOp (s : State) : s.resetAction.ctrlOp = State.reset.ctrlOp := rfl
@[simp] theorem State.resetAction_status (s : State) : s.resetAction.status = State.reset.status := rfl
@[simp] theorem State.resetAction_adLen (s : State) : s.resetAction.adLen = State.reset.adLen := rfl
@[simp] theorem State.resetAction_inLen (s : State) : s.resetAction.inLen = State.reset.inLen := rfl
@[simp] theorem State.resetAction_outLen (s : State) : s.resetAction.outLen = State.reset.outLen := rfl
@[simp] theorem State.resetAction_ph (s : State) : s.resetAction.ph = State.reset.ph := rfl
@[simp] theorem State.resetAction_nidx (s : State) : s.resetAction.nidx = State.reset.nidx := rfl
@[simp] theorem State.resetAction_adp (s : State) : s.resetAction.adp = State.reset.adp := rfl
@[simp] theorem State.resetAction_mp (s : State) : s.resetAction.mp = State.reset.mp := rfl
@[simp] theorem State.resetAction_t0 (s : State) : s.resetAction.t0 = State.reset.t0 := rfl
@[simp] theorem State.resetAction_t1 (s : State) : s.resetAction.t1 = State.reset.t1 := rfl
@[simp] theorem State.resetAction_ab (s : State) : s.resetAction.ab = State.reset.ab := rfl
@[simp] theorem State.resetAction_ib (s : State) : s.resetAction.ib = State.reset.ib := rfl
@[simp] theorem State.resetAction_ob (s : State) : s.resetAction.ob = State.reset.ob := rfl
@[simp] theorem State.resetAction_inputs (s : State) : s.resetAction.inputs = s.inputs := rfl
@[simp] theorem State.resetAction_sched (s : State) : s.resetAction.sched = s.sched := rfl
@[simp] theorem State.resetAction_observed (s : State) : s.resetAction.observed = s.observed := rfl
@[simp] theorem State.resetAction_draws (s : State) : s.resetAction.draws = s.draws := rfl

/-! ### Status -/

@[simp] theorem Status.start_busy (f : Status) : f.start.busy = true := rfl
@[simp] theorem Status.start_done (f : Status) : f.start.done = false := rfl
@[simp] theorem Status.start_outv (f : Status) : f.start.outv = f.outv := rfl
@[simp] theorem Status.start_err (f : Status) : f.start.err = errNone := rfl
@[simp] theorem Status.complete_busy (f : Status) (code : BitVec 3) : (f.complete code).busy = false := rfl
@[simp] theorem Status.complete_done (f : Status) (code : BitVec 3) : (f.complete code).done = true := rfl
@[simp] theorem Status.complete_outv (f : Status) (code : BitVec 3) : (f.complete code).outv = f.outv := rfl
@[simp] theorem Status.complete_err (f : Status) (code : BitVec 3) : (f.complete code).err = code := rfl
@[simp] theorem Status.withOutv_busy (f : Status) (v : Bool) : (f.withOutv v).busy = f.busy := rfl
@[simp] theorem Status.withOutv_done (f : Status) (v : Bool) : (f.withOutv v).done = f.done := rfl
@[simp] theorem Status.withOutv_outv (f : Status) (v : Bool) : (f.withOutv v).outv = v := rfl
@[simp] theorem Status.withOutv_err (f : Status) (v : Bool) : (f.withOutv v).err = f.err := rfl

/-! ### The NFSR -/

@[simp] theorem Nfsr.absorbWord_s0 (s : Nfsr) (x : Word) : (s.absorbWord x).s0 = s.s0 := rfl
@[simp] theorem Nfsr.absorbWord_s1 (s : Nfsr) (x : Word) : (s.absorbWord x).s1 = s.s1 := rfl
@[simp] theorem Nfsr.absorbWord_s2 (s : Nfsr) (x : Word) : (s.absorbWord x).s2 = s.s2 := rfl
@[simp] theorem Nfsr.absorbWord_s3 (s : Nfsr) (x : Word) : (s.absorbWord x).s3 = s.s3 ^^^ x := rfl
@[simp] theorem Nfsr.xorWord1_s0 (s : Nfsr) (v : Word) : (s.xorWord1 v).s0 = s.s0 := rfl
@[simp] theorem Nfsr.xorWord1_s1 (s : Nfsr) (v : Word) : (s.xorWord1 v).s1 = s.s1 ^^^ v := rfl
@[simp] theorem Nfsr.xorWord1_s2 (s : Nfsr) (v : Word) : (s.xorWord1 v).s2 = s.s2 := rfl
@[simp] theorem Nfsr.xorWord1_s3 (s : Nfsr) (v : Word) : (s.xorWord1 v).s3 = s.s3 := rfl

end Sys2Proof.Machine
end

