-- ==== Sys2Proof/Laws/Step.lean ====
section
/-! SUPPORT. What a step can do, said once: which agent moves, what each meaning answers, and what no instruction ever
changes. -/

namespace Sys2Proof.Machine

/-! ### What each meaning answers -/

theorem execNonce_next {s t : State} (h : execNonce s = .next t) :
    ∃ w, s.nonceWord = some w ∧
      t = (let u := { s with nfsr := (tagShort s.nfsr s.key Config.fbNonce).absorbWord w, nidx := s.nidx + 1 }
        if u.nidx = 3 then u.enterNextInput else { u with ph := phNonce }) := by
  unfold execNonce at h
  split at h
  · cases h
  · cases h; exact ⟨_, ‹_›, rfl⟩

theorem execAdFull_next {s t : State} (h : execAdFull s = .next t) :
    s.adp + 4 ≤ s.adLen.toNat ∧
      t = ({ s with
        nfsr := (tagShort s.nfsr s.key Config.fbAd).absorbWord s.adWord.1
        adp := s.adp + 4
        draws := s.adWord.2 }).enterNextInput := by
  unfold execAdFull at h
  split at h
  · cases h; exact ⟨‹_›, rfl⟩
  · cases h

theorem execAdPart_next {s t : State} (h : execAdPart s = .next t) :
    (1 ≤ s.adRest ∧ s.adRest ≤ 3) ∧
      t = ({ s with
        nfsr := (absorbBytes (tagShort s.nfsr s.key Config.fbAd) 0 s.adChunk.1).xorWord1 (BitVec.ofNat 32 s.adRest)
        adp := s.adLen.toNat
        draws := s.adChunk.2 }).enterNextInput := by
  unfold execAdPart at h
  split at h
  · cases h; exact ⟨‹_›, rfl⟩
  · cases h

theorem execMsgFullEnc_next {s t : State} (h : execMsgFullEnc s = .next t) :
    s.mp + 4 ≤ s.ml ∧
      t = (let n := tagLong s.nfsr s.key Config.fbMsg
        { s with
          nfsr := n.absorbWord s.msgWord.1
          ob := Memory.storeBytes s.ob s.mp (st32 (n.s2 ^^^ s.msgWord.1))
          mp := s.mp + 4
          draws := s.msgWord.2 }).enterNextInput := by
  unfold execMsgFullEnc at h
  split at h
  · cases h; exact ⟨‹_›, rfl⟩
  · cases h

theorem execMsgFullDec_next {s t : State} (h : execMsgFullDec s = .next t) :
    s.mp + 4 ≤ s.ml ∧
      t = (let n := tagLong s.nfsr s.key Config.fbMsg
        { s with
          nfsr := n.absorbWord (n.s2 ^^^ s.msgWord.1)
          ob := Memory.storeBytes s.ob s.mp (st32 (n.s2 ^^^ s.msgWord.1))
          mp := s.mp + 4
          draws := s.msgWord.2 }).enterNextInput := by
  unfold execMsgFullDec at h
  split at h
  · cases h; exact ⟨‹_›, rfl⟩
  · cases h

theorem execMsgPartEnc_next {s t : State} (h : execMsgPartEnc s = .next t) :
    (1 ≤ s.msgRest ∧ s.msgRest ≤ 3) ∧
      t = (let r := encryptBytes (tagLong s.nfsr s.key Config.fbMsg) 0 s.msgChunk.1
        { s with
          nfsr := r.1.xorWord1 (BitVec.ofNat 32 s.msgRest)
          ob := Memory.storeBytes s.ob s.mp r.2
          mp := s.ml
          draws := s.msgChunk.2 }).enterNextInput := by
  unfold execMsgPartEnc at h
  split at h
  · cases h; exact ⟨‹_›, rfl⟩
  · cases h

theorem execMsgPartDec_next {s t : State} (h : execMsgPartDec s = .next t) :
    (1 ≤ s.msgRest ∧ s.msgRest ≤ 3) ∧
      t = (let r := decryptBytes (tagLong s.nfsr s.key Config.fbMsg) 0 s.msgChunk.1
        { s with
          nfsr := r.1.xorWord1 (BitVec.ofNat 32 s.msgRest)
          ob := Memory.storeBytes s.ob s.mp r.2
          mp := s.ml
          draws := s.msgChunk.2 }).enterNextInput := by
  unfold execMsgPartDec at h
  split at h
  · cases h; exact ⟨‹_›, rfl⟩
  · cases h

/-- What no instruction changes: the key, the nonce, the lengths the host wrote, the two input buffers, and the world
outside. -/
structure SameInputs (s t : State) : Prop where
  key : t.key = s.key
  nonce : t.nonce = s.nonce
  adLen : t.adLen = s.adLen
  inLen : t.inLen = s.inLen
  ab : t.ab = s.ab
  ib : t.ib = s.ib
  inputs : t.inputs = s.inputs
  sched : t.sched = s.sched
  observed : t.observed = s.observed

theorem exec_sameInputs {i : Instr} {s t : State} (h : exec i s = .next t) : SameInputs s t := by
  cases i
  case encrypt =>
    simp only [exec, execEncrypt, Host.Outcome.next.injEq] at h
    subst h; split <;> constructor <;> rfl
  case decrypt =>
    simp only [exec, execDecrypt, Host.Outcome.next.injEq] at h
    subst h; split <;> constructor <;> rfl
  case setop =>
    simp only [exec, execSetop, Host.Outcome.next.injEq] at h
    subst h; split <;> constructor <;> rfl
  case check =>
    simp only [exec, execCheck, Host.Outcome.next.injEq] at h
    subst h; split
    · constructor <;> rfl
    · split <;> constructor <;> rfl
  case nonce =>
    obtain ⟨w, -, rfl⟩ := execNonce_next h
    dsimp only
    split <;> constructor <;> rfl
  case adFull => obtain ⟨-, rfl⟩ := execAdFull_next h; constructor <;> rfl
  case adPart => obtain ⟨-, rfl⟩ := execAdPart_next h; constructor <;> rfl
  case msgFullEnc => obtain ⟨-, rfl⟩ := execMsgFullEnc_next h; constructor <;> rfl
  case msgFullDec => obtain ⟨-, rfl⟩ := execMsgFullDec_next h; constructor <;> rfl
  case msgPartEnc => obtain ⟨-, rfl⟩ := execMsgPartEnc_next h; constructor <;> rfl
  case msgPartDec => obtain ⟨-, rfl⟩ := execMsgPartDec_next h; constructor <;> rfl
  case verifyDec =>
    simp only [exec, execVerifyDec, Host.Outcome.next.injEq] at h
    subst h; split <;> constructor <;> rfl
  all_goals
    cases h; constructor <;> rfl

/-! ### Who moves -/

theorem turn_of_noInputs {s : State} (h : s.inputs = []) : s.turn = (.engine, s.sched) := by
  simp [State.turn, h]

theorem turn_of_idle {s : State} (hi : s.inputs ≠ []) (hp : s.ph = phIdle) : s.turn = (.host, s.sched) := by
  simp [State.turn, hi, hp]

theorem turn_of_race {s : State} (hi : s.inputs ≠ []) (hp : s.ph ≠ phIdle) :
    s.turn = match s.sched with
      | [] => (.engine, [])
      | a :: rest => (a, rest) :=
  (if_neg hi).trans ((if_neg hp).trans (by cases s.sched <;> rfl))

/-- Everything a step can do: a state fault is absent, and the agent whose turn it is moves. -/
theorem step_cases {s t : State} (h : step s = .next t) :
    s.badState = none ∧
      ((∃ sched, s.turn = (.host, sched) ∧ hostStep { s with sched := sched } = .next t) ∨
       (∃ sched, s.turn = (.engine, sched) ∧ engineStep { s with sched := sched } = .next t)) := by
  unfold step agentStep at h
  split at h
  · cases h
  · refine ⟨‹_›, ?_⟩
    split at h
    · exact .inl ⟨_, ‹_›, h⟩
    · exact .inr ⟨_, ‹_›, h⟩

/-- A good state has PH in 0..10 and ERR in 0..3. -/
theorem badState_eq_none {s : State} : s.badState = none ↔ s.ph.toNat ≤ 10 ∧ s.status.err.toNat ≤ 3 := by
  unfold State.badState
  split
  · simp; omega
  · split <;> simp <;> omega

/-- An engine step is the meaning of the selected micro-operation. -/
theorem engineStep_next {s t : State} (h : engineStep s = .next t) : ∃ i, s.fetch = .ok i ∧ exec i s = .next t := by
  unfold engineStep at h
  split at h
  · exact ⟨_, ‹_›, h⟩
  · cases h

/-! ### The selector -/

@[simp] theorem selectorOp_selectorOf (op : BitVec 1) (ph : BitVec 4) : selectorOp (selectorOf op ph) = op := by
  revert op ph; decide

@[simp] theorem selectorPhase_selectorOf (op : BitVec 1) (ph : BitVec 4) :
    selectorPhase (selectorOf op ph) = ph := by
  revert op ph; decide

/-- The selector byte decodes as its selector does. -/
theorem decodeBytes_selectorByte (sel : BitVec 5) : decodeBytes .selector (selectorByte sel) = decodeSelector sel := by
  revert sel; decide

/-- The micro-operation fetched is the one of CTRL.OP and PH. -/
theorem fetch_eq (s : State) : s.fetch = decodeSelector (selectorOf s.ctrlOp s.ph) :=
  decodeBytes_selectorByte _

theorem bit_eq_zero_or_one (op : BitVec 1) : op = 0 ∨ op = 1 := by revert op; decide

/-- Which micro-operation is fetched, by PH and CTRL.OP (30_encoding.md R65). -/
theorem fetch_cases {s : State} {i : Instr} (h : s.fetch = .ok i) :
    (s.ph = phIdle ∧ i = .idle s.ctrlOp) ∨ (s.ph = phCheck ∧ i = .check s.ctrlOp) ∨
    (s.ph = phKeyload ∧ i = .keyload s.ctrlOp) ∨ (s.ph = phNonce ∧ i = .nonce s.ctrlOp) ∨
    (s.ph = phAdFull ∧ i = .adFull s.ctrlOp) ∨ (s.ph = phAdPart ∧ i = .adPart s.ctrlOp) ∨
    (s.ph = phMsgFull ∧ s.ctrlOp = 0 ∧ i = .msgFullEnc) ∨ (s.ph = phMsgFull ∧ s.ctrlOp = 1 ∧ i = .msgFullDec) ∨
    (s.ph = phMsgPart ∧ s.ctrlOp = 0 ∧ i = .msgPartEnc) ∨ (s.ph = phMsgPart ∧ s.ctrlOp = 1 ∧ i = .msgPartDec) ∨
    (s.ph = phFin1 ∧ i = .fin1 s.ctrlOp) ∨ (s.ph = phFin2 ∧ i = .fin2 s.ctrlOp) ∨
    (s.ph = phFinish ∧ s.ctrlOp = 0 ∧ i = .finishEnc) ∨ (s.ph = phFinish ∧ s.ctrlOp = 1 ∧ i = .verifyDec) := by
  rw [fetch_eq] at h
  unfold decodeSelector at h
  simp only [selectorPhase_selectorOf, selectorOp_selectorOf] at h
  have ho := bit_eq_zero_or_one s.ctrlOp
  split at h
  all_goals try cases h
  all_goals
    have hp : s.ph = BitVec.ofNat 4 s.ph.toNat := by simp
    rename_i hn
    rw [hn] at hp
    rcases ho with ho | ho <;> simp [hp, ho]

/-- The condition of CT_SHORT (44_sequencer_and_commands.md R103). -/
theorem ctShort_iff (s : State) : s.ctShort = true ↔ s.ctrlOp = 1 ∧ s.inLen.toNat < Config.tagLen := by
  rw [State.ctShort, Bool.and_eq_true, beq_iff_eq, decide_eq_true_iff]

/-- The condition of CAPACITY (44_sequencer_and_commands.md R103). -/
theorem overCapacity_iff (s : State) :
    s.overCapacity = true ↔ Config.adCap < s.adLen.toNat ∨ Config.inCap < s.inLen.toNat := by
  rw [State.overCapacity, Bool.or_eq_true, decide_eq_true_iff, decide_eq_true_iff]

/-- What a window byte write can do: nothing, one byte of AB, or one byte of IB (20_memory.md R43). -/
theorem writeWindowByte_cases (s : State) (a : Nat) (b : Byte) :
    writeWindowByte s a b = s ∨
    (∃ o, o < Config.adCap ∧ writeWindowByte s a b = { s with ab := Memory.set s.ab o b }) ∨
    (∃ o, o < Config.inCap ∧ writeWindowByte s a b = { s with ib := Memory.set s.ib o b }) := by
  unfold writeWindowByte
  split
  · split
    · exact .inr (.inl ⟨_, ‹_›, rfl⟩)
    · exact .inl rfl
  · split
    · exact .inr (.inr ⟨_, ‹_›, rfl⟩)
    · exact .inl rfl
  · exact .inl rfl

end Sys2Proof.Machine
end

