-- ==== Sys2Proof/Tests/Slice0.lean ====
section
/-! SUPPORT. The model's own tests: well-formedness, decoding, one step of each instruction on values of
95_test_vectors.md, and for every statement with hypotheses a witness that meets them. -/

open Sys2Proof Sys2Proof.Machine

namespace Sys2Proof.Tests

/-! ### Helpers -/

/-- The next state of an outcome. -/
def nextOf (o : Host.Outcome State Fault Refusal) : Option State :=
  match o with
  | .next s => some s
  | _ => none

/-- The fault of an outcome. -/
def faultOf (o : Host.Outcome State Fault Refusal) : Option Fault :=
  match o with
  | .fault f => some f
  | _ => none

/-- K1 and N1, the worked key and nonce of 95_test_vectors.md. -/
def k1 : Key := ⟨0x03020100, 0x07060504, 0x0B0A0908, 0x0F0E0D0C⟩
def n1 : Nonce := ⟨0x03020100, 0x07060504, 0x0B0A0908⟩

/-- S_init of K1 and N1 (95_test_vectors.md 1.2). -/
def sInit : Nfsr := ⟨0x3BB5FB13, 0x47513140, 0xE8E8532B, 0xE9AE2FB3⟩

/-- A running transaction under K1 and N1 at a phase, with a register, a direction and its lengths. -/
def running (ph : BitVec 4) (op : BitVec 1) (s : Nfsr) (adLen inLen : Word) : State :=
  { State.reset with
    key := k1, nonce := n1, ph := ph, ctrlOp := op, nfsr := s, adLen := adLen, inLen := inLen
    status := ⟨true, false, false, 0⟩ }

/-! ### Well-formedness: each check refuses an ill-formed term -/

theorem test_wf_encrypt : Instr.wf (.encrypt 0x3) = false ∧ Instr.wf (.encrypt 0x80000005) = true := by decide
theorem test_wf_decrypt : Instr.wf (.decrypt 0x1) = false ∧ Instr.wf (.decrypt 0x7FFFFFFF) = true := by decide
theorem test_wf_setop : Instr.wf (.setop 0x1) = false ∧ Instr.wf (.setop 0xFFFFFFFE) = true := by decide

/-! ### Decoding, each constructor by a word of its row (30_encoding.md R61, R65; 95_test_vectors.md 2.6) -/

theorem test_decode_encrypt : decodeBytes .command [0x05, 0x00, 0x00, 0x80] = .ok (.encrypt 0x80000005) := by decide
theorem test_decode_decrypt : decodeBytes .command [0xFF, 0xFF, 0xFF, 0x7F] = .ok (.decrypt 0x7FFFFFFF) := by decide
theorem test_decode_setop : decodeBytes .command [0x02, 0x00, 0x00, 0x00] = .ok (.setop 0x00000002) := by decide
theorem test_decode_command_length : decodeBytes .command [0x01, 0x00] = .error .wrongLength := by decide
theorem test_decode_idle : decodeBytes .selector [0b00010000] = .ok (.idle 1) := by decide
theorem test_decode_check : decodeBytes .selector [0b00000001] = .ok (.check 0) := by decide
theorem test_decode_keyload : decodeBytes .selector [0b00010010] = .ok (.keyload 1) := by decide
theorem test_decode_nonce : decodeBytes .selector [0b00000011] = .ok (.nonce 0) := by decide
theorem test_decode_adFull : decodeBytes .selector [0b00010100] = .ok (.adFull 1) := by decide
theorem test_decode_adPart : decodeBytes .selector [0b00000101] = .ok (.adPart 0) := by decide
theorem test_decode_msgFullEnc : decodeBytes .selector [0b00000110] = .ok .msgFullEnc := by decide
theorem test_decode_msgFullDec : decodeBytes .selector [0b00010110] = .ok .msgFullDec := by decide
theorem test_decode_msgPartEnc : decodeBytes .selector [0b00000111] = .ok .msgPartEnc := by decide
theorem test_decode_msgPartDec : decodeBytes .selector [0b00010111] = .ok .msgPartDec := by decide
theorem test_decode_fin1 : decodeBytes .selector [0b00001000] = .ok (.fin1 0) := by decide
theorem test_decode_fin2 : decodeBytes .selector [0b00011001] = .ok (.fin2 1) := by decide
theorem test_decode_finishEnc : decodeBytes .selector [0b00001010] = .ok .finishEnc := by decide
theorem test_decode_verifyDec : decodeBytes .selector [0b00011010] = .ok .verifyDec := by decide
theorem test_decode_unreachable : decodeBytes .selector [0b00011011] = .error .unreachablePhase := by decide
theorem test_decode_not_a_selector : decodeBytes .selector [0b00100001] = .error .notASelector := by decide
theorem test_table_word : decodeTableWord 32 0x1 = some (.encrypt 0x1) ∧ decodeTableWord 8 0x1 = some (.check 0) := by
  decide

/-! ### The Register Engine (95_test_vectors.md 2.1) -/

theorem test_batch_tap1 : batch ⟨0, 0x00008000, 0, 0⟩ ⟨0, 0, 0, 0⟩ 0 = ⟨0x00008000, 0, 0, 0xFFFFFFFE⟩ := by decide
theorem test_batch_key1 : batch ⟨0x11111111, 0x22222222, 0x33333333, 0x44444444⟩ k1 1 =
    ⟨0x22222222, 0x33333333, 0x44444444, 0x070627A0⟩ := by decide
theorem test_advance_128 : advance ⟨0, 0, 0, 0⟩ k1 128 =
    some ⟨0xFCFDFEFF, 0x8B46251B, 0x40EF826B, 0x8B375E69⟩ := by decide
theorem test_advance_refused : advance ⟨0, 0, 0, 0⟩ k1 33 = none := by decide
theorem test_advance_short : advanceShort ⟨0, 0, 0, 0⟩ k1 = ⟨0xC8F4465D, 0xDB809A68, 0x2F65BBF2, 0xB505CBD1⟩ := by
  decide

/-! ### One step of each instruction -/

/-- 95_test_vectors.md 2.6, row 1. -/
theorem test_encrypt : (nextOf (exec (.encrypt 0x1) State.reset)).map
    (fun t => (t.status.toWord, t.ph, ctrlWord t.ctrlOp)) = some (0x1, phCheck, 0x0) := by decide
/-- 95_test_vectors.md 2.6: ignored while BUSY = 1. -/
theorem test_encrypt_busy : nextOf (exec (.encrypt 0x1) (running phNonce 1 sInit 0 8)) =
    some (running phNonce 1 sInit 0 8) := by decide
/-- 44_sequencer_and_commands.md R101, example. -/
theorem test_decrypt : (nextOf (exec (.decrypt 0x3) State.reset)).map
    (fun t => (t.status.toWord, ctrlWord t.ctrlOp)) = some (0x1, 0x2) := by decide
/-- 95_test_vectors.md 2.6, the two SETOP rows. -/
theorem test_setop : (nextOf (exec (.setop 0x2) State.reset)).map (fun t => ctrlWord t.ctrlOp) = some 0x2 := by decide
theorem test_setop_reserved : (nextOf (exec (.setop 0xFFFFFFFC) { State.reset with ctrlOp := 1 })).map
    (fun t => (ctrlWord t.ctrlOp, t.status.toWord)) = some (0x0, 0x0) := by decide
theorem test_idle : nextOf (exec (.idle 0) State.reset) = some State.reset := by decide
/-- 95_test_vectors.md 2.6: the old output stays readable after CT_SHORT. -/
theorem test_check_ct_short : (nextOf (exec (.check 1)
    { running phCheck 1 ⟨0, 0, 0, 0⟩ 0 7 with outLen := 13, status := ⟨true, false, true, 0⟩ })).map
    (fun t => (t.status.toWord, t.outLen, t.ph)) = some (0x16, 13, phIdle) := by decide
/-- 95_test_vectors.md 2.6: AD_LEN = 0x10001 is past every AD_CAP. -/
theorem test_check_capacity : (nextOf (exec (.check 0)
    { running phCheck 0 ⟨0, 0, 0, 0⟩ 0x10001 5 with status := ⟨true, false, true, 0⟩ })).map
    (fun t => t.status.toWord) = some 0x26 := by
  have h : Config.adCap < 0x10001 := Config.adCapParam.isLt
  have hc : ({ running phCheck 0 ⟨0, 0, 0, 0⟩ 0x10001 5 with
      status := ⟨true, false, true, 0⟩ } : State).overCapacity = true := (overCapacity_iff _).2 (.inl h)
  simp only [exec, execCheck, hc, if_true]
  decide
/-- 95_test_vectors.md 1.2. -/
theorem test_keyload : (nextOf (exec (.keyload 0) (running phKeyload 0 ⟨0, 0, 0, 0⟩ 0 5))).map
    (fun t => (t.nfsr, t.ph)) = some (⟨0xAF54E6C6, 0xAE41B8C2, 0xF8BB67FF, 0xB8139077⟩, phNonce) := by decide
/-- 95_test_vectors.md 1.2: the first nonce word. -/
theorem test_nonce : (nextOf (exec (.nonce 0)
    (running phNonce 0 ⟨0xAF54E6C6, 0xAE41B8C2, 0xF8BB67FF, 0xB8139077⟩ 0 5))).map
    (fun t => (t.nfsr, t.nidx, t.ph)) =
    some (⟨0xEA771E23, 0x586B066A, 0x0CAFBF26, 0x4643136E⟩, 1, phNonce) := by decide
/-- 95_test_vectors.md 1.2: the third nonce word, on to the message. -/
theorem test_nonce_last : (nextOf (exec (.nonce 0)
    { running phNonce 0 ⟨0x993BCE8F, 0xBAB9DC54, 0x1079D148, 0xABA1C350⟩ 0 5 with nidx := 2 })).map
    (fun t => (t.nfsr, t.nidx, t.ph)) = some (sInit, 3, phMsgFull) := by decide
/-- 95_test_vectors.md 2.3: "HDR0". -/
theorem test_adFull : (nextOf (exec (.adFull 0)
    { running phAdFull 0 sInit 5 0 with ab := [(0, 0x48), (1, 0x44), (2, 0x52), (3, 0x30)] })).map
    (fun t => (t.nfsr, t.adp, t.ph, t.draws)) =
    some (⟨0xB9F02451, 0x48E7CCA8, 0x00C972BF, 0xC384F312⟩, 4, phAdPart, 0) := by decide
/-- 95_test_vectors.md 2.3: "1" after "HDR0", r = 1. -/
theorem test_adPart : (nextOf (exec (.adPart 0)
    { running phAdPart 0 ⟨0xB9F02451, 0x48E7CCA8, 0x00C972BF, 0xC384F312⟩ 5 3 with adp := 4, ab := [(4, 0x31)] })).map
    (fun t => (t.nfsr, t.adp, t.ph)) =
    some (⟨0x5E1D0E4F, 0xB5F69D43, 0x1067707A, 0xB5475810⟩, 5, phMsgPart) := by decide
/-- 95_test_vectors.md 2.3: 40 41 42, r = 3. -/
theorem test_adPart_three : (nextOf (exec (.adPart 0)
    { running phAdPart 0 sInit 3 0 with ab := [(0, 0x40), (1, 0x41), (2, 0x42)] })).map
    (fun t => (t.nfsr, t.ph)) = some (⟨0xB9F02451, 0x48E7CCAB, 0x00C972BF, 0xF394F61A⟩, phFin1) := by decide
/-- 95_test_vectors.md 2.4: "hell". -/
theorem test_msgFullEnc : (nextOf (exec .msgFullEnc
    { running phMsgFull 0 sInit 0 5 with ib := [(0, 0x68), (1, 0x65), (2, 0x6C), (3, 0x6C)] })).map
    (fun t => (t.nfsr, t.ob, t.mp, t.ph)) = some (⟨0x8CC995C5, 0x4597B763, 0x2EF47B78, 0x042C40B1⟩,
      [(0, 0x10), (1, 0x1E), (2, 0x98), (3, 0x42)], 4, phMsgPart) := by decide
/-- 95_test_vectors.md 2.4: back to "hell". -/
theorem test_msgFullDec : (nextOf (exec .msgFullDec
    { running phMsgFull 1 sInit 0 13 with ib := [(0, 0x10), (1, 0x1E), (2, 0x98), (3, 0x42)] })).map
    (fun t => (t.nfsr, t.ob, t.mp, t.ph)) = some (⟨0x8CC995C5, 0x4597B763, 0x2EF47B78, 0x042C40B1⟩,
      [(0, 0x68), (1, 0x65), (2, 0x6C), (3, 0x6C)], 4, phMsgPart) := by decide
/-- 95_test_vectors.md 2.4: "o" after "hell". -/
theorem test_msgPartEnc : (nextOf (exec .msgPartEnc
    { running phMsgPart 0 ⟨0x8CC995C5, 0x4597B763, 0x2EF47B78, 0x042C40B1⟩ 0 5 with mp := 4, ib := [(4, 0x6F)] })).map
    (fun t => (t.nfsr, t.ob, t.mp, t.ph)) =
    some (⟨0x7C133DB3, 0x7B0437B8, 0x4A1A21D3, 0xAFB1F2F0⟩, [(4, 0xBC)], 5, phFin1) := by decide
/-- 95_test_vectors.md 2.4: A0 A1 A2, r = 3. -/
theorem test_msgPartEnc_three : (nextOf (exec .msgPartEnc
    { running phMsgPart 0 sInit 0 3 with ib := [(0, 0xA0), (1, 0xA1), (2, 0xA2)] })).map
    (fun t => (t.nfsr, t.ob)) = some (⟨0x8CC995C5, 0x4597B760, 0x2EF47B78, 0x68E28479⟩,
      [(0, 0xD8), (1, 0xDA), (2, 0x56)]) := by decide
/-- 95_test_vectors.md 2.4: the tampered body's last byte absorbs another plaintext. -/
theorem test_msgPartDec : (nextOf (exec .msgPartDec
    { running phMsgPart 1 ⟨0x8CC995C5, 0x4597B763, 0x2EF47B78, 0x042C40B0⟩ 0 13 with mp := 4, ib := [(4, 0xBC)] })).map
    (fun t => (t.nfsr, t.ph)) = some (⟨0x34119963, 0xDBA9862A, 0x027408AC, 0x38171E05⟩, phFin1) := by decide
/-- 95_test_vectors.md 1.2. -/
theorem test_fin1 : (nextOf (exec (.fin1 0)
    (running phFin1 0 ⟨0x7C133DB3, 0x7B0437B8, 0x4A1A21D3, 0xAFB1F2F0⟩ 0 5))).map
    (fun t => (t.nfsr, t.t0, t.ph)) =
    some (⟨0x7822DE6F, 0xE52B37E9, 0xFF1B063D, 0xFC271948⟩, 0xFF1B063D, phFin2) := by decide
/-- 95_test_vectors.md 1.2. -/
theorem test_fin2 : (nextOf (exec (.fin2 0)
    (running phFin2 0 ⟨0x7822DE6F, 0xE52B37E9, 0xFF1B063D, 0xFC271948⟩ 0 5))).map
    (fun t => (t.nfsr, t.t1, t.ph)) =
    some (⟨0x1A1F62DA, 0x12794869, 0x8970CB73, 0xBE6F155E⟩, 0x8970CB73, phFinish) := by decide
/-- 95_test_vectors.md 2.5: the tag of "hello" at OB[5], no multiple of 4. -/
theorem test_finishEnc : (nextOf (exec .finishEnc
    { running phFinish 0 ⟨0, 0, 0, 0⟩ 0 5 with t0 := 0xFF1B063D, t1 := 0x8970CB73, mp := 5 })).map
    (fun t => (t.ob.map (·.2), t.ob.map (·.1), t.outLen, t.status.toWord, t.t0)) =
    some ([0x3D, 0x06, 0x1B, 0xFF, 0x73, 0xCB, 0x70, 0x89], [5, 6, 7, 8, 9, 10, 11, 12], 13, 0x6, 0) := by decide
/-- 95_test_vectors.md 2.5: the bare tag of the zero vector. -/
theorem test_verifyDec : (nextOf (exec .verifyDec
    { running phFinish 1 ⟨0, 0, 0, 0⟩ 0 8 with
      t0 := 0x4A2D2990, t1 := 0x15ECDE63
      ib := [(0, 0x90), (1, 0x29), (2, 0x2D), (3, 0x4A), (4, 0x63), (5, 0xDE), (6, 0xEC), (7, 0x15)] })).map
    (fun t => (t.status.toWord, t.outLen, t.ph)) = some (0x6, 0, phIdle) := by decide
/-- 95_test_vectors.md P3: the forged copy of "hello", only tag byte 7 differs. -/
theorem test_verifyDec_fail : (nextOf (exec .verifyDec
    { running phFinish 1 ⟨0, 0, 0, 0⟩ 0 13 with
      t0 := 0xFF1B063D, t1 := 0x8970CB73, mp := 5
      ib := [(5, 0x3D), (6, 0x06), (7, 0x1B), (8, 0xFF), (9, 0x73), (10, 0xCB), (11, 0x70), (12, 0x88)]
      ob := [(0, 0x68), (1, 0x65), (2, 0x6C), (3, 0x6C), (4, 0x6F), (5, 0x3D)] })).map
    (fun t => (t.status.toWord, t.outLen, t.ob.map (·.2), t.nfsr)) =
    some (0x32, 0, [0, 0, 0, 0, 0, 0x3D], ⟨0, 0, 0, 0⟩) := by decide

/-! ### The host's accesses (95_test_vectors.md 2.7) and the interleaving -/

theorem test_read_misaligned : (hostRead { State.reset with adLen := 5 } 0x002 .w32).1 = 0 := by decide
theorem test_read_status_byte : (hostRead (running phCheck 0 sInit 0 0) 0x004 .w8).1 = 0 := by decide
theorem test_read_key : (hostRead (running phIdle 0 sInit 0 0) 0x020 .w32).1 = 0 := by decide
theorem test_write_then_read_half : (hostRead
    (hostWrite State.reset 0x20000 .w32 0x6C6C6568) 0x20001 .w16).1 = 0x6C65 := by decide
theorem test_write_nonce : (hostRead (hostWrite State.reset 0x034 .w32 0x07060504) 0x034 .w32).1 = 0x07060504 := by
  decide
theorem test_output_mask : (hostRead { State.reset with
    outLen := 1, ob := [(0, 0x89), (1, 0x77)], status := ⟨false, true, true, 0⟩ } 0x30000 .w16).1 = 0x89 := by decide
/-- 70_reset_and_hazards.md R144: a write after START lands or is lost as the interleaving decides. -/
theorem test_race_host_first : (nextOf (step { running phFin1 0 sInit 0 0 with
    inputs := [.write 0x08 .w32 9], sched := [.host] })).map (fun t => (t.adLen, t.ph, t.inputs)) =
    some (0, phFin1, []) := by decide
theorem test_race_engine_first : (nextOf (step { running phFin1 0 sInit 0 0 with
    inputs := [.write 0x08 .w32 9], sched := [.engine] })).map (fun t => (t.adLen, t.ph, t.inputs)) =
    some (0, phFin2, [.write 0x08 .w32 9]) := by decide
theorem test_poll_waits : (nextOf (step { running phFin1 0 sInit 0 0 with
    inputs := pseudoWait, sched := [.host] })).map (fun t => (t.inputs, t.observed)) =
    some (pseudoWait, [0x1]) := by decide
theorem test_reset_while_busy : (nextOf (step { running phFin1 0 sInit 0 0 with
    inputs := [.reset], sched := [.host] })) = some State.reset := by decide
theorem test_unreachable_phase : faultOf (step { State.reset with ph := 11 }) = some .unreachablePhase := by decide
theorem test_reserved_err : faultOf (step { State.reset with status := ⟨false, true, false, 4⟩ }) =
    some .reservedErrCode := by decide

/-- Every row's word is placed so that the next step after reset runs it. -/
theorem test_table_words_run : ([(32, 0x1), (32, 0x3), (32, 0x0)] ++ [(8, 0x00), (8, 0x01), (8, 0x02), (8, 0x03),
    (8, 0x04), (8, 0x05), (8, 0x06), (8, 0x16), (8, 0x07), (8, 0x17), (8, 0x08), (8, 0x09), (8, 0x0A), (8, 0x1A)]).all
    (fun r => (nextOf (step (State.reset.withFetchWord r.1 r.2))).isSome) = true := by decide

/-! ### Witnesses: for each statement with hypotheses, states and operands that meet them -/

/-- IN_CAP is at least 8 (R8). -/
theorem eight_le_inCap : 8 ≤ Config.inCap := by simp [Config.inCap]

/-- A busy state of CHECK, at rest but for a host program. -/
def checking (op : BitVec 1) (inLen : Word) (inputs : List HostInput) : State :=
  { running phCheck op ⟨0, 0, 0, 0⟩ 0 inLen with inputs := inputs }

theorem checking_inv (op : BitVec 1) (inLen : Word) (inputs : List HostInput) : EngineInv (checking op inLen inputs) := by
  refine ⟨?_, ?_, ?_, ?_, ?_, ?_⟩ <;>
    simp [checking, running, State.reset, BuffersOk, StatusOk, ZeroBeforeKeyload, LengthsOk, CountersOk, OutputOk]

/-- A state past CHECK: KEYLOAD of the empty message. -/
theorem keyload_inv : EngineInv (running phKeyload 0 ⟨0, 0, 0, 0⟩ 0 0) := by
  refine ⟨?_, ?_, ?_, ?_, ?_, ?_⟩ <;>
    simp [running, State.reset, BuffersOk, StatusOk, ZeroBeforeKeyload, LengthsOk, CountersOk, OutputOk,
      Memory.written]

theorem witness_EveryDataWordIsOneCommand :
    ((0x80000005 : Word) &&& 0x3 = 0x1 ∧ (0x7FFFFFFF : Word) &&& 0x3 = 0x3 ∧ (0xFFFFFFFE : Word) &&& 0x1 = 0x0) ∧
    ∃ (s : State) (d : Word) (rest : List HostInput), s.inputs = .write 0 .w32 d :: rest ∧ s.status.busy = true :=
  ⟨by decide, checking 0 0 [.write 0 .w32 0x3], _, _, rfl, rfl⟩

theorem witness_SelectorTableIsDecoded :
    11 ≤ (11 : BitVec 4).toNat ∧ 11 ≤ (15 : BitVec 4).toNat ∧ ∃ s : State, 11 ≤ s.ph.toNat :=
  ⟨by decide, by decide, { State.reset with ph := 15 }, by decide⟩

theorem witness_OpcodeRowsAreDisjoint : Instr.wf (.encrypt 0xFFFFFFFD) = true ∧ Instr.wf .verifyDec = true ∧
    opcodeTable ≠ [] := by decide

theorem witness_DecodeReadsBackEncode : Instr.wf (.encrypt 0xFFFFFFFD) = true ∧ Instr.wf (.setop 0) = true ∧
    Instr.wf (.idle 1) = true := by decide

theorem witness_DecodedBytesAreTheEncoding :
    decodeBytes .command [0xFD, 0xFF, 0xFF, 0xFF] = .ok (.encrypt 0xFFFFFFFD) ∧
    decodeBytes .selector [0x1A] = .ok .verifyDec := by decide

theorem witness_StepRunsTheSelectedMicroOp : ∃ (s : State) (i : Instr), s.badState = none ∧ s.turn.1 = .engine ∧
    decodeBytes .selector (selectorByte (selectorOf s.ctrlOp s.ph)) = .ok i ∧ s.inputs ≠ [] :=
  ⟨{ checking 1 8 pseudoWait with sched := [.engine, .host] }, .check 1, by decide⟩

theorem witness_StepRunsTheWrittenCommand : ∃ (s : State) (d : Word) (rest : List HostInput) (i : Instr),
    s.badState = none ∧ s.turn.1 = .host ∧ s.inputs = .write 0 .w32 d :: rest ∧ s.status.busy = false ∧
    decodeBytes .command (st32 d) = .ok i :=
  ⟨{ State.reset with inputs := .write 0 .w32 0xFFFFFFFF :: pseudoWait }, 0xFFFFFFFF, pseudoWait, .decrypt 0xFFFFFFFF,
    by decide⟩

theorem witness_TapsAreRegisterWindows : ∀ j ∈ [0, 31], j < 32 := by decide

theorem witness_BatchRotatesInTheFeedback : ∀ b ∈ [0, 3, 39],
    ∃ w, [k1.k0, k1.k1, k1.k2, k1.k3][b % 4]? = some w := by
  intro b hb
  simp only [List.mem_cons, List.not_mem_nil, or_false] at hb
  obtain rfl | rfl | rfl := hb <;> exact ⟨_, rfl⟩

theorem witness_AdvanceRunsItsBatchesInOrder : 1 % 32 ≠ 0 ∧ 1279 % 32 ≠ 0 := by decide

theorem witness_AdvanceIsTheBitSerialRegister : ∃ r, advance sInit k1 (32 * 2) = some r :=
  ⟨batch (batch sInit k1 0) k1 1, by decide⟩

theorem witness_WordsAreLittleEndianInBuffers : ∃ (m : Memory) (b0 b1 b2 b3 : Byte), Memory.get m 5 = some b0 ∧
    Memory.get m 6 = some b1 ∧ Memory.get m 7 = some b2 ∧ Memory.get m 8 = some b3 :=
  ⟨[(5, 1), (6, 2), (7, 3), (8, 0xFF)], 1, 2, 3, 0xFF, rfl, rfl, rfl, rfl⟩

theorem witness_ByteViewOverlaysTheWords : ∀ n ∈ [0, 12, 15], n < 16 := by decide

theorem witness_PartialChunkGoesToTheLowBytes : ∀ ds ∈ [[(0xFF : Byte)], [1, 2, 3]], 1 ≤ ds.length ∧ ds.length ≤ 3 := by
  decide

theorem witness_RegisterBlockAccesses :
    (∀ off ∈ [(0x1C : BitVec 18), 0x20, 0x3C, 0xFFFC],
      off ∉ [(0x00 : BitVec 18), 0x04, 0x08, 0x0C, 0x10, 0x14, 0x18, 0x30, 0x34, 0x38]) ∧
    (∀ off ∈ [(0x04 : BitVec 18), 0x10, 0x1C, 0x3C, 0xFFFC],
      off ∉ [(0x00 : BitVec 18), 0x08, 0x0C, 0x20, 0x24, 0x28, 0x2C, 0x30, 0x34, 0x38]) ∧
    (0xFFFC : BitVec 18).toNat < 0x10000 ∧
    (Width.w8 ≠ .w32 ∧ (0xFFFF : BitVec 18).toNat < 0x10000 ∧ (0xFFFF : BitVec 18).toNat % 4 ≠ 0) := by simp

/-- An access of each width inside the aperture, one across two windows (95_test_vectors.md 2.7) and the last ones; and
bytes the window fixes, written and masked. -/
theorem witness_HostWordsAreLittleEndianBytes_bytewise :
    (∀ a ∈ [((0x10000 : BitVec 18), Width.w8), (0x1FFFE, .w32), (0x2FFFF, .w16), (0x3FFFC, .w32), (0x3FFFF, .w8)],
      0x10000 ≤ a.1.toNat ∧ a.1.toNat + a.2.bytes ≤ 0x40000) ∧
    (∃ (s : State) (b : Byte), b ≠ 0 ∧ windowByte s 0x20000 = some b) ∧
    (∃ s : State, ∀ j, j < Width.w16.bytes → (windowByte s (0x3FFFE + j)).isSome = true) := by
  refine ⟨by simp [Width.bytes], ⟨{ State.reset with ib := [(0, 5)] }, 5, by decide, ?_⟩, State.reset, by decide⟩
  simp [windowByte, Config.inCap, Memory.get]

/-- The first and the last word of IN_BUF; in AD_BUF wherever its capacity, which the spec lets be 0, holds a word. -/
theorem witness_HostWordsAreLittleEndianBytes :
    (∃ (o : Nat) (off : BitVec 18), o + 4 ≤ Config.inCap ∧ off.toNat = 0x20000 + o) ∧
    (∃ (o : Nat) (off : BitVec 18), o + 4 = Config.inCap ∧ off.toNat = 0x20000 + o) ∧
    (4 ≤ Config.adCap → ∃ (o : Nat) (off : BitVec 18), o + 4 = Config.adCap ∧ off.toNat = 0x10000 + o) := by
  have hi := Config.inCapParam.isLt
  have ha : Config.adCap < 65537 := Config.adCapParam.isLt
  refine ⟨⟨0, 0x20000, by simp [Config.inCap], by decide⟩,
    ⟨Config.inCapParam.val + 4, BitVec.ofNat 18 (0x20000 + (Config.inCapParam.val + 4)), by simp [Config.inCap], ?_⟩,
    fun h => ⟨Config.adCap - 4, BitVec.ofNat 18 (0x10000 + (Config.adCap - 4)), by omega, ?_⟩⟩ <;>
  · simp only [BitVec.toNat_ofNat]; omega

/-- Byte 0, and the first byte past each capacity (AD_CAP may be 0, or the whole window); and a written byte 0. -/
theorem witness_WindowBytesRespectTheCapacities :
    (∃ (s : State) (b : Byte), Memory.get s.ab 0 = some b ∧ Memory.get s.ib 0 = some b) ∧
    (0 < Config.inCap ∧ ∃ off : BitVec 18, off.toNat = 0x20000 + Config.inCap) ∧
    (∃ off : BitVec 18, off.toNat = 0x20000) ∧ Config.inCap < 0x10000 ∧
    (Config.adCap < 0x10000 → ∃ off : BitVec 18, off.toNat = 0x10000 + Config.adCap) ∧
    (0 < Config.adCap → ∃ (o : Nat) (off : BitVec 18), o + 1 = Config.adCap ∧ o < 0x10000 ∧ off.toNat = 0x10000 + o) ∧
    ∃ (o : Nat) (off : BitVec 18), o < 0x10000 ∧ off.toNat = 0x30000 + o := by
  have hi := Config.inCapParam.isLt
  have ha : Config.adCap < 65537 := Config.adCapParam.isLt
  have he : Config.inCap = Config.inCapParam.val + 8 := rfl
  refine ⟨⟨{ State.reset with ab := [(0, 7)], ib := [(0, 7)] }, 7, rfl, rfl⟩,
    ⟨by omega, BitVec.ofNat 18 (0x20000 + Config.inCap), ?_⟩, ⟨0x20000, by decide⟩, by omega,
    fun h => ⟨BitVec.ofNat 18 (0x10000 + Config.adCap), ?_⟩,
    fun h => ⟨Config.adCap - 1, BitVec.ofNat 18 (0x10000 + (Config.adCap - 1)), by omega, by omega, ?_⟩,
    ⟨0xFFFF, 0x3FFFF, by decide, by decide⟩⟩ <;>
  · simp only [BitVec.toNat_ofNat]; omega

theorem witness_WritesAreIgnoredWhileBusy :
    (∃ (s : State) (rest : List HostInput), s.status.busy = true ∧ s.inputs = .write 0x20000 .w8 0xFF :: rest) ∧
    (0x30000 ≤ (0x30000 : BitVec 18).toNat ∧ (0x30000 : BitVec 18).toNat + Width.w8.bytes ≤ 0x40000) ∧
    (0x30000 ≤ (0x3FFFC : BitVec 18).toNat ∧ (0x3FFFC : BitVec 18).toNat + Width.w32.bytes ≤ 0x40000) :=
  ⟨⟨checking 0 0 [.write 0x20000 .w8 0xFF], [], rfl, rfl⟩, by decide, by decide⟩

theorem witness_OutputIsMasked :
    (∃ (s : State) (o : Nat) (off : BitVec 18) (b : Byte), off.toNat = 0x30000 + o ∧ s.status.busy = false ∧
      s.status.outv = true ∧ o < s.outLen.toNat ∧ Memory.get s.ob o = some b) ∧
    (∃ (s : State) (o : Nat) (off : BitVec 18), o < 0x10000 ∧ off.toNat = 0x30000 + o ∧ s.status.outv = true ∧
      s.outLen.toNat ≤ o) ∧
    (∃ s : State, EngineInv s ∧ 2 ≤ s.ph.toNat) :=
  ⟨⟨{ State.reset with outLen := 1, ob := [(0, 0x89)], status := ⟨false, true, true, 0⟩ }, 0, 0x30000, 0x89,
      by decide⟩,
    ⟨{ State.reset with outLen := 1, status := ⟨false, true, true, 0⟩ }, 1, 0x30001, by decide⟩,
    ⟨running phKeyload 0 ⟨0, 0, 0, 0⟩ 0 0, keyload_inv, by decide⟩⟩

theorem witness_ReadsHaveNoSideEffect : ∃ (s : State) (rest : List HostInput),
    s.inputs = .read 0x30000 .w16 :: rest :=
  ⟨checking 0 0 [.read 0x30000 .w16], [], rfl⟩

theorem witness_HiddenStateIsNotReadable : ∃ (s : State) (ob : Memory), s.status.busy = false ∧ s.status.outv = true ∧
    ob ≠ s.ob ∧ ∀ o, o < s.outLen.toNat → Memory.get ob o = Memory.get s.ob o := by
  refine ⟨{ State.reset with outLen := 1, ob := [(0, 1), (1, 2)], status := ⟨false, true, true, 0⟩ },
    [(0, 1), (1, 3)], rfl, rfl, by decide, fun o h => ?_⟩
  obtain rfl : o = 0 := by simpa using h
  rfl

theorem witness_ResetSetsEveryRegister :
    (∃ (s : State) (rest : List HostInput), s.inputs = .reset :: rest ∧ s.status.busy = true) ∧
    (0x30000 ≤ (0x30000 : BitVec 18).toNat ∧ (0x30000 : BitVec 18).toNat + Width.w8.bytes ≤ 0x40000) :=
  ⟨⟨checking 1 8 (.reset :: pseudoWait), _, rfl, rfl⟩, by decide⟩

theorem witness_StartCommandsBeginATransaction : State.reset.status.busy = false ∧
    (checking 0 0 []).status.busy = true := by decide

theorem witness_SetopWritesTheDirection : State.reset.status.busy = false ∧
    (checking 0 0 []).status.busy = true := by decide

theorem witness_CheckRejectsIllegalLengths :
    (∃ s : State, s.ctrlOp = 1 ∧ s.inLen.toNat < 8) ∧
    (∃ s : State, ¬ (s.ctrlOp = 1 ∧ s.inLen.toNat < 8) ∧ s.adLen.toNat ≤ Config.adCap ∧
      Config.inCap < s.inLen.toNat) ∧
    (∃ s : State, ¬ (s.ctrlOp = 1 ∧ s.inLen.toNat < 8) ∧ Config.adCap < s.adLen.toNat ∧
      s.inLen.toNat ≤ Config.inCap) ∧
    (∃ s : State, s.ctrlOp = 1 ∧ ¬ (s.ctrlOp = 1 ∧ s.inLen.toNat < 8) ∧ s.adLen.toNat ≤ Config.adCap ∧
      s.inLen.toNat ≤ Config.inCap) := by
  have hi := Config.inCapParam.isLt
  have ha : Config.adCap < 65537 := Config.adCapParam.isLt
  have he : Config.inCap = Config.inCapParam.val + 8 := rfl
  refine ⟨⟨running phCheck 1 sInit 0 7, by decide⟩,
    ⟨running phCheck 1 sInit 0 0x10000, by decide, by simp [running, State.reset], ?_⟩,
    ⟨running phCheck 0 sInit 0x10001 0, by decide, ?_, by simp [running, State.reset]⟩,
    ⟨running phCheck 1 sInit 0 8, rfl, by decide, by simp [running, State.reset], ?_⟩⟩
  · show Config.inCap < 0x10000; omega
  · show Config.adCap < 0x10001; omega
  · show 8 ≤ Config.inCap; omega

theorem witness_NonceAbsorbsEachWord : (running phNonce 0 sInit 0 0).nidx = 0 ∧
    ({ running phNonce 0 sInit 0 0 with nidx := 1 } : State).nidx = 1 ∧
    ({ running phNonce 0 sInit 0 0 with nidx := 2 } : State).nidx = 2 := by decide

theorem witness_AdFullAbsorbsAWord : ∃ s : State, s.adp + 4 = s.adLen.toNat :=
  ⟨{ running phAdFull 0 sInit 8 0 with adp := 4 }, by decide⟩

theorem witness_AdPartAbsorbsTheChunk : ∀ r ∈ [1, 3], ∃ s : State, s.adp + r = s.adLen.toNat ∧ 1 ≤ r ∧ r ≤ 3 := by
  intro r hr
  refine ⟨{ running phAdPart 0 sInit (BitVec.ofNat 32 (4 + r)) 0 with adp := 4 }, ?_⟩
  simp only [List.mem_cons, List.not_mem_nil, or_false] at hr
  obtain rfl | rfl := hr <;> decide

theorem witness_InitializationDependsOnKeyAndNonce : ∃ s : State, s.ph = 2 ∧ s.nidx = 0 ∧ s.inputs = [] ∧
    s.status.err.toNat ≤ 3 :=
  ⟨running phKeyload 0 ⟨0, 0, 0, 0⟩ 5 7, by decide⟩

theorem witness_MsgFullEncEncryptsAWord : ∃ s : State, s.mp + 4 = s.ml :=
  ⟨{ running phMsgFull 0 sInit 0 8 with mp := 4 }, by decide⟩

theorem witness_MsgFullDecRecoversAWord : ∃ s : State, s.ctrlOp = 1 ∧ s.mp + 4 = s.ml :=
  ⟨{ running phMsgFull 1 sInit 0 16 with mp := 4 }, by decide⟩

theorem witness_MsgPartEncEncryptsTheChunk : ∀ r ∈ [1, 3], ∃ s : State, s.mp + r = s.ml ∧ 1 ≤ r ∧ r ≤ 3 := by
  intro r hr
  refine ⟨{ running phMsgPart 0 sInit 0 (BitVec.ofNat 32 (4 + r)) with mp := 4 }, ?_⟩
  simp only [List.mem_cons, List.not_mem_nil, or_false] at hr
  obtain rfl | rfl := hr <;> decide

theorem witness_MsgPartDecRecoversTheChunk : ∀ r ∈ [1, 3], ∃ s : State, s.ctrlOp = 1 ∧ s.mp + r = s.ml ∧ 1 ≤ r ∧
    r ≤ 3 := by
  intro r hr
  refine ⟨{ running phMsgPart 1 sInit 0 (BitVec.ofNat 32 (12 + r)) with mp := 4 }, ?_⟩
  simp only [List.mem_cons, List.not_mem_nil, or_false] at hr
  obtain rfl | rfl := hr <;> decide

theorem witness_DecryptStepMirrorsEncryptStep :
    (∃ s d t : State, d.nfsr = s.nfsr ∧ d.key = s.key ∧ s.mp + 4 ≤ s.ml ∧ d.mp + 4 ≤ d.ml ∧
      exec .msgFullEnc s = .next t ∧ ∀ j, j < 4 → Memory.get d.ib (d.mp + j) = Memory.get t.ob (s.mp + j)) ∧
    (∃ s d t : State, d.nfsr = s.nfsr ∧ d.key = s.key ∧ s.mp + 3 = s.ml ∧ d.mp + 3 = d.ml ∧
      exec .msgPartEnc s = .next t ∧ ∀ j, j < 3 → Memory.get d.ib (d.mp + j) = Memory.get t.ob (s.mp + j)) := by
  refine ⟨⟨{ running phMsgFull 0 sInit 0 4 with ib := [(0, 0x68), (1, 0x65), (2, 0x6C), (3, 0x6C)] },
      { running phMsgFull 1 sInit 0 12 with ib := [(0, 0x10), (1, 0x1E), (2, 0x98), (3, 0x42)] },
      _, rfl, rfl, by decide, by decide, rfl, by decide⟩,
    ⟨{ running phMsgPart 0 sInit 0 3 with ib := [(0, 0xA0), (1, 0xA1), (2, 0xA2)] },
      { running phMsgPart 1 sInit 0 11 with ib := [(0, 0xD8), (1, 0xDA), (2, 0x56)] },
      _, rfl, rfl, by decide, by decide, rfl, by decide⟩⟩

theorem witness_BrokenPreconditionsStop :
    (∃ s : State, s.adLen.toNat + 1 = s.adp + 4) ∧ (∃ s : State, s.adLen.toNat ≤ s.adp) ∧
    (∃ s : State, s.adp + 4 ≤ s.adLen.toNat) ∧ (∃ s : State, s.ml + 1 = s.mp + 4) ∧ (∃ s : State, s.ml ≤ s.mp) ∧
    (∃ s : State, s.mp + 4 ≤ s.ml) ∧ ∃ s : State, 3 ≤ s.nidx :=
  ⟨⟨running phAdFull 0 sInit 3 0, by decide⟩, ⟨State.reset, by decide⟩, ⟨running phAdPart 0 sInit 4 0, by decide⟩,
    ⟨running phMsgFull 0 sInit 0 3, by decide⟩, ⟨State.reset, by decide⟩, ⟨running phMsgPart 0 sInit 0 4, by decide⟩,
    ⟨{ State.reset with nidx := 3 }, by decide⟩⟩

/-- The zero vector's tag (95_test_vectors.md 2.5) and the same with its last byte changed. -/
theorem witness_VerifyDecComparesEveryTagByte : ∃ (s u : State) (a b : List Byte) (d e : Nat),
    Memory.loadBytes s.ib s.ml 8 s.draws = (a, d) ∧ a = st32 s.t0 ++ st32 s.t1 ∧
    Memory.loadBytes u.ib u.ml 8 u.draws = (b, e) ∧ b ≠ st32 u.t0 ++ st32 u.t1 :=
  ⟨{ running phFinish 1 sInit 0 8 with
      t0 := 0x4A2D2990, t1 := 0x15ECDE63
      ib := [(0, 0x90), (1, 0x29), (2, 0x2D), (3, 0x4A), (4, 0x63), (5, 0xDE), (6, 0xEC), (7, 0x15)] },
    { running phFinish 1 sInit 0 8 with
      t0 := 0x4A2D2990, t1 := 0x15ECDE63
      ib := [(0, 0x90), (1, 0x29), (2, 0x2D), (3, 0x4A), (4, 0x63), (5, 0xDE), (6, 0xEC), (7, 0x14)] },
    _, _, _, _, rfl, by decide, rfl, by decide⟩

/-- Two different computed tags, neither the supplied one. -/
theorem witness_DecryptHidesItsTag : ∃ (s : State) (t0 t1 : Word), t0 ≠ s.t0 ∧
    ((s.suppliedTag.1 = st32 s.t0 ++ st32 s.t1) ↔ (s.suppliedTag.1 = st32 t0 ++ st32 t1)) :=
  ⟨{ running phFinish 1 sInit 0 8 with
      ib := [(0, 9), (1, 0), (2, 0), (3, 0), (4, 0), (5, 0), (6, 0), (7, 0)], t0 := 1 }, 2, 0, by decide⟩

theorem witness_TransactionInputsAreFrozen : ∃ s t : State, s.status.busy = true ∧
    (∀ rest, s.inputs ≠ .reset :: rest) ∧ step s = .next t :=
  ⟨{ checking 0 0 [.write 0x20 .w32 9] with sched := [.host] }, checking 0 0 [], rfl, by simp [checking], rfl⟩

theorem witness_InterleavingDoesNotReachTheEngine : ∃ s t : State, EngineInv s ∧ s.status.busy = true ∧
    (∀ rest, s.inputs ≠ .reset :: rest) ∧ Memory.written s.ab s.adLen.toNat ∧ Memory.written s.ib s.inLen.toNat ∧
    step s = .next t :=
  ⟨{ checking 0 0 [.write 0x20 .w32 9] with sched := [.host] }, checking 0 0 [],
    checking_inv 0 0 [.write 0x20 .w32 9], rfl,
    by simp [checking], by simp [Memory.written, checking, running], by simp [Memory.written, checking, running], rfl⟩

theorem witness_RecordStaysUntilTheNextStart : ∃ s t : State, s.ph = 0 ∧ (∀ rest, s.inputs ≠ .reset :: rest) ∧
    (∀ d rest, s.inputs = .write 0 .w32 d :: rest → d &&& 0x1 = 0x0) ∧ step s = .next t ∧ s ≠ t :=
  ⟨{ State.reset with inputs := [.write 0 .w32 0x2] }, { State.reset with ctrlOp := 1 }, rfl, by simp,
    by simp, rfl, by decide⟩

theorem witness_OnlySuccessMakesOutputValid : ∃ s t : State, step s = .next t ∧ s.status.outv = false ∧
    t.status.outv = true :=
  ⟨running phFinish 0 sInit 0 0, _, rfl, rfl, rfl⟩

theorem witness_EveryStepKeepsTheInvariant : ∃ s t : State, EngineInv s ∧ step s = .next t ∧ s.ph ≠ t.ph :=
  ⟨running phKeyload 0 ⟨0, 0, 0, 0⟩ 0 0, _, keyload_inv, rfl, by decide⟩

theorem witness_InvariantStatesNeverStop : ∃ s : State, EngineInv s ∧ s.ph = phKeyload :=
  ⟨_, keyload_inv, rfl⟩

theorem checking_started (op : BitVec 1) (inLen : Word) : Started (checking op inLen []) := by
  simp [Started, checking, running]

theorem witness_TransactionPerformsTheSequence : ∃ s : State, Started s ∧ Admitted s ∧ s.ctrlOp = 1 :=
  ⟨checking 1 8 [], checking_started 1 8, by
    refine ⟨by simp [checking, running], eight_le_inCap, fun _ => by decide⟩, rfl⟩

theorem witness_TransactionsTerminateInBoundedWork : (∃ s : State, Started s ∧ Admitted s) ∧
    ∃ s : State, Started s ∧ ¬ Admitted s :=
  ⟨⟨checking 0 8 [], checking_started 0 8, by simp [checking, running], eight_le_inCap, fun h => absurd h (by decide)⟩,
    checking 1 7 [], checking_started 1 7, fun h => absurd (h.2.2 rfl) (by decide)⟩

theorem witness_EncryptMeetsItsContract : ∃ s : State, Started s ∧ s.ctrlOp = 0 ∧ s.adLen.toNat ≤ Config.adCap ∧
    s.inLen.toNat ≤ Config.inCap ∧ s.inLen = 8 :=
  ⟨checking 0 8 [], checking_started 0 8, rfl, by simp [checking, running], eight_le_inCap, rfl⟩

theorem witness_DecryptMeetsItsContract :
    (∃ s : State, Started s ∧ s.ctrlOp = 1 ∧ 8 = s.inLen.toNat ∧ s.inLen.toNat ≤ Config.inCap ∧
      s.adLen.toNat ≤ Config.adCap) ∧
    ∃ s : State, Started s ∧ s.ctrlOp = 1 ∧ s.inLen.toNat = 7 :=
  ⟨⟨checking 1 8 [], checking_started 1 8, rfl, rfl, eight_le_inCap, by simp [checking, running]⟩,
    checking 1 7 [], checking_started 1 7, rfl, rfl⟩

theorem witness_WaitEndsInEveryInterleaving : ∃ s : State, EngineInv s ∧ s.status.busy = true ∧ s.inputs = pseudoWait :=
  ⟨checking 0 0 pseudoWait, checking_inv 0 0 _, rfl, rfl⟩

theorem witness_LoadKeyWritesLittleEndianWords : ∃ (s : State) (key : List Byte), s.ph = 0 ∧ s.status.busy = false ∧
    s.status.err.toNat ≤ 3 ∧ key.length = 16 ∧ s.inputs = pseudoLoadKey key :=
  ⟨{ State.reset with inputs := pseudoLoadKey [0, 1, 2, 3, 4, 5, 6, 7, 8, 9, 10, 11, 12, 13, 14, 15] }, _,
    rfl, rfl, by decide, rfl, rfl⟩

/-- An empty message with no AD passes CHECK, whatever the capacities. -/
theorem keyload_of_checking {s : State} (hp : s.ph = phCheck) (hin : s.inputs = []) (hs : s.status.err = 0)
    (hc : s.ctShort = false) (ha : s.adLen = 0) (hi : s.inLen.toNat ≤ 8) :
    step s = .next s.passCheck := by
  have ho : s.overCapacity = false := by
    have := eight_le_inCap
    rw [← Bool.not_eq_true, overCapacity_iff]
    simp [ha]; omega
  have hb : s.badState = none := badState_eq_none.2 ⟨by simp [hp], by simp [hs]⟩
  have hf : s.fetch = .ok (.check s.ctrlOp) := by
    rw [fetch_eq, hp]
    obtain h | h := bit_eq_zero_or_one s.ctrlOp <;> rw [h] <;> decide
  simp only [step, agentStep, hb, turn_of_noInputs hin, engineStep, hf, exec, execCheck, hc, ho]
  rfl

theorem witness_MachineRoundTrip : ∃ (s d t : State) (ad pt : List Byte),
    Started s ∧ s.ctrlOp = 0 ∧ ad.length = s.adLen.toNat ∧ pt.length = s.inLen.toNat ∧
    Memory.holds s.ab 0 ad ∧ Memory.holds s.ib 0 pt ∧ s.adLen.toNat ≤ Config.adCap ∧
    pt.length + 8 ≤ Config.inCap ∧
    runSteps (transactionSteps s.adLen.toNat s.inLen.toNat) s = .next t ∧
    Started d ∧ d.ctrlOp = 1 ∧ d.key = s.key ∧ d.nonce = s.nonce ∧ d.adLen = s.adLen ∧ Memory.holds d.ab 0 ad ∧
    d.inLen = t.outLen ∧ (∀ j, j < t.outLen.toNat → Memory.get d.ib j = Memory.get t.ob j) := by
  let s := checking 0 0 []
  have h1 : step s = .next s.passCheck := keyload_of_checking rfl rfl rfl (by decide) rfl (by decide)
  have h2 : (nextOf (runSteps 7 s.passCheck)).map (fun t => t.outLen) = some 8 := by decide
  obtain ⟨t, ht, hl⟩ := Option.map_eq_some_iff.1 h2
  have h3 : runSteps 7 s.passCheck = .next t := by
    cases hr : runSteps 7 s.passCheck <;> simp_all [nextOf]
  refine ⟨s, { checking 1 8 [] with ib := t.ob }, t, [], [], checking_started 0 0, rfl, rfl, rfl,
    nofun, nofun, Nat.zero_le _, eight_le_inCap, ?_, checking_started 1 8, rfl, rfl, rfl, rfl,
    nofun, hl.symm, fun _ _ => rfl⟩
  have h8 : transactionSteps s.adLen.toNat s.inLen.toNat = 7 + 1 := by decide
  have hr : runSteps (7 + 1) s = runSteps 7 s.passCheck := by
    simp only [runSteps, Host.Core.run, Sys2Proof.core, h1]
  rw [h8, hr, h3]

theorem witness_StepRunsTheHostsMove :
    (∃ (s : State) (rest : List HostInput), s.badState = none ∧ s.turn.1 = .host ∧ s.status.busy = true ∧
      s.inputs = .read 0x4 .w32 :: rest) ∧
    (∃ (s : State) (rest : List HostInput), s.inputs = .write 0x8 .w32 5 :: rest ∧ s.status.busy = false ∧
      (Width.w32 ≠ .w32 ∨ (0x8 : BitVec 18) ≠ 0)) ∧
    (∃ (s : State) (rest : List HostInput), s.inputs = .write 0 .w16 1 :: rest ∧ s.status.busy = false ∧
      (Width.w16 ≠ .w32 ∨ (0 : BitVec 18) ≠ 0)) ∧
    ∃ (s : State) (rest : List HostInput), s.inputs = .poll 0x4 0x1 0x0 :: rest :=
  ⟨⟨{ checking 0 0 [.read 0x4 .w32] with sched := [.host] }, [], by decide⟩,
    ⟨{ State.reset with inputs := [.write 0x8 .w32 5] }, [], by decide⟩,
    ⟨{ State.reset with inputs := [.write 0 .w16 1] }, [], by decide⟩, checking 0 0 pseudoWait, [], rfl⟩

theorem busOffset_base (k : Nat) : busOffset k (Config.base k) = some 0 := by
  simp [busOffset, Config.apertureBytes]

/-- A platform of one instance: the address BASE is its offset 0, and the address after its aperture is in none. -/
theorem witness_InstancesShareNothing :
    (∃ (p : Platform) (k a o : Nat) (x : BusAccess) (s t u : State), p.instances[k]? = some s ∧
      step { s with draws := p.draws } = .next u ∧ busOffset k a = some o ∧ s.badState = none ∧
      hostStep { s with draws := p.draws, inputs := x.at o :: s.inputs } = .next t) ∧
    ∃ (p : Platform) (a : Nat), p.instances ≠ [] ∧ ∀ k, k < p.instances.length → busOffset k a = none := by
  refine ⟨⟨⟨[State.reset], 3⟩, 0, Config.base 0, 0, .write .w32 0x2, State.reset, _, _, rfl, rfl, busOffset_base 0,
    by decide, rfl⟩, ⟨[State.reset], 0⟩, Config.base 0 + Config.apertureBytes, by decide, fun k hk => ?_⟩
  obtain rfl : k = 0 := by simpa using hk
  simp [busOffset]

/-! ### Host programs (30_encoding.md R69; 93_implementation_defined.md item 11) and the platform -/

theorem test_adapter_refuses : encryptProgram (List.replicate 20 0) (List.replicate 12 0) [] [] = .error .keyLength ∧
    encryptProgram (List.replicate 16 0) (List.replicate 11 0) [] [] = .error .nonceLength ∧
    decryptProgram (List.replicate 16 0) (List.replicate 12 0) [] (List.replicate 7 0) = .error .ciphertextLength :=
  ⟨rfl, rfl, rfl⟩

/-- The reads of a result of 2 bytes return them, and a decrypt that failed reads none. -/
theorem test_result_reads : (nextOf (runSteps 2 { State.reset with
      outLen := 2, ob := [(0, 0x68), (1, 0x69)], status := ⟨false, true, true, 0⟩
      inputs := decryptReads [2, 0x6] })).map (fun t => resultBytes 2 t.observed) = some [0x68, 0x69] ∧
    decryptReads [0, 0x32] = [] := by decide

/-- Two instances that read a byte nobody wrote use two draws. -/
theorem test_platform_draws : (match (⟨[{ State.reset with inputs := [.read 0x20000 .w8] },
      { State.reset with inputs := [.read 0x20000 .w8] }], 0⟩ : Platform).stepAt 0 with
    | .next p => (match p.stepAt 1 with | .next q => some (q.instances.map (·.observed)) | _ => none)
    | _ => none) = some [[(Config.bufInit 0).setWidth 32], [(Config.bufInit 1).setWidth 32]] := by
  have h : 0 < Config.inCap := by simp [Config.inCap]
  simp [Platform.stepAt, Platform.onInstance, step, agentStep, State.badState, State.turn, State.reset, hostStep,
    State.observe, hostRead, inRegisterBlock, readWindow, readWindowByte, Width.bytes, h, Memory.load1, Memory.get,
    Memory.unlisted, leBytes, phIdle, offAdBuf]

end Sys2Proof.Tests
end

section
/-! PROOFS. The byte view of the NFSR (10_state.md R21): each byte is a byte of one of the four words, and a byte write
replaces that byte and no other. -/

namespace Sys2Proof.Machine

/-- A byte write replaces bits `8j` to `8j+7` of the word. -/
theorem getLsbD_setWordByte (w : Word) (j : Nat) (v : Byte) (i : Nat) (hi : i < 32) :
    (setWordByte w j v).getLsbD i =
      if 8 * j ≤ i ∧ i < 8 * j + 8 then v.getLsbD (i - 8 * j) else w.getLsbD i := by
  have hmask : (0xFF : Word).getLsbD (i - 8 * j) = decide (i - 8 * j < 8) := by
    change ((BitVec.allOnes 8).setWidth 32).getLsbD (i - 8 * j) = _
    rw [BitVec.getLsbD_setWidth, BitVec.getLsbD_allOnes, decide_eq_true (by omega), Bool.true_and]
  simp only [setWordByte, BitVec.getLsbD_or, BitVec.getLsbD_and, BitVec.getLsbD_not, BitVec.getLsbD_shiftLeft,
    BitVec.getLsbD_setWidth, hmask]
  split
  · case isTrue h =>
    simp [hi, show ¬ i < 8 * j by omega, show i - 8 * j < 8 by omega, show i - 8 * j < 32 by omega]
  · case isFalse h =>
    rcases Nat.lt_or_ge i (8 * j) with hlow | hhigh
    · simp [hi, hlow]
    · have hpast : 8 ≤ i - 8 * j := by omega
      simp [hi, Nat.not_lt.mpr hpast, BitVec.getLsbD_of_ge v _ hpast]

/-- What a byte of a word reads after a byte write. -/
theorem wordByte_setWordByte (w : Word) (v : Byte) {j k : Nat} (hk : k < 4) :
    wordByte (setWordByte w j v) k = if k = j then v else wordByte w k := by
  refine BitVec.eq_of_getLsbD_eq fun i hi => ?_
  rw [getLsbD_wordByte, getLsbD_setWordByte w j v _ (by omega), decide_eq_true hi, Bool.true_and]
  split
  · case isTrue hbits =>
    obtain rfl : k = j := by omega
    simp
  · case isFalse hbits =>
    have hne : k ≠ j := by omega
    rw [if_neg hne, getLsbD_wordByte, decide_eq_true hi, Bool.true_and]

theorem Nfsr.word_setWord (s : Nfsr) (v : Word) {i k : Nat} (hi : i < 4) (hk : k < 4) :
    (s.setWord i v).word k = if k = i then v else s.word k := by
  interval_cases i <;> interval_cases k <;> rfl

/-- R21's index: `SB[4i+j]` is byte `j` of `S[i]`. -/
theorem Nfsr.byte_eq_byteOf_word (s : Nfsr) (i : Nat) {j : Nat} (hj : j < 4) :
    s.byte (4 * i + j) = byteOf (s.word i) j := by
  rw [Nfsr.byte, show (4 * i + j) / 4 = i by omega, show (4 * i + j) % 4 = j by omega]
  rfl

/-- A write of one byte of the view changes that byte and no other. -/
theorem Nfsr.byte_setByte (s : Nfsr) (v : Byte) {n m : Nat} (hn : n < 16) (hm : m < 16) :
    (s.setByte n v).byte m = if m = n then v else s.byte m := by
  have hword : (s.setByte n v).word (m / 4) =
      if m / 4 = n / 4 then setWordByte (s.word (n / 4)) (n % 4) v else s.word (m / 4) :=
    Nfsr.word_setWord s _ (by omega) (by omega)
  rw [Nfsr.byte, hword]
  by_cases hsame : m / 4 = n / 4
  · have hbyte : m % 4 = n % 4 ↔ m = n := by omega
    rw [if_pos hsame, wordByte_setWordByte _ v (show m % 4 < 4 by omega), Nfsr.byte, hsame]
    simp only [hbyte]
  · have hne : m ≠ n := by rintro rfl; exact hsame rfl
    rw [if_neg hsame, if_neg hne, Nfsr.byte]

/-- Settles O15: R21's index at each of the four words, and the byte written is the only one that changes. -/
theorem byteViewOverlaysTheWords : Obligations.ByteViewOverlaysTheWords := by
  intro s
  refine ⟨fun j hj => ⟨?_, s.byte_eq_byteOf_word 1 hj, s.byte_eq_byteOf_word 2 hj, s.byte_eq_byteOf_word 3 hj⟩,
    fun n m v hn hm => s.byte_setByte v hn hm⟩
  have h0 := s.byte_eq_byteOf_word 0 hj
  rwa [Nat.mul_zero, Nat.zero_add] at h0

end Sys2Proof.Machine
end

section
/-! PROOFS. Words and bytes of the buffers and of the NFSR (20_memory.md R44, R45, R47): a word load composes four
written bytes, a word store writes them back, and the byte loop of a partial chunk is one XOR into word3. -/

namespace Sys2Proof.Machine

/-! ### Words of a buffer -/

/-- A word load of four written bytes is their LE32 and draws nothing. -/
theorem Memory.loadWord_written {m : Memory} {o d : Nat} {b0 b1 b2 b3 : Byte} (h0 : Memory.get m o = some b0)
    (h1 : Memory.get m (o + 1) = some b1) (h2 : Memory.get m (o + 2) = some b2)
    (h3 : Memory.get m (o + 3) = some b3) : Memory.loadWord m o d = (le32 b0 b1 b2 b3, d) := by
  simp only [Memory.loadWord, Memory.load1_written h0, Memory.load1_written h1, Memory.load1_written h2,
    Memory.load1_written h3]

/-- ST32 lists the bytes of the word in rising order. -/
theorem getElem_st32 (w : Word) {j : Nat} (hj : j < 4) : (st32 w)[j]'hj = byteOf w j := by
  interval_cases j <;> rfl

/-- Byte `j` after a word store is byte `j` of the word. -/
theorem Memory.get_storeBytes_st32 (m : Memory) (o : Nat) (w : Word) {j : Nat} (hj : j < 4) :
    Memory.get (Memory.storeBytes m o (st32 w)) (o + j) = some (byteOf w j) := by
  rw [Memory.get_storeBytes_inside m o (st32 w) hj, getElem_st32 w hj]

/-- A word store is read back by a word load at the same offset. -/
theorem Memory.loadWord_storeBytes_st32 (m : Memory) (o d : Nat) (w : Word) :
    Memory.loadWord (Memory.storeBytes m o (st32 w)) o d = (w, d) := by
  have hget {j : Nat} (hj : j < 4) := Memory.get_storeBytes_st32 m o w hj
  have hload := Memory.loadWord_written (d := d) (hget (j := 0) (by omega)) (hget (j := 1) (by omega))
    (hget (j := 2) (by omega)) (hget (j := 3) (by omega))
  exact hload.trans (congrArg (·, d) (le32_wordBytes w))

/-- Settles O14: a load and a store of a word both go byte by byte, and LE32 of a word's bytes is the word. -/
theorem wordsAreLittleEndianInBuffers : Obligations.WordsAreLittleEndianInBuffers := by
  intro m o d
  exact ⟨fun b0 b1 b2 b3 h0 h1 h2 h3 => Memory.loadWord_written h0 h1 h2 h3,
    fun w => ⟨fun j hj => Memory.get_storeBytes_st32 m o w hj,
      fun a ha => Memory.get_storeBytes_outside m o (st32 w) ha,
      Memory.loadWord_storeBytes_st32 m o d w⟩⟩

/-! ### Bytes of a little-endian sum -/

theorem wordByte_xor (v w : Word) (j : Nat) : wordByte (v ^^^ w) j = wordByte v j ^^^ wordByte w j :=
  BitVec.extractLsb'_xor

/-- The first byte of a sum does not overlap the rest, so the sum is an XOR too. -/
theorem leBytes_cons_eq_xor (b : Byte) (bs : List Byte) :
    leBytes (b :: bs) = b.setWidth 32 ^^^ (leBytes bs <<< 8) := by
  refine BitVec.eq_of_getLsbD_eq fun i hi => ?_
  simp only [leBytes, BitVec.getLsbD_or, BitVec.getLsbD_xor, BitVec.getLsbD_setWidth, BitVec.getLsbD_shiftLeft]
  rcases Nat.lt_or_ge i 8 with hlow | hhigh
  · simp [hlow]
  · simp [BitVec.getLsbD_of_ge b i hhigh]

theorem wordByte_leBytes_cons_zero (b : Byte) (bs : List Byte) : wordByte (leBytes (b :: bs)) 0 = b := by
  refine BitVec.eq_of_getLsbD_eq fun i hi => ?_
  rw [getLsbD_wordByte, leBytes, BitVec.getLsbD_or, BitVec.getLsbD_setWidth, BitVec.getLsbD_shiftLeft]
  simp [hi, show i < 32 by omega]

theorem wordByte_leBytes_cons_succ (b : Byte) (bs : List Byte) {j : Nat} (hj : j + 1 < 4) :
    wordByte (leBytes (b :: bs)) (j + 1) = wordByte (leBytes bs) j := by
  refine BitVec.eq_of_getLsbD_eq fun i hi => ?_
  have hpast : b.getLsbD (8 * (j + 1) + i) = false := BitVec.getLsbD_of_ge b _ (by omega)
  rw [getLsbD_wordByte, leBytes, BitVec.getLsbD_or, BitVec.getLsbD_setWidth, BitVec.getLsbD_shiftLeft, hpast,
    getLsbD_wordByte]
  simp [show 8 * (j + 1) + i < 32 by omega, show ¬ 8 * (j + 1) + i < 8 by omega,
    show 8 * (j + 1) + i - 8 = 8 * j + i by omega]

/-- Byte `j` of a little-endian sum is its `j`-th byte, and 0 past the last. -/
theorem wordByte_leBytes (bs : List Byte) {j : Nat} (hj : j < 4) : wordByte (leBytes bs) j = bs[j]?.getD 0 := by
  induction bs generalizing j with
  | nil => simp [leBytes, wordByte]
  | cons b bs ih =>
    cases j with
    | zero => exact wordByte_leBytes_cons_zero b bs
    | succ j => rw [wordByte_leBytes_cons_succ b bs hj, ih (by omega), List.getElem?_cons_succ]

/-! ### The byte loop of a partial chunk -/

/-- XORing a byte in place is XORing the byte, shifted to its position, into the word. -/
theorem setWordByte_xor (w : Word) (j : Nat) (v : Byte) :
    setWordByte w j (wordByte w j ^^^ v) = w ^^^ (v.setWidth 32 <<< (8 * j)) := by
  refine BitVec.eq_of_getLsbD_eq fun i hi => ?_
  rw [getLsbD_setWordByte w j _ i hi]
  simp only [BitVec.getLsbD_xor, BitVec.getLsbD_shiftLeft, BitVec.getLsbD_setWidth, getLsbD_wordByte]
  split
  · case isTrue hbits =>
    simp [hi, show i - 8 * j < 8 by omega, show ¬ i < 8 * j by omega, show i - 8 * j < 32 by omega,
      show 8 * j + (i - 8 * j) = i by omega]
  · case isFalse hbits =>
    rcases Nat.lt_or_ge i (8 * j) with hlow | hhigh
    · simp [hlow]
    · simp [BitVec.getLsbD_of_ge v (i - 8 * j) (by omega)]

/-- `SB[12+j] <- SB[12+j] ^ v` on word3 (R21, R47). -/
theorem Nfsr.xorByte_word3 (s : Nfsr) (v : Byte) {j : Nat} (hj : j < 4) :
    s.xorByte (12 + j) v = { s with s3 := s.s3 ^^^ (v.setWidth 32 <<< (8 * j)) } := by
  rw [Nfsr.xorByte, Nfsr.setByte, Nfsr.byte, show (12 + j) / 4 = 3 by omega, show (12 + j) % 4 = j by omega,
    setWordByte_xor]
  rfl

/-- The byte loop from byte `j` on is one XOR of the little-endian sum, shifted to byte `j`, into word3 (R47). -/
theorem absorbBytes_eq (s : Nfsr) (j : Nat) (ds : List Byte) (h : j + ds.length ≤ 4) :
    absorbBytes s j ds = { s with s3 := s.s3 ^^^ (leBytes ds <<< (8 * j)) } := by
  induction ds generalizing s j with
  | nil => simp [absorbBytes, leBytes]
  | cons d ds ih =>
    have hlen : j + (ds.length + 1) ≤ 4 := h
    rw [absorbBytes, Nfsr.xorByte_word3 s d (show j < 4 by omega), ih _ _ (by omega), leBytes_cons_eq_xor,
      BitVec.shiftLeft_xor_distrib, ← BitVec.shiftLeft_add, BitVec.xor_assoc, Nat.mul_succ, Nat.add_comm 8]

/-- Byte `j` of word3 after the byte loop: the old byte XOR the chunk's, or the old byte past the chunk's end. -/
theorem byte_absorbBytes (s : Nfsr) (ds : List Byte) (h : ds.length ≤ 4) {j : Nat} (hj : j < 4) :
    (absorbBytes s 0 ds).byte (12 + j) = s.byte (12 + j) ^^^ ds[j]?.getD 0 := by
  have hword (t : Nfsr) : t.byte (12 + j) = wordByte t.s3 j := t.byte_eq_byteOf_word 3 hj
  rw [hword, hword, absorbBytes_eq s 0 ds (by omega), ← wordByte_leBytes ds hj, ← wordByte_xor]
  simp

/-- Settles O16: the byte loop is one XOR of the little-endian sum into word3, whose byte `j` is the chunk's byte `j`
below its length and 0 from there on. -/
theorem partialChunkGoesToTheLowBytes : Obligations.PartialChunkGoesToTheLowBytes := by
  intro s ds _ hlen
  refine ⟨?sum, fun j hj => ?inside, fun j hlow hj => ?past, fun j hj => s.byte_eq_byteOf_word 2 hj⟩
  case sum =>
    rw [absorbBytes_eq s 0 ds (by omega), Nat.mul_zero, BitVec.shiftLeft_zero]
  case inside =>
    rw [byte_absorbBytes s ds (by omega) (by omega), List.getElem?_eq_getElem hj, Option.getD_some]
  case past =>
    rw [byte_absorbBytes s ds (by omega) hj, List.getElem?_eq_none hlow, Option.getD_none]
    exact BitVec.xor_zero

end Sys2Proof.Machine
end

section
/-! PROOFS. The two levels of encoding (30_encoding.md R61, R65): a data word is one command by its two low bits, a
selector is one micro-operation by its phase and OP, and what is ignored or a fault before any meaning is asked. -/

namespace Sys2Proof.Machine

/-! ### The command word -/

/-- The bytes of a data word decode as the word does. -/
theorem decodeBytes_st32 (d : Word) : decodeBytes .command (st32 d) = .ok (decodeCommand d) :=
  congrArg (fun w => Except.ok (decodeCommand w)) (le32_wordBytes d)

/-- The two low bits of a word, START and OP of R60, as a number. -/
theorem and_three_eq_iff (d x : Word) : d &&& 0x3 = x ↔ d.toNat % 4 = x.toNat := by
  have hmod : (d &&& 0x3).toNat = d.toNat % 4 := Nat.and_two_pow_sub_one_eq_mod d.toNat 2
  rw [← BitVec.toNat_inj, hmod]

/-- The low bit of a word, START of R60, as a number. -/
theorem and_one_eq_iff (d x : Word) : d &&& 0x1 = x ↔ d.toNat % 2 = x.toNat := by
  have hmod : (d &&& 0x1).toNat = d.toNat % 2 := Nat.and_two_pow_sub_one_eq_mod d.toNat 1
  rw [← BitVec.toNat_inj, hmod]

/-- The match bits of the three rows of R61 cover every data word. -/
theorem command_rows_cover (d : Word) : d &&& 0x3 = 0x1 ∨ d &&& 0x3 = 0x3 ∨ d &&& 0x1 = 0x0 := by
  simp only [and_three_eq_iff, and_one_eq_iff, BitVec.reduceToNat]
  omega

theorem decodeCommand_encrypt {d : Word} (h : d &&& 0x3 = 0x1) : decodeCommand d = .encrypt d := if_pos h

theorem decodeCommand_decrypt {d : Word} (h : d &&& 0x3 = 0x3) : decodeCommand d = .decrypt d := by
  have hne : d &&& 0x3 ≠ 0x1 := by rw [h]; decide
  rw [decodeCommand, if_neg hne, if_pos h]

theorem decodeCommand_setop {d : Word} (h : d &&& 0x1 = 0x0) : decodeCommand d = .setop d := by
  have hodd (x : Word) (hx : x.toNat % 2 = 1) : d &&& 0x3 ≠ x := by
    rw [Ne, and_three_eq_iff]
    have heven : d.toNat % 2 = 0 := (and_one_eq_iff d 0x0).mp h
    omega
  rw [decodeCommand, if_neg (hodd 0x1 rfl), if_neg (hodd 0x3 rfl)]

/-- A host write while BUSY = 1 only leaves the host's list, whatever its offset, width and value (R48, R61). -/
theorem hostStep_write_of_busy {s : State} {off : BitVec 18} {w : Width} {v : Word} {rest : List HostInput}
    (hi : s.inputs = .write off w v :: rest) (hb : s.status.busy = true) :
    hostStep s = .next { s with inputs := rest } := by
  simp only [hostStep, hi]
  exact if_pos hb

/-- Settles O2: the two low bits leave the three rows and no fourth, and each row's match bits exclude the rows the
decoder tries before it. -/
theorem everyDataWordIsOneCommand : Obligations.EveryDataWordIsOneCommand := by
  refine ⟨fun d => ⟨fun h => ?_, fun h => ?_, fun h => ?_, command_rows_cover d⟩,
    fun _ _ _ hi hb => hostStep_write_of_busy hi hb⟩
  · rw [decodeBytes_st32, decodeCommand_encrypt h]
  · rw [decodeBytes_st32, decodeCommand_decrypt h]
  · rw [decodeBytes_st32, decodeCommand_setop h]

/-! ### The selector -/

/-- The phase codes 11..15 select nothing, with either OP (R65). -/
theorem decodeSelector_unreachable (op : BitVec 1) {ph : BitVec 4} (h : 11 ≤ ph.toNat) :
    decodeSelector (selectorOf op ph) = .error .unreachablePhase := by
  rw [decodeSelector, selectorPhase_selectorOf]
  split
  case h_12 => rfl
  all_goals omega

theorem step_of_badState {s : State} {f : Fault} (h : s.badState = some f) : step s = .fault f := by
  rw [step, agentStep, h]

/-- A step of a state whose PH is an unused code is the fault of R65, before any agent moves. -/
theorem step_of_unreachablePhase {s : State} (h : 11 ≤ s.ph.toNat) : step s = .fault .unreachablePhase :=
  step_of_badState (if_pos h)

/-- Settles O3: the selector byte reads back OP and PH, and the table is looked up at PH; the codes past 10 match no
row, and a state at one of them is bad before the turn is asked. -/
theorem selectorTableIsDecoded : Obligations.SelectorTableIsDecoded := by
  unfold Obligations.SelectorTableIsDecoded
  simp only [decodeBytes_selectorByte]
  refine ⟨fun op => ?maskedRows, rfl, rfl, rfl, rfl, rfl, rfl,
    fun op _ h => decodeSelector_unreachable op h, fun _ h => step_of_unreachablePhase h⟩
  case maskedRows => simp [decodeSelector]

end Sys2Proof.Machine
end

section
/-! PROOFS. The Register Engine (40_register_engine.md R70 to R75, R78). A tap is a window of the 128-bit register, and
no bit-step of a batch taps a bit that the same batch brought in, so a batch's feedback word is its 32 bits at once. -/

namespace Sys2Proof.Machine

/-! ### Bits of four words side by side -/

/-- Bit `32i + j` of four words side by side, the first lowest, is bit `j` of word `i` (R20, R75). -/
theorem getLsbD_fourWords (w : Nat → Word) {i j : Nat} (hi : i < 4) (hj : j < 32) :
    (w 3 ++ w 2 ++ w 1 ++ w 0).getLsbD (32 * i + j) = (w i).getLsbD j := by
  simp only [BitVec.getLsbD_append]
  interval_cases i <;> grind

/-- Bit `32i + j` of the register is bit `j` of `S[i]` (R20). -/
theorem Nfsr.getLsbD_bits (s : Nfsr) {i j : Nat} (hi : i < 4) (hj : j < 32) :
    s.bits.getLsbD (32 * i + j) = (s.word i).getLsbD j :=
  getLsbD_fourWords s.word hi hj

/-- The key word of a batch depends on its index modulo 4 only (R71). -/
theorem Key.word_mod_four (k : Key) (b : Nat) : k.word (b % 4) = k.word b := by
  rw [Key.word, Nat.mod_mod, ← Key.word]

/-- Bit-step `i` of batch `b` uses bit `i` of the batch's key word (R71, R75). -/
theorem Key.getLsbD_bits (k : Key) (b : Nat) {i : Nat} (hi : i < 32) :
    k.bits.getLsbD ((32 * b + i) % 128) = (k.word b).getLsbD i := by
  rw [← k.word_mod_four, show (32 * b + i) % 128 = 32 * (b % 4) + i by omega]
  exact getLsbD_fourWords k.word (Nat.mod_lt b (by omega)) hi

/-- Two adjacent words shifted together are the 32-bit window that starts `n` bits into the lower one. -/
theorem Nfsr.getLsbD_window (s : Nfsr) {i n j : Nat} (hi : i < 3) (hn : n < 32) (hj : j < 32) :
    ((s.word i >>> n) ||| (s.word (i + 1) <<< (32 - n))).getLsbD j = s.bits.getLsbD (32 * i + n + j) := by
  rw [BitVec.getLsbD_or, BitVec.getLsbD_ushiftRight, BitVec.getLsbD_shiftLeft]
  rcases Nat.lt_or_ge (n + j) 32 with hlow | hhigh
  · rw [Nat.add_assoc, s.getLsbD_bits (by omega) hlow]
    simp [show j < 32 - n by omega]
  · rw [show 32 * i + n + j = 32 * (i + 1) + (j - (32 - n)) by omega, s.getLsbD_bits (by omega) (by omega)]
    simp [hj, show ¬ j < 32 - n by omega, hhigh]

theorem getLsbD_tap1 (s : Nfsr) {j : Nat} (hj : j < 32) : (tap1 s).getLsbD j = s.bits.getLsbD (47 + j) :=
  s.getLsbD_window (i := 1) (n := 15) (by omega) (by omega) hj

theorem getLsbD_tap2 (s : Nfsr) {j : Nat} (hj : j < 32) : (tap2 s).getLsbD j = s.bits.getLsbD (70 + j) :=
  s.getLsbD_window (i := 2) (n := 6) (by omega) (by omega) hj

theorem getLsbD_tap3 (s : Nfsr) {j : Nat} (hj : j < 32) : (tap3 s).getLsbD j = s.bits.getLsbD (85 + j) :=
  s.getLsbD_window (i := 2) (n := 21) (by omega) (by omega) hj

theorem getLsbD_tap4 (s : Nfsr) {j : Nat} (hj : j < 32) : (tap4 s).getLsbD j = s.bits.getLsbD (91 + j) :=
  s.getLsbD_window (i := 2) (n := 27) (by omega) (by omega) hj

/-- Settles O9: a tap ORs two adjacent words shifted together, which is a window of the register. -/
theorem tapsAreRegisterWindows : Obligations.TapsAreRegisterWindows :=
  fun s => ⟨rfl, rfl, rfl, rfl,
    fun _ hj => ⟨getLsbD_tap1 s hj, getLsbD_tap2 s hj, getLsbD_tap3 s hj, getLsbD_tap4 s hj⟩⟩

/-! ### One batch -/

/-- The key word in use is the one listed at the batch's index modulo 4. -/
theorem Key.getElem?_words (k : Key) (b : Nat) : [k.k0, k.k1, k.k2, k.k3][b % 4]? = some (k.word b) := by
  rw [← k.word_mod_four]
  have hb : b % 4 < 4 := Nat.mod_lt _ (by omega)
  interval_cases b % 4 <;> rfl

/-- Settles O10: the listed key word is the one `feedback` brings in. -/
theorem batchRotatesInTheFeedback : Obligations.BatchRotatesInTheFeedback := by
  intro s k b w hw
  obtain rfl : k.word b = w := Option.some.inj ((k.getElem?_words b).symm.trans hw)
  rfl

/-- The oldest word only enters the feedback by XOR: no tap reaches it. -/
theorem feedback_eq_xor (s : Nfsr) (k : Key) (b : Nat) :
    feedback s k b = s.s0 ^^^ feedback ⟨0, s.s1, s.s2, s.s3⟩ k b := by
  simp only [feedback, BitVec.ofNat_eq_ofNat, BitVec.zero_xor, BitVec.xor_assoc]
  rfl

/-- R78's inverse recovers the oldest word by XORing out what the batch XORed in. -/
theorem unbatch_eq (s : Nfsr) (k : Key) (b : Nat) :
    unbatch s k b = ⟨s.s3 ^^^ feedback ⟨0, s.s0, s.s1, s.s2⟩ k b, s.s0, s.s1, s.s2⟩ := by
  simp only [unbatch, feedback, BitVec.ofNat_eq_ofNat, BitVec.zero_xor, BitVec.xor_assoc]

theorem unbatch_batch (s : Nfsr) (k : Key) (b : Nat) : unbatch (batch s k b) k b = s := by
  rw [unbatch_eq, batch, feedback_eq_xor s, BitVec.xor_assoc, BitVec.xor_self, BitVec.xor_zero]

theorem batch_unbatch (s : Nfsr) (k : Key) (b : Nat) : batch (unbatch s k b) k b = s := by
  rw [unbatch_eq, batch, feedback_eq_xor ⟨s.s3 ^^^ _, s.s0, s.s1, s.s2⟩, BitVec.xor_assoc, BitVec.xor_self,
    BitVec.xor_zero]

theorem batch_bijective (k : Key) (b : Nat) : Function.Bijective fun s : Nfsr => batch s k b :=
  Function.bijective_iff_has_inverse.mpr
    ⟨fun s => unbatch s k b, fun s => unbatch_batch s k b, fun s => batch_unbatch s k b⟩

theorem batchesFrom_bijective (k : Key) (b n : Nat) : Function.Bijective (batchesFrom k b n) := by
  induction n generalizing b with
  | zero => exact Function.bijective_id
  | succ n ih => exact (ih (b + 1)).comp (batch_bijective k b)

/-- Settles O13: the inverse XORs out the feedback that the batch XORed in, and batches compose. -/
theorem batchAndAdvanceAreInvertible : Obligations.BatchAndAdvanceAreInvertible :=
  fun k => ⟨fun s b => ⟨unbatch_batch s k b, batch_unbatch s k b⟩, fun n => batchesFrom_bijective k 0 n⟩

/-! ### Bit-steps -/

theorem getLsbD_bitStep (r : BitVec 128) (keyBit : Bool) {p : Nat} (hp : p < 128) :
    (bitStep r keyBit).getLsbD p = if p < 127 then r.getLsbD (p + 1) else bitFeedback r keyBit := by
  rw [bitStep, BitVec.getLsbD_append, BitVec.getLsbD_extractLsb']
  split
  · case isTrue hlow => simp [hlow, Nat.add_comm]
  · case isFalse hhigh =>
    obtain rfl : p = 127 := by omega
    simp

theorem bitStepsFrom_add (k : Key) (j m n : Nat) (r : BitVec 128) :
    bitStepsFrom k j (m + n) r = bitStepsFrom k (j + m) n (bitStepsFrom k j m r) := by
  induction m generalizing j r with
  | zero => rw [Nat.zero_add]; rfl
  | succ m ih => rw [Nat.succ_add, bitStepsFrom, ih, bitStepsFrom, Nat.add_right_comm, Nat.add_assoc]

/-- The register with `i` bits of the incoming word `f` shifted in: what it holds between two bit-steps of a batch. -/
def Nfsr.shifted (s : Nfsr) (f : Word) (i : Nat) : BitVec 128 := (f ++ s.bits).extractLsb' i 128

/-- A bit of the register inside a batch: an old one, or one of the incoming word's. -/
theorem Nfsr.getLsbD_shifted (s : Nfsr) (f : Word) (i : Nat) {p : Nat} (hp : p < 128) :
    (s.shifted f i).getLsbD p = if i + p < 128 then s.bits.getLsbD (i + p) else f.getLsbD (i + p - 128) := by
  rw [Nfsr.shifted, BitVec.getLsbD_extractLsb', decide_eq_true hp, Bool.true_and, BitVec.getLsbD_append]

theorem Nfsr.shifted_zero (s : Nfsr) (f : Word) : s.shifted f 0 = s.bits := by
  refine BitVec.eq_of_getLsbD_eq fun p hp => ?_
  rw [s.getLsbD_shifted f 0 hp, Nat.zero_add, if_pos hp]

/-- With the whole word shifted in, the words have moved down one place. -/
theorem Nfsr.shifted_32 (s : Nfsr) (f : Word) : s.shifted f 32 = Nfsr.bits ⟨s.s1, s.s2, s.s3, f⟩ := by
  refine BitVec.eq_of_getLsbD_eq fun p hp => ?_
  have hword : p / 32 < 4 := by omega
  have hbit : p % 32 < 32 := Nat.mod_lt _ (by omega)
  have hnew := Nfsr.getLsbD_bits ⟨s.s1, s.s2, s.s3, f⟩ hword hbit
  rw [Nat.div_add_mod] at hnew
  rw [s.getLsbD_shifted f 32 hp, hnew]
  split
  · case isTrue hold =>
    rw [show 32 + p = 32 * (p / 32 + 1) + p % 32 by omega, s.getLsbD_bits (by omega) hbit]
    have hmoved : p / 32 < 3 := by omega
    interval_cases p / 32 <;> rfl
  · case isFalse hin =>
    rw [show p / 32 = 3 by omega, show 32 + p - 128 = p % 32 by omega]
    rfl

/-- Bit `i` of the feedback word is the bit feedback of the register after `i` bit-steps of the batch: its highest tap
is bit `91 + i` of the old register, which is still below bit 128 (R71, R75). -/
theorem getLsbD_feedback (s : Nfsr) (k : Key) (b : Nat) (f : Word) {i : Nat} (hi : i < 32) :
    (feedback s k b).getLsbD i = bitFeedback (s.shifted f i) (k.bits.getLsbD ((32 * b + i) % 128)) := by
  have hold {p : Nat} (hp : p < 96) : (s.shifted f i).getLsbD p = s.bits.getLsbD (p + i) := by
    rw [s.getLsbD_shifted f i (by omega), if_pos (by omega), Nat.add_comm]
  have hword : s.bits.getLsbD (0 + i) = s.s0.getLsbD i := s.getLsbD_bits (i := 0) (by omega) hi
  rw [bitFeedback, hold (by omega), hold (by omega), hold (by omega), hold (by omega), hold (by omega), hword,
    k.getLsbD_bits b hi, ← getLsbD_tap1 s hi, ← getLsbD_tap2 s hi, ← getLsbD_tap3 s hi, ← getLsbD_tap4 s hi]
  simp [feedback, hi]

/-- One bit-step inside a batch shifts in one more bit of the batch's feedback word. -/
theorem bitStep_shifted (s : Nfsr) (k : Key) (b : Nat) {i : Nat} (hi : i < 32) :
    bitStep (s.shifted (feedback s k b) i) (k.bits.getLsbD ((32 * b + i) % 128)) =
      s.shifted (feedback s k b) (i + 1) := by
  refine BitVec.eq_of_getLsbD_eq fun p hp => ?_
  rw [getLsbD_bitStep _ _ hp, s.getLsbD_shifted _ (i + 1) hp]
  split
  · case isTrue hmoved =>
    rw [s.getLsbD_shifted _ i (by omega), Nat.add_right_comm, Nat.add_assoc]
  · case isFalse hin =>
    rw [if_neg (by omega), ← getLsbD_feedback s k b _ hi, show i + 1 + p - 128 = i by omega]

theorem bitStepsFrom_shifted (s : Nfsr) (k : Key) (b : Nat) {i m : Nat} (h : i + m ≤ 32) :
    bitStepsFrom k (32 * b + i) m (s.shifted (feedback s k b) i) = s.shifted (feedback s k b) (i + m) := by
  induction m generalizing i with
  | zero => rfl
  | succ m ih =>
    rw [bitStepsFrom, bitStep_shifted s k b (by omega), Nat.add_assoc, ih (by omega), Nat.add_right_comm, Nat.add_assoc]

/-- A batch is its 32 bit-steps (R72, R75). -/
theorem bits_batch (s : Nfsr) (k : Key) (b : Nat) : (batch s k b).bits = bitStepsFrom k (32 * b) 32 s.bits := by
  have hsteps := bitStepsFrom_shifted s k b (i := 0) (m := 32) (by omega)
  rw [s.shifted_zero, Nat.zero_add, s.shifted_32, Nat.add_zero] at hsteps
  exact hsteps.symm

theorem bits_batchesFrom (s : Nfsr) (k : Key) (b n : Nat) :
    (batchesFrom k b n s).bits = bitStepsFrom k (32 * b) (32 * n) s.bits := by
  induction n generalizing b s with
  | zero => rfl
  | succ n ih => rw [batchesFrom, ih, bits_batch, Nat.mul_succ 32 n, Nat.add_comm _ 32, bitStepsFrom_add, Nat.mul_succ]

/-- `advance` on a multiple of 32 performs that many batches (R74). -/
theorem advance_mul (s : Nfsr) (k : Key) (n : Nat) : advance s k (32 * n) = some (batches s k n) := by
  rw [advance, if_pos (Nat.mul_mod_right 32 n), Nat.mul_div_cancel_left n (by omega)]

/-- Settles O12: each batch is its 32 bit-steps, and batches and bit-steps are counted along together. -/
theorem advanceIsTheBitSerialRegister : Obligations.AdvanceIsTheBitSerialRegister := by
  intro s k n r hr
  obtain rfl : batches s k n = r := Option.some.inj ((advance_mul s k n).symm.trans hr)
  exact bits_batchesFrom s k 0 n

end Sys2Proof.Machine
end

section
/-! PROOFS. Initialization and associated-data absorption (41_init_ad.md R80 to R85): the register each micro-operation
leaves, through the exposed `advance`, and the four steps from KEYLOAD to the first input phase. -/

namespace Sys2Proof.Machine

/-! ### The advances and the next phase, as the rules state them -/

theorem advance_1280 (s : Nfsr) (k : Key) : advance s k 1280 = some (advanceLong s k) := advance_mul s k 40

/-- A domain constant into word1 and 640 steps, by `advance`, is the domain-separation step (R77). -/
theorem afterTag_640 (s : State) (tag : Word) : afterTag s tag 640 = some (tagShort s.nfsr s.key tag) :=
  advance_mul (s.nfsr.xorWord1 tag) s.key 20

theorem nextInput_eq_phaseAfterInput (s : State) :
    s.nextInput = phaseAfterInput s.adp s.adLen.toNat s.mp s.ml := rfl

/-- Once ADP has reached AD_LEN, no AD phase follows (R83, R104). -/
theorem phaseAfterInput_adDone (adLen mp ml : Nat) :
    phaseAfterInput adLen adLen mp ml = if mp + 4 ≤ ml then 6 else if mp < ml then 7 else 8 := by
  rw [phaseAfterInput, if_neg (by omega), if_neg (Nat.lt_irrefl adLen)]

/-! ### KEYLOAD and NONCE -/

/-- Settles O29: KEYLOAD's long advance is the exposed `advance` at 1280 steps. -/
theorem keyloadAdvancesFromZero : Obligations.KeyloadAdvancesFromZero :=
  fun _ s => ⟨advanceLong ⟨0, 0, 0, 0⟩ s.key, advance_1280 _ _, rfl⟩

/-- NONCE before the third word: the word is absorbed and NONCE follows. -/
theorem execNonce_of_more {s : State} {w : Word} (hw : s.nonceWord = some w) (hn : s.nidx + 1 ≠ 3) :
    execNonce s =
      .next { s with nfsr := absorbNonceWord s.key s.nfsr w, nidx := s.nidx + 1, ph := phNonce } := by
  rw [execNonce, hw]
  exact congrArg Host.Outcome.next (if_neg hn)

theorem execNonce_of_first {s : State} (h : s.nidx = 0) :
    execNonce s = .next { s with nfsr := absorbNonceWord s.key s.nfsr s.nonce.n0, nidx := 1, ph := phNonce } := by
  rw [execNonce_of_more (w := s.nonce.n0) (by simp [State.nonceWord, h]) (by omega), h]

theorem execNonce_of_second {s : State} (h : s.nidx = 1) :
    execNonce s = .next { s with nfsr := absorbNonceWord s.key s.nfsr s.nonce.n1, nidx := 2, ph := phNonce } := by
  rw [execNonce_of_more (w := s.nonce.n1) (by simp [State.nonceWord, h]) (by omega), h]

/-- NONCE with the third word: the word is absorbed and NEXT_INPUT follows. -/
theorem execNonce_of_third {s : State} (h : s.nidx = 2) :
    execNonce s =
      .next { s with
        nfsr := absorbNonceWord s.key s.nfsr s.nonce.n2, nidx := 3
        ph := phaseAfterInput s.adp s.adLen.toNat s.mp s.ml } := by
  have hw : s.nonceWord = some s.nonce.n2 := by simp [State.nonceWord, h]
  rw [execNonce, hw, h]
  rfl

/-- Settles O30: each value of NIDX names its word, and only the third leaves NONCE. -/
theorem nonceAbsorbsEachWord : Obligations.NonceAbsorbsEachWord :=
  fun _ s => ⟨tagShort s.nfsr s.key Config.fbNonce, afterTag_640 s Config.fbNonce,
    execNonce_of_first, execNonce_of_second, execNonce_of_third⟩

/-! ### AD_FULL and AD_PART -/

/-- Settles O31: under its precondition AD_FULL absorbs the word after the domain-separation step. -/
theorem adFullAbsorbsAWord : Obligations.AdFullAbsorbsAWord :=
  fun _ s hpre => ⟨tagShort s.nfsr s.key Config.fbAd, afterTag_640 s Config.fbAd, if_pos hpre⟩

/-- Settles O32: the chunk of r bytes is one XOR of its little-endian sum into word3, and with ADP at AD_LEN only the
message length decides the next phase. -/
theorem adPartAbsorbsTheChunk : Obligations.AdPartAbsorbsTheChunk := by
  intro op s r hr hlow hhigh
  refine ⟨tagShort s.nfsr s.key Config.fbAd, afterTag_640 s Config.fbAd, ?_⟩
  have hrest : s.adRest = r := by rw [State.adRest]; omega
  have hlen : 0 + (Memory.loadBytes s.ab s.adp r s.draws).1.length ≤ 4 := by rw [Memory.loadBytes_length]; omega
  simp only [exec, execAdPart, State.adChunk, hrest, if_pos (And.intro hlow hhigh), absorbBytes_eq _ 0 _ hlen,
    Nat.mul_zero, BitVec.shiftLeft_zero, State.enterNextInput, nextInput_eq_phaseAfterInput, phaseAfterInput_adDone]
  rfl

/-! ### The run from KEYLOAD to the first input phase -/

/-- With the host silent, a step from a good state is the micro-operation the selector names. -/
theorem step_of_fetch {s : State} {i : Instr} (hin : s.inputs = []) (hgood : s.badState = none)
    (hf : s.fetch = .ok i) : step s = exec i s := by
  rw [step, agentStep, hgood]
  simp only [turn_of_noInputs hin, engineStep, hf]

theorem step_keyload {s : State} (hp : s.ph = phKeyload) (hin : s.inputs = []) (herr : s.status.err.toNat ≤ 3) :
    step s = execKeyload s :=
  step_of_fetch (i := .keyload s.ctrlOp) hin (badState_eq_none.2 ⟨by simp [hp], herr⟩)
    (by simp [fetch_eq, decodeSelector, hp])

theorem step_nonce {s : State} (hp : s.ph = phNonce) (hin : s.inputs = []) (herr : s.status.err.toNat ≤ 3) :
    step s = execNonce s :=
  step_of_fetch (i := .nonce s.ctrlOp) hin (badState_eq_none.2 ⟨by simp [hp], herr⟩)
    (by simp [fetch_eq, decodeSelector, hp])

theorem runSteps_succ {s t : State} (n : Nat) (h : step s = .next t) : runSteps (n + 1) s = runSteps n t := by
  simp only [runSteps, Host.Core.run, core, h]

/-- absorbN of R85 for the three nonce words in order. -/
def absorbNonce (k : Key) (n : Nonce) (s : Nfsr) : Nfsr :=
  absorbNonceWord k (absorbNonceWord k (absorbNonceWord k s n.n0) n.n1) n.n2

theorem initState_eq_absorbNonce (k : Key) (n : Nonce) :
    initState k n = absorbNonce k n (advanceLong ⟨0, 0, 0, 0⟩ k) := rfl

/-- Three steps from NONCE with NIDX = 0 absorb the nonce and leave for NEXT_INPUT. -/
theorem runSteps_nonces {s : State} (hp : s.ph = phNonce) (hn : s.nidx = 0) (hin : s.inputs = [])
    (herr : s.status.err.toNat ≤ 3) :
    runSteps 3 s = .next { s with
      nfsr := absorbNonce s.key s.nonce s.nfsr, nidx := 3
      ph := phaseAfterInput s.adp s.adLen.toNat s.mp s.ml } := by
  have hfirst := (step_nonce hp hin herr).trans (execNonce_of_first hn)
  rw [runSteps_succ 2 hfirst]
  have hsecond := (step_nonce (s := { s with
    nfsr := absorbNonceWord s.key s.nfsr s.nonce.n0, nidx := 1, ph := phNonce }) rfl hin herr).trans
    (execNonce_of_second rfl)
  rw [runSteps_succ 1 hsecond]
  have hthird := (step_nonce (s := { s with
    nfsr := absorbNonceWord s.key (absorbNonceWord s.key s.nfsr s.nonce.n0) s.nonce.n1
    nidx := 2, ph := phNonce }) rfl hin herr).trans (execNonce_of_third rfl)
  rw [runSteps_succ 0 hthird]
  rfl

/-- Settles O33: KEYLOAD leaves the key's long advance, and the three NONCE steps absorb the nonce into it. -/
theorem initializationDependsOnKeyAndNonce : Obligations.InitializationDependsOnKeyAndNonce := by
  intro s hp hn hin herr
  have hkey := step_keyload hp hin herr
  rw [execKeyload] at hkey
  have hrun := (runSteps_succ 3 hkey).trans (runSteps_nonces rfl hn hin herr)
  exact ⟨_, hrun, (initState_eq_absorbNonce s.key s.nonce).symm, rfl⟩

end Sys2Proof.Machine
end

section
/-! PROOFS. The message transform (42_message.md R90 to R93): what each micro-operation leaves in the register and in
OB, through the exposed `advance`; the byte loop of a partial chunk takes its keystream from word2, which no byte of the
loop changes. -/

namespace Sys2Proof.Machine

/-- A domain constant into word1 and 1280 steps, by `advance`, is the domain-separation step (R77). -/
theorem afterTag_1280 (s : State) (tag : Word) : afterTag s tag 1280 = some (tagLong s.nfsr s.key tag) :=
  advance_1280 (s.nfsr.xorWord1 tag) s.key

/-! ### Full blocks -/

/-- Settles O34: under its precondition MSG_FULL_ENC stores word2 XOR the plaintext word, byte by byte at MP. -/
theorem msgFullEncEncryptsAWord : Obligations.MsgFullEncEncryptsAWord :=
  fun s hpre => ⟨tagLong s.nfsr s.key Config.fbMsg, _, afterTag_1280 s Config.fbMsg, if_pos hpre, rfl,
    fun _ hj => Memory.get_storeBytes_st32 s.ob s.mp _ hj, fun _ ha => Memory.get_storeBytes_outside s.ob s.mp _ ha⟩

/-- Settles O35: under its precondition MSG_FULL_DEC stores the word it absorbs, byte by byte at MP. -/
theorem msgFullDecRecoversAWord : Obligations.MsgFullDecRecoversAWord :=
  fun s hpre => ⟨tagLong s.nfsr s.key Config.fbMsg, _, _, afterTag_1280 s Config.fbMsg, if_pos hpre, rfl, rfl,
    fun _ hj => Memory.get_storeBytes_st32 s.ob s.mp _ hj, fun _ ha => Memory.get_storeBytes_outside s.ob s.mp _ ha⟩

/-! ### The byte loops of a partial chunk -/

/-- Byte `8 + j` of the view is the keystream byte `j`, a byte of word2 (R21, R92). -/
theorem Nfsr.byte_word2 (s : Nfsr) {j : Nat} (hj : j < 4) : s.byte (8 + j) = byteOf s.s2 j :=
  s.byte_eq_byteOf_word 2 hj

/-- Absorbing a byte into word3 leaves the keystream word as it is (R47). -/
theorem Nfsr.xorByte_word3_s2 (s : Nfsr) (v : Byte) {j : Nat} (hj : j < 4) : (s.xorByte (12 + j) v).s2 = s.s2 := by
  rw [s.xorByte_word3 v hj]

/-- Bytes XOR the keystream bytes of the word `w` from byte `j` on. -/
def xorKeystream (w : Word) (j : Nat) (bs : List Byte) : List Byte := bs.mapIdx fun i b => b ^^^ byteOf w (j + i)

theorem xorKeystream_zero (w : Word) (bs : List Byte) :
    xorKeystream w 0 bs = bs.mapIdx fun i b => b ^^^ byteOf w i := by
  simp only [xorKeystream, Nat.zero_add]

theorem xorKeystream_cons (w : Word) (j : Nat) (b : Byte) (bs : List Byte) :
    xorKeystream w j (b :: bs) = (b ^^^ byteOf w j) :: xorKeystream w (j + 1) bs := by
  simp only [xorKeystream, List.mapIdx_cons, Nat.add_zero, Nat.add_assoc, Nat.add_comm 1]

@[simp] theorem xorKeystream_length (w : Word) (j : Nat) (bs : List Byte) :
    (xorKeystream w j bs).length = bs.length :=
  List.length_mapIdx

/-- The byte loop of MSG_PART_ENC absorbs the bytes and answers each XOR its keystream byte (R92). -/
theorem encryptBytes_eq (s : Nfsr) (j : Nat) (xs : List Byte) (h : j + xs.length ≤ 4) :
    encryptBytes s j xs = (absorbBytes s j xs, xorKeystream s.s2 j xs) := by
  induction xs generalizing s j with
  | nil => rfl
  | cons x xs ih =>
    have hlen : j + (xs.length + 1) ≤ 4 := h
    have hj : j < 4 := by omega
    rw [encryptBytes, ih _ _ (by omega), s.xorByte_word3_s2 x hj, s.byte_word2 hj, absorbBytes, xorKeystream_cons,
      BitVec.xor_comm x]

/-- The byte loop of MSG_PART_DEC answers each byte XOR its keystream byte, and absorbs what it answers (R93). -/
theorem decryptBytes_eq (s : Nfsr) (j : Nat) (ys : List Byte) (h : j + ys.length ≤ 4) :
    decryptBytes s j ys = (absorbBytes s j (xorKeystream s.s2 j ys), xorKeystream s.s2 j ys) := by
  induction ys generalizing s j with
  | nil => rfl
  | cons y ys ih =>
    have hlen : j + (ys.length + 1) ≤ 4 := h
    have hj : j < 4 := by omega
    rw [decryptBytes, ih _ _ (by omega), s.xorByte_word3_s2 _ hj, s.byte_word2 hj, xorKeystream_cons, absorbBytes]

/-! ### Partial chunks -/

/-- The chunk's bytes and then its length change word1 and word3 only (R92, R93). -/
theorem absorbBytes_xorWord1 (s : Nfsr) (ps : List Byte) (v : Word) (h : ps.length ≤ 4) :
    (absorbBytes s 0 ps).xorWord1 v = { s with s1 := s.s1 ^^^ v, s3 := s.s3 ^^^ leBytes ps } := by
  rw [absorbBytes_eq s 0 ps (by omega), Nat.mul_zero, BitVec.shiftLeft_zero, Nfsr.xorWord1]

/-- What the two partial micro-operations leave of `s`: the domain-separation step, `r` plaintext bytes `ps` absorbed,
the bytes `out` stored at MP, and the input read to its end. -/
def State.afterMsgPart (s : State) (r : Nat) (ps out : List Byte) : State :=
  let n := tagLong s.nfsr s.key Config.fbMsg
  { s with
    nfsr := { n with s1 := n.s1 ^^^ BitVec.ofNat 32 r, s3 := n.s3 ^^^ leBytes ps }
    ob := Memory.storeBytes s.ob s.mp out
    mp := s.ml
    draws := (Memory.loadBytes s.ib s.mp r s.draws).2
    ph := phaseAfterInput s.adp s.adLen.toNat s.ml s.ml }

theorem State.msgRest_eq {s : State} {r : Nat} (hr : s.mp + r = s.ml) : s.msgRest = r := by
  rw [State.msgRest]; omega

/-- MSG_PART_ENC under its precondition: the bytes read are absorbed, and stored XOR the keystream (R92). -/
theorem execMsgPartEnc_of_rest {s : State} {r : Nat} (hr : s.mp + r = s.ml) (hlow : 1 ≤ r) (hhigh : r ≤ 3)
    {xs : List Byte} (hxs : (Memory.loadBytes s.ib s.mp r s.draws).1 = xs) :
    execMsgPartEnc s =
      .next (s.afterMsgPart r xs (xorKeystream (tagLong s.nfsr s.key Config.fbMsg).s2 0 xs)) := by
  have hlen : xs.length = r := by rw [← hxs, Memory.loadBytes_length]
  simp only [execMsgPartEnc, State.msgChunk, State.msgRest_eq hr, if_pos (And.intro hlow hhigh), hxs]
  rw [encryptBytes_eq _ 0 xs (by omega), absorbBytes_xorWord1 _ xs _ (by omega)]
  rfl

/-- MSG_PART_DEC under its precondition: the bytes read XOR the keystream are absorbed and stored (R93). -/
theorem execMsgPartDec_of_rest {s : State} {r : Nat} (hr : s.mp + r = s.ml) (hlow : 1 ≤ r) (hhigh : r ≤ 3)
    {ps : List Byte} (hps : xorKeystream (tagLong s.nfsr s.key Config.fbMsg).s2 0
      (Memory.loadBytes s.ib s.mp r s.draws).1 = ps) :
    execMsgPartDec s = .next (s.afterMsgPart r ps ps) := by
  have hread := Memory.loadBytes_length s.ib s.mp r s.draws
  have hlen : ps.length = r := by rw [← hps, xorKeystream_length, hread]
  simp only [execMsgPartDec, State.msgChunk, State.msgRest_eq hr, if_pos (And.intro hlow hhigh)]
  rw [decryptBytes_eq _ 0 _ (by omega), hps, absorbBytes_xorWord1 _ ps _ (by omega)]
  rfl

/-- A stored chunk that ends at ML leaves the bytes of OB below MP and from ML on. -/
theorem State.get_ob_afterMsgPart_outside {s : State} {r : Nat} (hr : s.mp + r = s.ml) (ps : List Byte)
    {out : List Byte} (hlen : out.length = r) {a : Nat} (ha : a < s.mp ∨ s.ml ≤ a) :
    Memory.get (s.afterMsgPart r ps out).ob a = Memory.get s.ob a :=
  Memory.get_storeBytes_outside s.ob s.mp out (by omega)

/-- Settles O36: the bytes read are absorbed, and byte `j` stored is byte `j` of word2 XOR the plaintext byte. -/
theorem msgPartEncEncryptsTheChunk : Obligations.MsgPartEncEncryptsTheChunk := by
  intro s r hr hlow hhigh
  refine ⟨_, _, _, afterTag_1280 s Config.fbMsg, execMsgPartEnc_of_rest hr hlow hhigh rfl, rfl, rfl,
    fun j hj => ?inside, fun _ ha => State.get_ob_afterMsgPart_outside hr _ (by simp) ha⟩
  case inside =>
    rw [State.afterMsgPart, Memory.get_storeBytes_inside s.ob s.mp _ (by simpa using hj)]
    simp only [xorKeystream_zero, List.getElem_mapIdx]
    exact congrArg some (BitVec.xor_comm _ _)

/-- Settles O37: the bytes read XOR those of word2 are the bytes stored and the bytes absorbed. -/
theorem msgPartDecRecoversTheChunk : Obligations.MsgPartDecRecoversTheChunk := by
  intro s r hr hlow hhigh
  exact ⟨_, _, _, _, afterTag_1280 s Config.fbMsg, execMsgPartDec_of_rest hr hlow hhigh (xorKeystream_zero _ _), rfl,
    rfl, rfl, fun _ hj => Memory.get_storeBytes_inside s.ob s.mp _ hj,
    fun _ ha => State.get_ob_afterMsgPart_outside hr _ (by simp) ha⟩

end Sys2Proof.Machine
end

section
/-! PROOFS. Finalization (43_finalization.md R95, R96): FIN1 and FIN2 take the tag words from word2 after the same
domain-separation step, at 1280 and at 640 steps of the exposed `advance`. -/

namespace Sys2Proof.Machine

/-- Settles O40: the register each leaves is the domain-separation step (R77) with 0x70, long for FIN1 and short for
FIN2, and its word2 is the tag word. -/
theorem finalizationExtractsTheTagWords : Obligations.FinalizationExtractsTheTagWords := by
  intro op s
  constructor
  case left => exact ⟨tagLong s.nfsr s.key Config.fbFin, afterTag_1280 s Config.fbFin, rfl⟩
  case right => exact ⟨tagShort s.nfsr s.key Config.fbFin, afterTag_640 s Config.fbFin, rfl⟩

end Sys2Proof.Machine
end

section
/-! PROOFS. CHECK (44_sequencer_and_commands.md R103): what it answers in each of its three cases. -/

namespace Sys2Proof.Machine

theorem execCheck_of_ctShort {s : State} (hop : s.ctrlOp = 1) (hshort : s.inLen.toNat < 8) :
    execCheck s = .next (s.completeErr errCtShort) := by
  rw [execCheck, if_pos ((ctShort_iff s).2 ⟨hop, hshort⟩)]

theorem execCheck_of_overCapacity {s : State} (hlong : ¬ (s.ctrlOp = 1 ∧ s.inLen.toNat < 8))
    (hover : Config.adCap < s.adLen.toNat ∨ Config.inCap < s.inLen.toNat) :
    execCheck s = .next (s.completeErr errCapacity) := by
  rw [execCheck, if_neg (mt (ctShort_iff s).1 hlong), if_pos ((overCapacity_iff s).2 hover)]

/-- Legal lengths pass CHECK. -/
theorem execCheck_of_admitted {s : State} (h : Admitted s) : execCheck s = .next s.passCheck := by
  obtain ⟨had, hin, hshort⟩ := h
  have hlong : ¬ (s.ctrlOp = 1 ∧ s.inLen.toNat < Config.tagLen) := fun ⟨hop, hlt⟩ =>
    Nat.not_lt.2 (hshort hop) hlt
  have hcap : ¬ (Config.adCap < s.adLen.toNat ∨ Config.inCap < s.inLen.toNat) := by omega
  rw [execCheck, if_neg (mt (ctShort_iff s).1 hlong), if_neg (mt (overCapacity_iff s).1 hcap)]

/-- Settles O28: the two error conditions in the order CHECK asks them, and legal lengths where neither holds. -/
theorem checkRejectsIllegalLengths : Obligations.CheckRejectsIllegalLengths :=
  fun _ _ => ⟨execCheck_of_ctShort, execCheck_of_overCapacity, fun hlong had hin =>
    execCheck_of_admitted ⟨had, hin, fun hop => Nat.not_lt.1 fun hlt => hlong ⟨hop, hlt⟩⟩⟩

end Sys2Proof.Machine
end

section
/-! PROOFS. Byte strings in the buffers and in the whole-buffer functions (20_memory.md R43 to R45,
42_message.md R90 to R94): a buffer and a string are both read in blocks of four bytes and a last chunk. -/

namespace Sys2Proof.Machine

/-! ### Loads and stores of byte strings -/

/-- Reading `m + n` bytes is reading `m` and then `n`. -/
theorem Memory.loadBytes_add (mem : Memory) (o m n d : Nat) :
    Memory.loadBytes mem o (m + n) d =
      ((Memory.loadBytes mem o m d).1 ++ (Memory.loadBytes mem (o + m) n (Memory.loadBytes mem o m d).2).1,
        (Memory.loadBytes mem (o + m) n (Memory.loadBytes mem o m d).2).2) := by
  induction m generalizing o d with
  | zero => simp [Memory.loadBytes]
  | succ m ih => simp [Memory.loadBytes, Nat.succ_add, ih, Nat.add_assoc]

theorem Memory.storeBytes_append (mem : Memory) (o : Nat) (as bs : List Byte) :
    Memory.storeBytes mem o (as ++ bs) = Memory.storeBytes (Memory.storeBytes mem o as) (o + as.length) bs := by
  induction as generalizing mem o with
  | nil => rfl
  | cons a as ih => simp [Memory.storeBytes, ih, Nat.add_assoc, Nat.add_comm 1]

theorem Memory.holds_storeBytes (mem : Memory) (o : Nat) (bs : List Byte) :
    Memory.holds (Memory.storeBytes mem o bs) o bs :=
  fun _ hj => Memory.get_storeBytes_inside mem o bs hj

/-- Bytes a buffer holds are read as they stand, and nothing is drawn. -/
theorem Memory.loadBytes_of_holds {mem : Memory} {o n : Nat} {bs : List Byte} (h : Memory.holds mem o bs)
    (hn : bs.length = n) (d : Nat) : Memory.loadBytes mem o n d = (bs, d) :=
  hn ▸ Memory.loadBytes_written h

theorem Memory.holds_append {mem : Memory} {o : Nat} {as bs : List Byte} (h : Memory.holds mem o (as ++ bs)) :
    Memory.holds mem o as ∧ Memory.holds mem (o + as.length) bs := by
  refine ⟨fun j hj => ?_, fun j hj => ?_⟩
  · rw [h j (by simp; omega), List.getElem_append_left hj]
  · rw [Nat.add_assoc, h (as.length + j) (by simp; omega), List.getElem_append_right (by omega)]
    simp

/-- What a load reads is what the buffer may read as. -/
theorem Memory.readsAs_loadBytes (mem : Memory) (o n d : Nat) :
    Memory.readsAs mem o (Memory.loadBytes mem o n d).1 := by
  induction n generalizing o d with
  | zero => nofun
  | succ n ih =>
    intro j hj b hb
    cases j with
    | zero => exact congrArg Prod.fst (Memory.load1_written hb)
    | succ j =>
      refine ih (o + 1) _ j (by simpa using hj) b ?_
      rwa [Nat.add_assoc, Nat.add_comm 1]

/-- A buffer that holds bytes reads as no other bytes of that length. -/
theorem Memory.eq_of_readsAs_of_holds {mem : Memory} {o : Nat} {as bs : List Byte} (has : Memory.readsAs mem o as)
    (hbs : Memory.holds mem o bs) (hlen : as.length = bs.length) : as = bs :=
  List.ext_getElem hlen fun j hja hjb => has j hja _ (hbs j hjb)

/-! ### Blocks of the whole-buffer functions -/

/-- Associated data whose first block is `as` (R82, R84). -/
theorem absorbAd_append (k : Key) {as : List Byte} (has : as.length = 4) (bs : List Byte) (s : Nfsr) :
    absorbAd k (as ++ bs) s = absorbAd k bs (absorbAd k as s) := by
  match as, has with
  | [_, _, _, _], _ => rfl

/-- A trailing chunk of associated data (R83). -/
theorem absorbAd_chunk (k : Key) {c : List Byte} (hlow : 1 ≤ c.length) (hhigh : c.length ≤ 3) (s : Nfsr) :
    absorbAd k c s =
      (absorbBytes (tagShort s k Config.fbAd) 0 c).xorWord1 (BitVec.ofNat 32 c.length) := by
  match c, hlow, hhigh with
  | [_], _, _ | [_, _], _, _ | [_, _, _], _, _ => rfl

/-- The message transform of a direction, `encryptMessage` or `decryptMessage`: the register after the input bytes, and
the bytes for OB (R94). -/
def transformMessage (op : BitVec 1) (k : Key) (bs : List Byte) (s : Nfsr) : Nfsr × List Byte :=
  if op = 0 then encryptMessage k bs s else decryptMessage k bs s

theorem transformMessage_of_encrypt {op : BitVec 1} (h : op = 0) (k : Key) :
    transformMessage op k = encryptMessage k := by
  subst h; rfl

theorem transformMessage_of_decrypt {op : BitVec 1} (h : op = 1) (k : Key) :
    transformMessage op k = decryptMessage k := by
  subst h; rfl

theorem transformMessage_nil (op : BitVec 1) (k : Key) (s : Nfsr) : transformMessage op k [] s = (s, []) := by
  obtain rfl | rfl := bit_eq_zero_or_one op <;> rfl

/-- A message whose first block is `as` (R90, R91). -/
theorem transformMessage_append (op : BitVec 1) (k : Key) {as : List Byte} (has : as.length = 4) (bs : List Byte)
    (s : Nfsr) :
    transformMessage op k (as ++ bs) s =
      ((transformMessage op k bs (transformMessage op k as s).1).1,
        (transformMessage op k as s).2 ++ (transformMessage op k bs (transformMessage op k as s).1).2) := by
  match as, has with
  | [_, _, _, _], _ => obtain rfl | rfl := bit_eq_zero_or_one op <;> rfl

theorem transformMessage_length_block (op : BitVec 1) (k : Key) {as : List Byte} (has : as.length = 4) (s : Nfsr) :
    (transformMessage op k as s).2.length = 4 := by
  match as, has with
  | [_, _, _, _], _ => obtain rfl | rfl := bit_eq_zero_or_one op <;> rfl

/-- A trailing chunk of a plaintext (R92). -/
theorem encryptMessage_chunk (k : Key) {c : List Byte} (hlow : 1 ≤ c.length) (hhigh : c.length ≤ 3) (s : Nfsr) :
    encryptMessage k c s =
      ((encryptBytes (tagLong s k Config.fbMsg) 0 c).1.xorWord1 (BitVec.ofNat 32 c.length),
        (encryptBytes (tagLong s k Config.fbMsg) 0 c).2) := by
  match c, hlow, hhigh with
  | [_], _, _ | [_, _], _, _ | [_, _, _], _, _ => rfl

/-- A trailing chunk of a ciphertext body (R93). -/
theorem decryptMessage_chunk (k : Key) {c : List Byte} (hlow : 1 ≤ c.length) (hhigh : c.length ≤ 3) (s : Nfsr) :
    decryptMessage k c s =
      ((decryptBytes (tagLong s k Config.fbMsg) 0 c).1.xorWord1 (BitVec.ofNat 32 c.length),
        (decryptBytes (tagLong s k Config.fbMsg) 0 c).2) := by
  match c, hlow, hhigh with
  | [_], _, _ | [_, _], _, _ | [_, _, _], _, _ => rfl

/-- A byte string is empty, one chunk of 1 to 3 bytes, or a block of four bytes before a string. -/
theorem blocks_induction {P : List Byte → Prop} (nil : P [])
    (chunk : ∀ c : List Byte, 1 ≤ c.length → c.length ≤ 3 → P c)
    (block : ∀ b0 b1 b2 b3 rest, P rest → P (b0 :: b1 :: b2 :: b3 :: rest)) : ∀ bs, P bs
  | [] => nil
  | [_] | [_, _] | [_, _, _] => chunk _ (by simp) (by simp)
  | b0 :: b1 :: b2 :: b3 :: rest => block b0 b1 b2 b3 rest (blocks_induction nil chunk block rest)

theorem encryptMessage_length (k : Key) (pt : List Byte) (s : Nfsr) : (encryptMessage k pt s).2.length = pt.length := by
  induction pt using blocks_induction generalizing s with
  | nil => rfl
  | chunk c hlow hhigh => simp [encryptMessage_chunk k hlow hhigh, encryptBytes_eq _ 0 c (by omega)]
  | block b0 b1 b2 b3 rest ih => simp [encryptMessage, ih, Nat.add_comm 4]

theorem tagOf_length (k : Key) (s : Nfsr) : (tagOf k s).length = 8 := rfl

theorem aeadEncrypt_length (k : Key) (n : Nonce) (ad pt : List Byte) :
    (aeadEncrypt k n ad pt).length = pt.length + 8 := by
  simp [aeadEncrypt, encryptMessage_length, tagOf_length]

/-! ### The message transform undone -/

theorem xorKeystream_xorKeystream (w : Word) (j : Nat) (bs : List Byte) :
    xorKeystream w j (xorKeystream w j bs) = bs := by
  induction bs generalizing j with
  | nil => rfl
  | cons b bs ih => rw [xorKeystream_cons, xorKeystream_cons, ih, BitVec.xor_assoc, BitVec.xor_self, BitVec.xor_zero]

/-- A ciphertext body whose first block is the word `w` (R91). -/
theorem decryptMessage_st32_append (k : Key) (w : Word) (bs : List Byte) (s : Nfsr) :
    decryptMessage k (st32 w ++ bs) s =
      (let n := tagLong s k Config.fbMsg
       let r := decryptMessage k bs (n.absorbWord (n.s2 ^^^ w))
       (r.1, st32 (n.s2 ^^^ w) ++ r.2)) := by
  simp only [st32, List.cons_append, List.nil_append, decryptMessage, le32_wordBytes]

/-- Decrypting a ciphertext body from the register it was encrypted from leaves the same register and gives the
plaintext (R94). -/
theorem decryptMessage_encryptMessage (k : Key) (pt : List Byte) (s : Nfsr) :
    decryptMessage k (encryptMessage k pt s).2 s = ((encryptMessage k pt s).1, pt) := by
  induction pt using blocks_induction generalizing s with
  | nil => rfl
  | chunk c hlow hhigh =>
    have hlen : 0 + c.length ≤ 4 := by omega
    rw [encryptMessage_chunk k hlow hhigh, encryptBytes_eq _ 0 c hlen,
      decryptMessage_chunk k (by simpa using hlow) (by simpa using hhigh),
      decryptBytes_eq _ 0 _ (by simpa using hlen), xorKeystream_xorKeystream, xorKeystream_length]
  | block b0 b1 b2 b3 rest ih =>
    simp only [encryptMessage, decryptMessage_st32_append, ← BitVec.xor_assoc, BitVec.xor_self, BitVec.zero_xor, ih,
      st32_le32]
    rfl

end Sys2Proof.Machine
end

section
/-! PROOFS. The run of a transaction with the host silent (44_sequencer_and_commands.md R104, R108 to R111): what the
engine steps of CHECK, the initialization, the two inputs and the finalization leave together, for either direction. -/

namespace Sys2Proof.Machine

/-! ### Steps with the host silent -/

/-- The host has nothing to do and the error code is one of the spec's, so the engine runs what PH selects. -/
def State.Silent (s : State) : Prop := s.inputs = [] ∧ s.status.err.toNat ≤ 3

theorem step_of_silent {s : State} {i : Instr} (hs : s.Silent) (hf : s.fetch = .ok i) : step s = exec i s := by
  have hph : s.ph.toNat ≤ 10 := by
    by_contra hlarge
    rw [fetch_eq, decodeSelector_unreachable _ (by omega)] at hf
    cases hf
  exact step_of_fetch hs.1 (badState_eq_none.2 ⟨hph, hs.2⟩) hf

theorem runSteps_add {s t : State} {m : Nat} (h : runSteps m s = .next t) (n : Nat) :
    runSteps (m + n) s = runSteps n t := by
  induction m generalizing s with
  | zero => cases h; rw [Nat.zero_add]
  | succ m ih =>
    cases hstep : step s with
    | next u =>
      rw [runSteps_succ m hstep] at h
      rw [Nat.succ_add, runSteps_succ _ hstep, ih h]
    | fault f => simp [runSteps, Host.Core.run, core, hstep] at h
    | refused r => simp [runSteps, Host.Core.run, core, hstep] at h

theorem runSteps_one {s t : State} (h : step s = .next t) : runSteps 1 s = .next t := runSteps_succ 0 h

/-! ### An input read in blocks -/

/-- A step that takes a block of four bytes, or the last chunk, is run until `n` bytes are taken: `left s n` says that
`n` bytes are left at `s`, and `after s n` is `s` with `n` bytes taken (R104). -/
theorem runSteps_blocks {left : State → Nat → Prop} {after : State → Nat → State}
    (none_left : ∀ {s}, left s 0 → after s 0 = s)
    (chunk : ∀ {s n}, left s n → 1 ≤ n → n ≤ 3 → step s = .next (after s n))
    (block : ∀ {s n}, left s (4 + n) → step s = .next (after s 4) ∧ left (after s 4) n)
    (after_block : ∀ s n, after (after s 4) n = after s (4 + n)) {s : State} {n : Nat} (h : left s n) :
    runSteps ((n + 3) / 4) s = .next (after s n) := by
  induction n using Nat.strong_induction_on generalizing s with
  | h n ih =>
    obtain rfl | hpos := Nat.eq_zero_or_pos n
    · exact congrArg _ (none_left h).symm
    rcases Nat.lt_or_ge n 4 with hsmall | hlarge
    · rw [show (n + 3) / 4 = 1 by omega]
      exact runSteps_one (chunk h hpos (by omega))
    · obtain ⟨m, rfl⟩ := Nat.exists_eq_add_of_le hlarge
      obtain ⟨hstep, hleft⟩ := block h
      rw [show (4 + m + 3) / 4 = (m + 3) / 4 + 1 by omega, runSteps_succ _ hstep, ih m (by omega) hleft, after_block]

/-! ### Associated data -/

/-- `n` bytes of associated data are left, and PH is at them. -/
def State.AdLeft (s : State) (n : Nat) : Prop := s.Silent ∧ s.ph = s.nextInput ∧ s.adp + n = s.adLen.toNat

/-- `n` bytes of associated data read from ADP on and absorbed. -/
def State.afterAd (s : State) (n : Nat) : State :=
  let x := Memory.loadBytes s.ab s.adp n s.draws
  ({ s with nfsr := absorbAd s.key x.1 s.nfsr, adp := s.adp + n, draws := x.2 }).enterNextInput

theorem step_adBlock {s : State} {n : Nat} (h : s.AdLeft (4 + n)) :
    step s = .next (s.afterAd 4) ∧ (s.afterAd 4).AdLeft n := by
  obtain ⟨hs, hp, hlen⟩ := h
  have hpre : s.adp + 4 ≤ s.adLen.toNat := by omega
  have hph : s.ph = phAdFull := hp.trans (if_pos hpre)
  have hfetch : s.fetch = .ok (.adFull s.ctrlOp) := by simp [fetch_eq, decodeSelector, hph]
  refine ⟨(step_of_silent hs hfetch).trans (if_pos hpre), hs, rfl, ?_⟩
  change s.adp + 4 + n = s.adLen.toNat
  omega

theorem step_adChunk {s : State} {r : Nat} (h : s.AdLeft r) (hlow : 1 ≤ r) (hhigh : r ≤ 3) :
    step s = .next (s.afterAd r) := by
  obtain ⟨hs, hp, hlen⟩ := h
  have hph : s.ph = phAdPart := by
    rw [hp, State.nextInput, if_neg (by omega), if_pos (by omega)]
  have hfetch : s.fetch = .ok (.adPart s.ctrlOp) := by simp [fetch_eq, decodeSelector, hph]
  have hrest : s.adRest = r := by rw [State.adRest]; omega
  have hchunk := Memory.loadBytes_length s.ab s.adp r s.draws
  rw [step_of_silent hs hfetch]
  simp only [exec, execAdPart, State.adChunk, hrest, if_pos (And.intro hlow hhigh), State.afterAd, hlen,
    absorbAd_chunk s.key (hchunk.symm ▸ hlow) (hchunk.symm ▸ hhigh), hchunk]

theorem State.afterAd_zero {s : State} (h : s.AdLeft 0) : s.afterAd 0 = s := by
  obtain ⟨_, hp, _⟩ := h
  change { s with ph := s.nextInput } = s
  rw [← hp]

theorem State.afterAd_block (s : State) (n : Nat) : (s.afterAd 4).afterAd n = s.afterAd (4 + n) := by
  have hlen := Memory.loadBytes_length s.ab s.adp 4 s.draws
  simp only [State.afterAd, Memory.loadBytes_add s.ab s.adp 4 n, absorbAd_append s.key hlen, ← Nat.add_assoc]
  rfl

/-- The AD steps absorb what is left of the associated data. -/
theorem runSteps_ad {s : State} {n : Nat} (h : s.AdLeft n) : runSteps ((n + 3) / 4) s = .next (s.afterAd n) :=
  runSteps_blocks State.afterAd_zero step_adChunk step_adBlock State.afterAd_block h

/-! ### The message -/

/-- `n` bytes of the message are left after all associated data, and PH is at them. -/
def State.MsgLeft (s : State) (n : Nat) : Prop :=
  s.Silent ∧ s.ph = s.nextInput ∧ s.adp = s.adLen.toNat ∧ s.mp + n = s.ml

/-- `n` input bytes read from MP on and transformed into OB, in the direction of CTRL.OP. -/
def State.afterMsg (s : State) (n : Nat) : State :=
  let x := Memory.loadBytes s.ib s.mp n s.draws
  let r := transformMessage s.ctrlOp s.key x.1 s.nfsr
  ({ s with
    nfsr := r.1, ob := Memory.storeBytes s.ob s.mp r.2, mp := s.mp + n, draws := x.2 }).enterNextInput

theorem step_msgBlock {s : State} {n : Nat} (h : s.MsgLeft (4 + n)) :
    step s = .next (s.afterMsg 4) ∧ (s.afterMsg 4).MsgLeft n := by
  obtain ⟨hs, hp, had, hlen⟩ := h
  have hpre : s.mp + 4 ≤ s.ml := by omega
  have hph : s.ph = phMsgFull := by
    rw [hp, State.nextInput, if_neg (by omega), if_neg (by omega), if_pos hpre]
  refine ⟨?step, hs, rfl, had, ?left⟩
  case step =>
    obtain hop | hop := bit_eq_zero_or_one s.ctrlOp
    · have hfetch : s.fetch = .ok .msgFullEnc := by simp [fetch_eq, decodeSelector, hph, hop]
      rw [step_of_silent hs hfetch, State.afterMsg, transformMessage_of_encrypt hop]
      exact if_pos hpre
    · have hfetch : s.fetch = .ok .msgFullDec := by simp [fetch_eq, decodeSelector, hph, hop]
      rw [step_of_silent hs hfetch, State.afterMsg, transformMessage_of_decrypt hop]
      exact if_pos hpre
  case left =>
    change s.mp + 4 + n = s.ml
    omega

theorem step_msgChunk {s : State} {r : Nat} (h : s.MsgLeft r) (hlow : 1 ≤ r) (hhigh : r ≤ 3) :
    step s = .next (s.afterMsg r) := by
  obtain ⟨hs, hp, had, hlen⟩ := h
  have hph : s.ph = phMsgPart := by
    rw [hp, State.nextInput, if_neg (by omega), if_neg (by omega), if_neg (by omega), if_pos (by omega)]
  have hchunk := Memory.loadBytes_length s.ib s.mp r s.draws
  obtain hop | hop := bit_eq_zero_or_one s.ctrlOp
  · have hfetch : s.fetch = .ok .msgPartEnc := by simp [fetch_eq, decodeSelector, hph, hop]
    rw [step_of_silent hs hfetch]
    simp only [exec, execMsgPartEnc, State.msgChunk, State.msgRest_eq hlen, if_pos (And.intro hlow hhigh),
      State.afterMsg, hlen, transformMessage_of_encrypt hop,
      encryptMessage_chunk s.key (hchunk.symm ▸ hlow) (hchunk.symm ▸ hhigh), hchunk]
  · have hfetch : s.fetch = .ok .msgPartDec := by simp [fetch_eq, decodeSelector, hph, hop]
    rw [step_of_silent hs hfetch]
    simp only [exec, execMsgPartDec, State.msgChunk, State.msgRest_eq hlen, if_pos (And.intro hlow hhigh),
      State.afterMsg, hlen, transformMessage_of_decrypt hop,
      decryptMessage_chunk s.key (hchunk.symm ▸ hlow) (hchunk.symm ▸ hhigh), hchunk]

theorem State.afterMsg_zero {s : State} (h : s.MsgLeft 0) : s.afterMsg 0 = s := by
  obtain ⟨_, hp, _⟩ := h
  rw [State.afterMsg, Memory.loadBytes, transformMessage_nil]
  change { s with ph := s.nextInput } = s
  rw [← hp]

theorem State.afterMsg_block (s : State) (n : Nat) : (s.afterMsg 4).afterMsg n = s.afterMsg (4 + n) := by
  have hlen := Memory.loadBytes_length s.ib s.mp 4 s.draws
  simp only [State.afterMsg, Memory.loadBytes_add s.ib s.mp 4 n, transformMessage_append s.ctrlOp s.key hlen,
    Memory.storeBytes_append, transformMessage_length_block s.ctrlOp s.key hlen, ← Nat.add_assoc]
  rfl

/-- The MSG steps transform what is left of the message. -/
theorem runSteps_msg {s : State} {n : Nat} (h : s.MsgLeft n) : runSteps ((n + 3) / 4) s = .next (s.afterMsg n) :=
  runSteps_blocks State.afterMsg_zero step_msgChunk step_msgBlock State.afterMsg_block h

/-! ### From CHECK to the last step -/

/-- FIN1 and FIN2: the tag words taken, and PH at the completion (R95, R96). -/
def State.afterFin (s : State) : State :=
  let a := tagLong s.nfsr s.key Config.fbFin
  let b := tagShort a s.key Config.fbFin
  { s with nfsr := b, t0 := a.s2, t1 := b.s2, ph := phFinish }

theorem runSteps_fin {s : State} (hs : s.Silent) (hph : s.ph = phFin1) : runSteps 2 s = .next s.afterFin := by
  have hfetch : s.fetch = .ok (.fin1 s.ctrlOp) := by simp [fetch_eq, decodeSelector, hph]
  rw [runSteps_succ 1 (step_of_silent hs hfetch)]
  exact runSteps_one (step_of_silent (i := .fin2 s.ctrlOp) ⟨hs.1, hs.2⟩ (by simp [fetch_eq, decodeSelector]))

/-- KEYLOAD and the three NONCE steps: the initialized register, and PH at the first input (R85). -/
def State.afterInit (s : State) : State :=
  ({ s with nfsr := initState s.key s.nonce, nidx := 3 }).enterNextInput

theorem runSteps_init {s : State} (hs : s.Silent) (hph : s.ph = phKeyload) (hn : s.nidx = 0) :
    runSteps 4 s = .next s.afterInit := by
  obtain ⟨t, hrun, hnfsr, ht⟩ := initializationDependsOnKeyAndNonce s hph hn hs.1 hs.2
  rw [hrun, ht, hnfsr]
  rfl

/-- A transaction that has passed CHECK, read its inputs and computed its tag, right before FINISH_ENC or
VERIFY_DEC. -/
def State.atFinish (s : State) : State :=
  ((s.passCheck.afterInit.afterAd s.adLen.toNat).afterMsg s.ml).afterFin

theorem Started.silent {s : State} (h : Started s) : s.Silent := by
  obtain ⟨_, hin, _, _, herr⟩ := h
  exact ⟨hin, by simp [herr]⟩

/-- A transaction that passes CHECK arrives at its last step, which is the only one left of R111's count. -/
theorem runSteps_transaction {s : State} (hs : Started s) (ha : Admitted s) :
    runSteps (transactionSteps s.adLen.toNat s.ml) s = runSteps 1 s.atFinish := by
  have hq : s.Silent := hs.silent
  have hcheck : runSteps 1 s = .next s.passCheck := by
    have hfetch : s.fetch = .ok (.check s.ctrlOp) := by simp [fetch_eq, decodeSelector, hs.1]
    exact runSteps_one ((step_of_silent hq hfetch).trans (execCheck_of_admitted ha))
  have hinit : runSteps 4 s.passCheck = .next s.passCheck.afterInit := runSteps_init hq rfl rfl
  have had := runSteps_ad (s := s.passCheck.afterInit) (n := s.adLen.toNat) ⟨hq, rfl, Nat.zero_add _⟩
  have hmsg := runSteps_msg (s := s.passCheck.afterInit.afterAd s.adLen.toNat) (n := s.ml)
    ⟨hq, rfl, Nat.zero_add _, Nat.zero_add _⟩
  have hph : ((s.passCheck.afterInit.afterAd s.adLen.toNat).afterMsg s.ml).ph = phFin1 := by
    change phaseAfterInput (0 + s.adLen.toNat) s.adLen.toNat (0 + s.ml) s.ml = phFin1
    simp [phaseAfterInput]
  have hfin := runSteps_fin (s := (s.passCheck.afterInit.afterAd s.adLen.toNat).afterMsg s.ml) hq hph
  have hsteps : transactionSteps s.adLen.toNat s.ml =
      1 + (4 + ((s.adLen.toNat + 3) / 4 + ((s.ml + 3) / 4 + (2 + 1)))) := by
    unfold transactionSteps; omega
  rw [hsteps, runSteps_add hcheck, runSteps_add hinit, runSteps_add had, runSteps_add hmsg, runSteps_add hfin,
    State.atFinish]

end Sys2Proof.Machine
end

section
/-! PROOFS. The whole-buffer contract of ENCRYPT and the round trip (44_sequencer_and_commands.md R108, R110): the state
before the last step holds the whole-buffer functions of the bytes read. -/

namespace Sys2Proof.Machine

/-! ### The bytes a transaction reads -/

/-- The associated data a transaction reads, and the draws after it. -/
def State.adRead (s : State) : List Byte × Nat := Memory.loadBytes s.ab 0 s.adLen.toNat s.draws

/-- The message bytes a transaction reads after its associated data, and the draws after them. -/
def State.msgRead (s : State) : List Byte × Nat := Memory.loadBytes s.ib 0 s.ml s.adRead.2

/-- The register after the message, and the bytes of OB below ML (R85, R94). -/
def State.transformed (s : State) : Nfsr × List Byte :=
  transformMessage s.ctrlOp s.key s.msgRead.1 (absorbAd s.key s.adRead.1 (initState s.key s.nonce))

theorem State.atFinish_ob (s : State) : s.atFinish.ob = Memory.storeBytes s.ob 0 s.transformed.2 := rfl

theorem State.atFinish_tagBytes (s : State) : s.atFinish.tagBytes = tagOf s.key s.transformed.1 := rfl

theorem State.ml_of_encrypt {s : State} (h : s.ctrlOp = 0) : s.ml = s.inLen.toNat := if_pos h

theorem State.ml_of_decrypt {s : State} (h : s.ctrlOp = 1) : s.ml = s.inLen.toNat - 8 := by
  exact if_neg (by rw [h]; decide)

/-- The register after a plaintext under key, nonce and AD, and its ciphertext body (R85, R90, R92). -/
def encryptAfterAd (k : Key) (n : Nonce) (ad pt : List Byte) : Nfsr × List Byte :=
  encryptMessage k pt (absorbAd k ad (initState k n))

theorem aeadEncrypt_eq_body_append_tag (k : Key) (n : Nonce) (ad pt : List Byte) :
    aeadEncrypt k n ad pt = (encryptAfterAd k n ad pt).2 ++ tagOf k (encryptAfterAd k n ad pt).1 := rfl

@[simp] theorem encryptAfterAd_length (k : Key) (n : Nonce) (ad pt : List Byte) :
    (encryptAfterAd k n ad pt).2.length = pt.length :=
  encryptMessage_length ..

/-- Appending an encryption's tag completes what the whole-buffer function gives (R108). -/
theorem storeBytes_tag_atFinish {s : State} (hop : s.ctrlOp = 0) :
    Memory.storeBytes s.atFinish.ob s.atFinish.ml s.atFinish.tagBytes =
      Memory.storeBytes s.ob 0 (aeadEncrypt s.key s.nonce s.adRead.1 s.msgRead.1) := by
  have hbody : s.transformed = encryptAfterAd s.key s.nonce s.adRead.1 s.msgRead.1 := by
    rw [State.transformed, transformMessage_of_encrypt hop, encryptAfterAd]
  have hml : s.atFinish.ml = 0 + s.transformed.2.length := by
    rw [hbody, encryptAfterAd_length, State.msgRead, Memory.loadBytes_length, Nat.zero_add]
    rfl
  rw [State.atFinish_ob, State.atFinish_tagBytes, hml, ← Memory.storeBytes_append, hbody,
    aeadEncrypt_eq_body_append_tag]

theorem step_finishEnc {s : State} (hs : s.Silent) (hph : s.ph = phFinish) (hop : s.ctrlOp = 0) :
    step s = execFinishEnc s :=
  step_of_silent (i := .finishEnc) hs (by simp [fetch_eq, decodeSelector, hph, hop])

theorem step_verifyDec {s : State} (hs : s.Silent) (hph : s.ph = phFinish) (hop : s.ctrlOp = 1) :
    step s = execVerifyDec s :=
  step_of_silent (i := .verifyDec) hs (by simp [fetch_eq, decodeSelector, hph, hop])

/-- What a completed ENCRYPT leaves (R106, R108). -/
def State.encrypted (s : State) : State :=
  { s with
    nfsr := ⟨0, 0, 0, 0⟩, t0 := 0, t1 := 0, nidx := 0, adp := 0, mp := 0
    ob := Memory.storeBytes s.ob 0 (aeadEncrypt s.key s.nonce s.adRead.1 s.msgRead.1)
    outLen := BitVec.ofNat 32 (s.ml + 8), status := ⟨false, true, true, 0⟩, ph := 0, draws := s.msgRead.2 }

theorem runSteps_encrypt {s : State} (hs : Started s) (ha : Admitted s) (hop : s.ctrlOp = 0) :
    runSteps (transactionSteps s.adLen.toNat s.inLen.toNat) s = .next s.encrypted := by
  have hq : s.Silent := hs.silent
  rw [← State.ml_of_encrypt hop, runSteps_transaction hs ha]
  refine runSteps_one ((step_finishEnc (s := s.atFinish) hq rfl hop).trans ?_)
  rw [execFinishEnc, storeBytes_tag_atFinish hop]
  rfl

theorem inCap_le : Config.inCap ≤ 65528 := by
  have := Config.inCapParam.isLt
  unfold Config.inCap
  omega

/-- OUT_LEN holds the length of an output within capacity (R97). -/
theorem toNat_outLen {n : Nat} (h : n ≤ Config.inCap) : (BitVec.ofNat 32 (n + 8)).toNat = n + 8 := by
  have hcap := inCap_le
  exact Nat.mod_eq_of_lt (by omega)

/-- Settles O53: the run leaves OB with the whole-buffer function of the bytes read stored from 0 on, and a load reads
what the buffer may read as. -/
theorem encryptMeetsItsContract : Obligations.EncryptMeetsItsContract := by
  intro s hs hop had hin
  have hml := State.ml_of_encrypt hop
  have hpt : s.msgRead.1.length = s.inLen.toNat := by rw [State.msgRead, Memory.loadBytes_length, hml]
  have hlen := aeadEncrypt_length s.key s.nonce s.adRead.1 s.msgRead.1
  have hadmit : Admitted s := ⟨had, hin, fun h => absurd (hop.symm.trans h) (by decide)⟩
  refine ⟨s.encrypted, s.adRead.1, s.msgRead.1, runSteps_encrypt hs hadmit hop, Memory.loadBytes_length .., ?ad, hpt,
    ?pt, hlen, ?held, rfl, ?outLen, fun a ha => Memory.get_storeBytes_outside _ _ _ (by omega)⟩
  case ad => exact Memory.readsAs_loadBytes _ _ _ _
  case pt => exact Memory.readsAs_loadBytes _ _ _ _
  case held => exact Memory.holds_storeBytes _ _ _
  case outLen => rw [hpt, State.encrypted, hml, toNat_outLen hin]

/-! ### The round trip -/

/-- Equal tags differ in no bit (R98). -/
theorem tagDifference_self (acc : Byte) (tag : List Byte) : tagDifference acc tag tag = acc := by
  induction tag generalizing acc with
  | nil => rfl
  | cons t ts ih => rw [tagDifference, BitVec.xor_self, BitVec.or_zero, ih]

/-- VERIFY_DEC with the computed tag supplied completes (R98). -/
theorem execVerifyDec_of_match {s : State} {d : Nat} (h : s.suppliedTag = (s.tagBytes, d)) :
    execVerifyDec s = .next ({ s with draws := d }.completeOk s.ml) := by
  simp only [execVerifyDec, h, tagDifference_self, if_true]

/-- A DECRYPT of a whole-buffer encryption under the same key, nonce and AD recovers the plaintext (R109, R110). -/
theorem runSteps_decrypt_of_encrypted {d : State} {ad pt : List Byte} (hd : Started d) (ha : Admitted d)
    (hop : d.ctrlOp = 1) (had : Memory.holds d.ab 0 ad) (hadLen : ad.length = d.adLen.toNat)
    (hct : Memory.holds d.ib 0 (aeadEncrypt d.key d.nonce ad pt)) (hml : pt.length = d.ml) :
    ∃ u, runSteps (transactionSteps d.adLen.toNat d.ml) d = .next u ∧ u.status = ⟨false, true, true, 0⟩ ∧
      u.outLen = BitVec.ofNat 32 d.ml ∧ Memory.holds u.ob 0 pt := by
  have hbodyLen : (encryptAfterAd d.key d.nonce ad pt).2.length = d.ml := (encryptAfterAd_length ..).trans hml
  rw [aeadEncrypt_eq_body_append_tag] at hct
  obtain ⟨hbody, htag⟩ := Memory.holds_append hct
  rw [hbodyLen, Nat.zero_add] at htag
  have hadRead : d.adRead = (ad, d.draws) := Memory.loadBytes_of_holds had hadLen _
  have hmsgRead : d.msgRead = ((encryptAfterAd d.key d.nonce ad pt).2, d.draws) := by
    rw [State.msgRead, hadRead, Memory.loadBytes_of_holds hbody hbodyLen]
  have htransformed : d.transformed = ((encryptAfterAd d.key d.nonce ad pt).1, pt) := by
    rw [State.transformed, transformMessage_of_decrypt hop, hmsgRead, hadRead]
    exact decryptMessage_encryptMessage ..
  have hsupplied : d.atFinish.suppliedTag = (d.atFinish.tagBytes, d.atFinish.draws) := by
    rw [State.atFinish_tagBytes, htransformed]
    exact Memory.loadBytes_of_holds htag (tagOf_length ..) d.atFinish.draws
  have hq : d.Silent := hd.silent
  have hstep := (step_verifyDec (s := d.atFinish) hq rfl hop).trans (execVerifyDec_of_match hsupplied)
  refine ⟨_, (runSteps_transaction hd ha).trans (runSteps_one hstep), rfl, rfl, ?_⟩
  change Memory.holds d.atFinish.ob 0 pt
  rw [State.atFinish_ob, htransformed]
  exact Memory.holds_storeBytes _ _ _

/-- Settles O56: by O53 the encrypt's output is the whole-buffer function of the written bytes, the decrypt reads it
back, and the message transform undone leaves the register whose tag was appended. -/
theorem machineRoundTrip : Obligations.MachineRoundTrip := by
  intro s d t ad pt hs hop had hpt hab hib hadCap hcap hrun hd hdop hkey hnonce hdAdLen hdab hdInLen hdib
  obtain ⟨t', ad', pt', hrun', had', hab', hpt', hib', hctLen, hct, -, hout, -⟩ :=
    encryptMeetsItsContract s hs hop hadCap (by omega)
  obtain rfl : t = t' := Host.Outcome.next.inj (hrun.symm.trans hrun')
  obtain rfl : ad' = ad := Memory.eq_of_readsAs_of_holds hab' hab (had'.trans had.symm)
  obtain rfl : pt' = pt := Memory.eq_of_readsAs_of_holds hib' hib (hpt'.trans hpt.symm)
  have hml : pt'.length = d.ml := by rw [State.ml_of_decrypt hdop, hdInLen, hout, Nat.add_sub_cancel]
  have hadLen : ad'.length = d.adLen.toNat := by rw [hdAdLen, had]
  have hadmit : Admitted d := by
    refine ⟨by rwa [hdAdLen], by rwa [hdInLen, hout], fun _ => ?_⟩
    rw [hdInLen, hout]
    exact Nat.le_add_left ..
  have hdct : Memory.holds d.ib 0 (aeadEncrypt d.key d.nonce ad' pt') := by
    rw [hkey, hnonce]
    exact fun j hj => (hdib _ (by omega)).trans (hct j hj)
  obtain ⟨u, hu, hstatus, hulen, hob⟩ := runSteps_decrypt_of_encrypted hd hadmit hdop hdab hadLen hdct hml
  refine ⟨u, by rwa [hadLen, hml], hstatus, ?_, hob⟩
  have hlimit := inCap_le
  rw [hulen, ← hml]
  exact Nat.mod_eq_of_lt (by omega)

end Sys2Proof.Machine
end

section
/-! PROOFS. Decoder and encoder are inverse to each other, and the rows of the opcode table exclude one another
(30_encoding.md R61, R65). -/

namespace Sys2Proof.Machine

/-! ### Decoding an encoding -/

/-- A data word that has its row's match bits is its own command word (R61, R62). -/
theorem commandWord_of_match {d matchBits maskBits : Word} (h : d &&& maskBits = matchBits) :
    commandWord matchBits maskBits d = d := by
  subst h
  refine BitVec.eq_of_getLsbD_eq fun i hi => ?_
  simp only [commandWord, BitVec.getLsbD_or, BitVec.getLsbD_and, BitVec.getLsbD_not, hi, decide_true, Bool.true_and]
  cases d.getLsbD i <;> cases maskBits.getLsbD i <;> rfl

theorem encode_encrypt {d : Word} (h : d &&& 0x3 = 0x1) : encode (.encrypt d) = st32 d :=
  congrArg st32 (commandWord_of_match h)

theorem encode_decrypt {d : Word} (h : d &&& 0x3 = 0x3) : encode (.decrypt d) = st32 d :=
  congrArg st32 (commandWord_of_match h)

theorem encode_setop {d : Word} (h : d &&& 0x1 = 0x0) : encode (.setop d) = st32 d :=
  congrArg st32 (commandWord_of_match h)

theorem wf_encrypt {d : Word} : Instr.wf (.encrypt d) = true ↔ d &&& 0x3 = 0x1 := beq_iff_eq
theorem wf_decrypt {d : Word} : Instr.wf (.decrypt d) = true ↔ d &&& 0x3 = 0x3 := beq_iff_eq
theorem wf_setop {d : Word} : Instr.wf (.setop d) = true ↔ d &&& 0x1 = 0x0 := beq_iff_eq

/-- The selector byte a micro-operation is encoded as decodes to it, with OP at either value (R65). -/
theorem decodeBytes_encode_of_selector {i : Instr} (h : i.level = .selector) :
    decodeBytes .selector (encode i) = .ok i := by
  cases i with
  | encrypt | decrypt | setop => cases h
  | idle op | check op | keyload op | nonce op | adFull op | adPart op | fin1 op | fin2 op =>
    simp [encode, decodeBytes_selectorByte, decodeSelector]
  | msgFullEnc | msgFullDec | msgPartEnc | msgPartDec | finishEnc | verifyDec => rfl

/-- Settles O5: a well-formed command is its data word and decodes by its two low bits; a micro-operation's selector
holds its phase and its OP. -/
theorem decodeReadsBackEncode : Obligations.DecodeReadsBackEncode := by
  intro i hwf
  cases i with
  | encrypt d =>
    have h := wf_encrypt.1 hwf
    rw [encode_encrypt h, Instr.level, decodeBytes_st32, decodeCommand_encrypt h]
  | decrypt d =>
    have h := wf_decrypt.1 hwf
    rw [encode_decrypt h, Instr.level, decodeBytes_st32, decodeCommand_decrypt h]
  | setop d =>
    have h := wf_setop.1 hwf
    rw [encode_setop h, Instr.level, decodeBytes_st32, decodeCommand_setop h]
  | _ => exact decodeBytes_encode_of_selector rfl

/-! ### Encoding what was decoded -/

/-- What a data word decodes to is well-formed, a command, and encoded as the word's bytes (R61). -/
theorem decodeCommand_encode (d : Word) :
    (decodeCommand d).wf = true ∧ (decodeCommand d).level = .command ∧ encode (decodeCommand d) = st32 d := by
  obtain h | h | h := command_rows_cover d
  · rw [decodeCommand_encrypt h]; exact ⟨wf_encrypt.2 h, rfl, encode_encrypt h⟩
  · rw [decodeCommand_decrypt h]; exact ⟨wf_decrypt.2 h, rfl, encode_decrypt h⟩
  · rw [decodeCommand_setop h]; exact ⟨wf_setop.2 h, rfl, encode_setop h⟩

/-- What a selector decodes to is well-formed, a micro-operation, and encoded as the selector's byte (R65). -/
theorem decodeSelector_encode {sel : BitVec 5} {i : Instr} (h : decodeSelector sel = .ok i) :
    i.wf = true ∧ i.level = .selector ∧ encode i = selectorByte sel := by
  have hall : ∀ sel : BitVec 5, (decodeSelector sel).toOption.all
      (fun i => i.wf && i.level == .selector && encode i == selectorByte sel) = true := by decide
  have hi := hall sel
  rw [h] at hi
  simpa [Except.toOption, and_assoc] using hi

theorem decodeBytes_command_cases {bytes : List Byte} {i : Instr} (h : decodeBytes .command bytes = .ok i) :
    ∃ b0 b1 b2 b3, bytes = [b0, b1, b2, b3] ∧ i = decodeCommand (le32 b0 b1 b2 b3) := by
  match bytes, h with
  | [b0, b1, b2, b3], h => exact ⟨b0, b1, b2, b3, rfl, (Except.ok.inj h).symm⟩
  | [], h | [_], h | [_, _], h | [_, _, _], h | _ :: _ :: _ :: _ :: _ :: _, h => cases h

/-- Only one byte whose bits 7:5 are zero is a selector (R64). -/
theorem decodeBytes_selector_cases {bytes : List Byte} {i : Instr} (h : decodeBytes .selector bytes = .ok i) :
    ∃ sel, bytes = selectorByte sel ∧ decodeSelector sel = .ok i := by
  have hlow : ∀ b : Byte, b.extractLsb' 5 3 = 0 → (b.extractLsb' 0 5).setWidth 8 = b := by decide
  match bytes, h with
  | [b], h =>
    simp only [decodeBytes] at h
    split at h
    · case isTrue hb => exact ⟨_, congrArg (fun x => [x]) (hlow b hb).symm, h⟩
    · cases h
  | [], h | _ :: _ :: _, h => cases h

/-- Settles O6: four bytes are those of the word they decode as, and a selector byte is that of its selector. -/
theorem decodedBytesAreTheEncoding : Obligations.DecodedBytesAreTheEncoding := by
  intro l bytes i h
  cases l with
  | command =>
    obtain ⟨b0, b1, b2, b3, rfl, rfl⟩ := decodeBytes_command_cases h
    obtain ⟨hwf, hlevel, hencode⟩ := decodeCommand_encode (le32 b0 b1 b2 b3)
    exact ⟨hwf, hlevel, hencode.trans (st32_le32 b0 b1 b2 b3)⟩
  | selector =>
    obtain ⟨sel, rfl, hsel⟩ := decodeBytes_selector_cases h
    exact decodeSelector_encode hsel

/-- Settles O1: the bytes of each word compute to its instruction. -/
theorem wordsOfTheSpecDecode : Obligations.WordsOfTheSpecDecode := by
  unfold Obligations.WordsOfTheSpecDecode
  decide

/-! ### The opcode table -/

/-- No number matches both rows: their levels differ, or their match bits differ under both masks. -/
def Row.Excludes (r q : Row) : Prop := r.level ≠ q.level ∨ r.matchBits &&& q.maskBits ≠ q.matchBits &&& r.maskBits

theorem row_matches_iff (r : Row) (l : Level) (w : Nat) :
    r.matches l w = true ↔ r.level = l ∧ w &&& r.maskBits = r.matchBits := by
  simp [Row.matches]

theorem not_matches_of_excludes {r q : Row} (h : Row.Excludes r q) (l : Level) (w : Nat) :
    ¬ (r.matches l w = true ∧ q.matches l w = true) := by
  rw [row_matches_iff, row_matches_iff]
  rintro ⟨⟨hrl, hr⟩, hql, hq⟩
  obtain hlevel | hbits := h
  · exact hlevel (hrl.trans hql.symm)
  · refine hbits ?_
    rw [← hr, ← hq, Nat.and_right_comm]

theorem opcodeTable_excludes : opcodeTable.Pairwise Row.Excludes := by
  unfold Row.Excludes
  decide

/-- The bytes of a word, numbered as the opcode table numbers them, are the word. -/
theorem bytesNumber_st32 (d : Word) : bytesNumber (st32 d) = d.toNat := by
  simp only [st32, bytesNumber, wordByte, BitVec.extractLsb'_toNat, Nat.shiftRight_eq_div_pow]
  omega

/-- The encoding of a well-formed instruction matches a row of its own mnemonic (R61, R65). -/
theorem exists_row_matches_encode {i : Instr} (hwf : i.wf = true) :
    ∃ r ∈ opcodeTable, r.mnemonic = i.mnemonic ∧ r.matches i.level (bytesNumber (encode i)) = true := by
  cases i with
  | encrypt d =>
    refine ⟨⟨"ENCRYPT", .command, 0x1, 0x3⟩, by decide, rfl, ?_⟩
    have h := wf_encrypt.1 hwf
    rw [encode_encrypt h, bytesNumber_st32, row_matches_iff]
    exact ⟨rfl, congrArg BitVec.toNat h⟩
  | decrypt d =>
    refine ⟨⟨"DECRYPT", .command, 0x3, 0x3⟩, by decide, rfl, ?_⟩
    have h := wf_decrypt.1 hwf
    rw [encode_decrypt h, bytesNumber_st32, row_matches_iff]
    exact ⟨rfl, congrArg BitVec.toNat h⟩
  | setop d =>
    refine ⟨⟨"SETOP", .command, 0x0, 0x1⟩, by decide, rfl, ?_⟩
    have h := wf_setop.1 hwf
    rw [encode_setop h, bytesNumber_st32, row_matches_iff]
    exact ⟨rfl, congrArg BitVec.toNat h⟩
  | idle op | check op | keyload op | nonce op | adFull op | adPart op | fin1 op | fin2 op =>
    revert op; decide
  | msgFullEnc | msgFullDec | msgPartEnc | msgPartDec | finishEnc | verifyDec => decide

theorem opcodeTable_mnemonic_inj : ∀ r ∈ opcodeTable, ∀ q ∈ opcodeTable, r.mnemonic = q.mnemonic → r = q := by decide

/-- Two rows of the table that match the same number at the same level are the same row. -/
theorem eq_of_matches {r q : Row} (hr : r ∈ opcodeTable) (hq : q ∈ opcodeTable) {l : Level} {w : Nat}
    (hrm : r.matches l w = true) (hqm : q.matches l w = true) : r = q := by
  by_contra hne
  have hsymm : Std.Symm Row.Excludes := ⟨fun _ _ h => h.imp Ne.symm Ne.symm⟩
  exact not_matches_of_excludes (opcodeTable_excludes.forall hr hq hne) l w ⟨hrm, hqm⟩

/-- Settles O4: the match bits of any two rows differ under both masks, so an encoding matches the row of its own
mnemonic only. -/
theorem opcodeRowsAreDisjoint : Obligations.OpcodeRowsAreDisjoint := by
  refine ⟨opcodeTable_excludes.imp not_matches_of_excludes, fun i hwf r hr => ?_⟩
  obtain ⟨q, hq, hqname, hqm⟩ := exists_row_matches_encode hwf
  constructor
  · intro hrm
    rw [eq_of_matches hr hq hrm hqm, hqname]
  · intro hname
    rwa [opcodeTable_mnemonic_inj r hr q hq (hname.trans hqname.symm)]

end Sys2Proof.Machine
end

section
/-! PROOFS. One step of either agent (44_sequencer_and_commands.md R107; 20_memory.md R48, R53): what the host's move
can do, that draws are only used up, and what CHECK, NONCE, VERIFY_DEC, the commands and the stops of `exec` answer. -/

namespace Sys2Proof.Machine

/-! ### What CHECK, NONCE and VERIFY_DEC answer -/

/-- CHECK passes or ends the transaction (R103). -/
theorem execCheck_next {s t : State} (h : execCheck s = .next t) :
    t = s.passCheck ∨ ∃ code, t = s.completeErr code := by
  obtain rfl := Host.Outcome.next.inj h
  split
  · exact .inr ⟨_, rfl⟩
  · split
    · exact .inr ⟨_, rfl⟩
    · exact .inl rfl

/-- NONCE absorbs its word and goes on to the next input or to NONCE again (R81). -/
theorem execNonce_next_cases {s t : State} (h : execNonce s = .next t) :
    ∃ w, s.nonceWord = some w ∧
      (t = State.enterNextInput { s with nfsr := absorbNonceWord s.key s.nfsr w, nidx := s.nidx + 1 } ∨
        t = { s with nfsr := absorbNonceWord s.key s.nfsr w, nidx := s.nidx + 1, ph := phNonce }) := by
  obtain ⟨w, hw, rfl⟩ := execNonce_next h
  refine ⟨w, hw, ?_⟩
  dsimp only
  split
  · exact .inl rfl
  · exact .inr rfl

/-- A difference once found stays (R98). -/
theorem eq_zero_of_tagDifference {acc : Byte} {as bs : List Byte} (h : tagDifference acc as bs = 0) : acc = 0 := by
  induction as generalizing acc bs with
  | nil => simpa [tagDifference] using h
  | cons a as ih =>
    cases bs with
    | nil => simpa [tagDifference] using h
    | cons b bs => exact (BitVec.or_eq_zero_iff.1 (ih h)).1

/-- Two tags of one length differ in no bit exactly where they are the same bytes (R98). -/
theorem tagDifference_eq_zero_iff {as bs : List Byte} (hlen : as.length = bs.length) :
    tagDifference 0 as bs = 0 ↔ as = bs := by
  refine ⟨fun h => ?_, fun h => h ▸ tagDifference_self 0 as⟩
  induction as generalizing bs with
  | nil => exact (List.eq_nil_of_length_eq_zero hlen.symm).symm
  | cons a as ih =>
    cases bs with
    | nil => cases hlen
    | cons b bs =>
      rw [tagDifference, show (0 : Byte) ||| (a ^^^ b) = a ^^^ b from BitVec.zero_or] at h
      have hhead : a ^^^ b = 0 := eq_zero_of_tagDifference h
      rw [hhead] at h
      rw [BitVec.xor_eq_zero_iff.1 hhead, ih (Nat.succ.inj hlen) h]

/-- The test of VERIFY_DEC: the supplied bytes, as read, are the computed tag (R98). -/
theorem State.tag_matches_iff (s : State) :
    tagDifference 0 s.tagBytes s.suppliedTag.1 = 0 ↔ s.suppliedTag.1 = s.tagBytes := by
  rw [tagDifference_eq_zero_iff (by rw [State.suppliedTag, Memory.loadBytes_length]; rfl), eq_comm]

/-- VERIFY_DEC with other bytes supplied than the computed tag fails (R98). -/
theorem execVerifyDec_of_mismatch {s : State} (h : s.suppliedTag.1 ≠ s.tagBytes) :
    execVerifyDec s =
      .next ({ s with draws := s.suppliedTag.2, ob := Memory.zeroFirst s.ob s.ml }.completeAuthFail) :=
  congrArg Host.Outcome.next (if_neg (mt s.tag_matches_iff.1 h))

/-- VERIFY_DEC succeeds exactly where the supplied bytes are the computed tag (R98). -/
theorem execVerifyDec_next {s t : State} (h : execVerifyDec s = .next t) :
    (s.suppliedTag.1 = s.tagBytes ∧ t = State.completeOk { s with draws := s.suppliedTag.2 } s.ml) ∨
    (s.suppliedTag.1 ≠ s.tagBytes ∧
      t = State.completeAuthFail { s with draws := s.suppliedTag.2, ob := Memory.zeroFirst s.ob s.ml }) := by
  by_cases hmatch : s.suppliedTag.1 = s.tagBytes
  · have hverify := execVerifyDec_of_match (s := s) (Prod.ext hmatch rfl)
    exact .inl ⟨hmatch, Host.Outcome.next.inj (h.symm.trans hverify)⟩
  · exact .inr ⟨hmatch, Host.Outcome.next.inj (h.symm.trans (execVerifyDec_of_mismatch hmatch))⟩

/-! ### Draws -/

theorem Memory.draws_le_load1 (m : Memory) (o d : Nat) : d ≤ (Memory.load1 m o d).2 := by
  cases h : Memory.get m o with
  | some b => rw [Memory.load1_written h]
  | none => rw [Memory.load1_unwritten h]; exact Nat.le_succ d

theorem Memory.draws_le_loadBytes (m : Memory) (o n d : Nat) : d ≤ (Memory.loadBytes m o n d).2 := by
  induction n generalizing o d with
  | zero => exact Nat.le_refl d
  | succ n ih => exact Nat.le_trans (Memory.draws_le_load1 m o d) (ih (o + 1) _)

theorem Memory.draws_le_loadWord (m : Memory) (o d : Nat) : d ≤ (Memory.loadWord m o d).2 := by
  rw [Memory.loadWord_eq]
  exact Memory.draws_le_loadBytes m o 4 d

theorem draws_le_readOutput (s : State) (o d : Nat) : d ≤ (readOutput s o d).2 := by
  unfold readOutput
  split
  · exact Memory.draws_le_load1 ..
  · exact Nat.le_refl d

theorem draws_le_readWindowByte (s : State) (a d : Nat) : d ≤ (readWindowByte s a d).2 := by
  unfold readWindowByte
  split
  · exact Nat.le_refl d
  · split
    · exact Memory.draws_le_load1 ..
    · exact Nat.le_refl d
  · split
    · exact Memory.draws_le_load1 ..
    · exact Nat.le_refl d
  · exact draws_le_readOutput ..
  · exact Nat.le_succ d

theorem draws_le_readWindow (s : State) (a n d : Nat) : d ≤ (readWindow s a n d).2 := by
  induction n generalizing a d with
  | zero => exact Nat.le_refl d
  | succ n ih => exact Nat.le_trans (draws_le_readWindowByte s a d) (ih (a + 1) _)

theorem draws_le_hostRead (s : State) (off : BitVec 18) (w : Width) : s.draws ≤ (hostRead s off w).2 := by
  unfold hostRead
  split
  · exact Nat.le_refl _
  · exact draws_le_readWindow ..

/-- No instruction gives a draw back. -/
theorem exec_draws_le {i : Instr} {s t : State} (h : exec i s = .next t) : s.draws ≤ t.draws := by
  cases i
  case encrypt | decrypt | setop =>
    simp only [exec, execEncrypt, execDecrypt, execSetop, Host.Outcome.next.injEq] at h
    subst h; split <;> exact Nat.le_refl _
  case check => obtain rfl | ⟨code, rfl⟩ := execCheck_next h <;> exact Nat.le_refl _
  case nonce => obtain ⟨w, -, rfl | rfl⟩ := execNonce_next_cases h <;> exact Nat.le_refl _
  case adFull => obtain ⟨-, rfl⟩ := execAdFull_next h; exact Memory.draws_le_loadWord ..
  case adPart => obtain ⟨-, rfl⟩ := execAdPart_next h; exact Memory.draws_le_loadBytes ..
  case msgFullEnc => obtain ⟨-, rfl⟩ := execMsgFullEnc_next h; exact Memory.draws_le_loadWord ..
  case msgFullDec => obtain ⟨-, rfl⟩ := execMsgFullDec_next h; exact Memory.draws_le_loadWord ..
  case msgPartEnc => obtain ⟨-, rfl⟩ := execMsgPartEnc_next h; exact Memory.draws_le_loadBytes ..
  case msgPartDec => obtain ⟨-, rfl⟩ := execMsgPartDec_next h; exact Memory.draws_le_loadBytes ..
  case verifyDec => obtain ⟨-, rfl⟩ | ⟨-, rfl⟩ := execVerifyDec_next h <;> exact Memory.draws_le_loadBytes ..
  all_goals
    cases h; exact Nat.le_refl _

/-! ### Host writes -/

/-- A register write sets the key, the nonce or a length (20_memory.md R42). -/
theorem writeRegister_frame (s : State) (off : Nat) (v : Word) :
    writeRegister s off v = { s with
      key := (writeRegister s off v).key, nonce := (writeRegister s off v).nonce
      adLen := (writeRegister s off v).adLen, inLen := (writeRegister s off v).inLen } := by
  unfold writeRegister
  repeat' split
  all_goals rfl

/-- A window write sets bytes of the input buffers (20_memory.md R43). -/
theorem writeWindow_frame (s : State) (a : Nat) (bs : List Byte) :
    writeWindow s a bs = { s with ab := (writeWindow s a bs).ab, ib := (writeWindow s a bs).ib } := by
  induction bs generalizing s a with
  | nil => rfl
  | cons b bs ih =>
    rw [writeWindow, ih]
    obtain h | ⟨o, -, h⟩ | ⟨o, -, h⟩ := writeWindowByte_cases s a b <;> rw [h]

/-- A plain host write leaves everything but the key, the nonce, the lengths and the input buffers. -/
theorem hostWrite_frame (s : State) (off : BitVec 18) (w : Width) (v : Word) :
    hostWrite s off w v = { s with
      key := (hostWrite s off w v).key, nonce := (hostWrite s off w v).nonce
      adLen := (hostWrite s off w v).adLen, inLen := (hostWrite s off w v).inLen
      ab := (hostWrite s off w v).ab, ib := (hostWrite s off w v).ib } := by
  unfold hostWrite
  split
  · split
    · rw [writeRegister_frame]
    · rfl
  · rw [writeWindow_frame]

/-! ### The host's move -/

/-- Only the world outside the engine changed, and no draw was given back. -/
structure SameEngine (s t : State) : Prop where
  view : t.engineView = s.engineView
  draws : s.draws ≤ t.draws

/-- A host write that BUSY = 0 lets through: the command of a CTRL word, or a plain write (R48, R60). -/
inductive HostWrites (s t : State) (rest : List HostInput) (off : BitVec 18) (w : Width) (v : Word) : Prop
  | command (h : isCommand off w = true) (exec : exec (decodeCommand v) { s with inputs := rest } = .next t)
  | plain (h : isCommand off w = false) (write : t = hostWrite { s with inputs := rest } off w v)

theorem pollStep_eq (s : State) (off : BitVec 18) (mask val : Word) (rest : List HostInput) :
    pollStep s off mask val rest = { s with
      inputs := if (hostRead s off .w32).1 &&& mask = val then rest else s.inputs
      observed := (hostRead s off .w32).1 :: s.observed
      draws := (hostRead s off .w32).2 } := by
  unfold pollStep
  dsimp only
  split <;> rfl

/-- Everything a move of the host can do: nothing to the engine, a write while BUSY = 0, or a reset (R48, R53, R107). -/
theorem hostStep_cases {s t : State} (h : hostStep s = .next t) :
    SameEngine s t ∨
    (∃ off w v rest, s.inputs = .write off w v :: rest ∧ s.status.busy = false ∧ HostWrites s t rest off w v) ∨
    (∃ rest, s.inputs = .reset :: rest ∧ t = ({ s with inputs := rest }).resetAction) := by
  unfold hostStep at h
  split at h
  · cases h; exact .inl ⟨rfl, Nat.le_refl _⟩
  · next off w v rest hi =>
    unfold hostWriteStep at h
    split at h
    · cases h; exact .inl ⟨rfl, Nat.le_refl _⟩
    · next hbusy =>
      refine .inr (.inl ⟨off, w, v, rest, hi, Bool.eq_false_iff.2 hbusy, ?_⟩)
      split at h
      · next hcommand => exact .command hcommand h
      · next hcommand => cases h; exact .plain (Bool.eq_false_iff.2 hcommand) rfl
  · cases h; exact .inl ⟨rfl, draws_le_hostRead ..⟩
  · cases h; rw [pollStep_eq]; exact .inl ⟨rfl, draws_le_hostRead ..⟩
  · next rest hi => cases h; exact .inr (.inr ⟨rest, hi, rfl⟩)

/-- While BUSY = 1 a move of the host that is no reset does nothing to the engine (R48). -/
theorem hostStep_sameEngine_of_busy {s t : State} (hbusy : s.status.busy = true)
    (hreset : ∀ rest, s.inputs ≠ .reset :: rest) (h : hostStep s = .next t) : SameEngine s t := by
  obtain hsame | ⟨_, _, _, _, -, hidle, -⟩ | ⟨rest, hi, -⟩ := hostStep_cases h
  · exact hsame
  · rw [hbusy] at hidle; cases hidle
  · exact absurd hi (hreset rest)

theorem isCommand_iff (off : BitVec 18) (w : Width) : isCommand off w = true ↔ w = .w32 ∧ off = 0 := by
  simp [isCommand, BitVec.toNat_eq]

theorem decodeCommand_cases (d : Word) :
    decodeCommand d = .encrypt d ∨ decodeCommand d = .decrypt d ∨ decodeCommand d = .setop d := by
  obtain h | h | h := command_rows_cover d
  · exact .inl (decodeCommand_encrypt h)
  · exact .inr (.inl (decodeCommand_decrypt h))
  · exact .inr (.inr (decodeCommand_setop h))

/-- Everything a command can do: nothing while BUSY, begin a transaction, or write the direction (R100 to R102). -/
theorem exec_decodeCommand_cases {d : Word} {s t : State} (h : exec (decodeCommand d) s = .next t) :
    t = s ∨ (∃ op, t = s.startTransaction op) ∨ ∃ op, t = { s with ctrlOp := op } := by
  obtain hd | hd | hd := decodeCommand_cases d <;> rw [hd] at h
  · obtain rfl : (if s.status.busy then s else s.startTransaction 0) = t := Host.Outcome.next.inj h
    split
    · exact .inl rfl
    · exact .inr (.inl ⟨0, rfl⟩)
  · obtain rfl : (if s.status.busy then s else s.startTransaction 1) = t := Host.Outcome.next.inj h
    split
    · exact .inl rfl
    · exact .inr (.inl ⟨1, rfl⟩)
  · obtain rfl : (if s.status.busy then s else { s with ctrlOp := d.extractLsb' 1 1 }) = t := Host.Outcome.next.inj h
    split
    · exact .inl rfl
    · exact .inr (.inr ⟨_, rfl⟩)

/-- A command always answers a next state (R100 to R102). -/
theorem exec_decodeCommand_next (d : Word) (s : State) : ∃ t, exec (decodeCommand d) s = .next t := by
  obtain h | h | h := decodeCommand_cases d <;> rw [h] <;> exact ⟨_, rfl⟩

/-- No access of the host stops the machine (60_exceptions.md R126). -/
theorem hostStep_next (s : State) : ∃ t, hostStep s = .next t := by
  unfold hostStep
  split
  · exact ⟨_, rfl⟩
  · unfold hostWriteStep
    split
    · exact ⟨_, rfl⟩
    · split
      · exact exec_decodeCommand_next ..
      · exact ⟨_, rfl⟩
  all_goals exact ⟨_, rfl⟩

theorem hostStep_draws_le {s t : State} (h : hostStep s = .next t) : s.draws ≤ t.draws := by
  obtain hsame | ⟨off, w, v, rest, -, -, hwrite⟩ | ⟨rest, -, rfl⟩ := hostStep_cases h
  · exact hsame.draws
  · cases hwrite with
    | command _ hexec => exact exec_draws_le (s := { s with inputs := rest }) hexec
    | plain _ hplain => rw [hplain, hostWrite_frame]
  · exact Nat.le_refl _

/-- A step uses up draws and gives none back (log entry 4). -/
theorem step_draws_le {s t : State} (h : step s = .next t) : s.draws ≤ t.draws := by
  obtain ⟨-, ⟨sched, -, hstep⟩ | ⟨sched, -, hstep⟩⟩ := step_cases h
  · exact hostStep_draws_le (s := { s with sched := sched }) hstep
  · obtain ⟨i, -, hexec⟩ := engineStep_next hstep
    exact exec_draws_le (s := { s with sched := sched }) hexec

/-! ### The step is a move of the agent whose turn it is -/

/-- In a good state where the host moves, the step is its move with the choice used up. -/
theorem step_of_hostTurn {s : State} (hgood : s.badState = none) (hturn : s.turn.1 = .host) :
    step s = hostStep { s with sched := s.turn.2 } := by
  have hpair : s.turn = (.host, s.turn.2) := Prod.ext hturn rfl
  rw [step, agentStep, hgood, hpair]

/-- In a good state where the engine moves, the step is its move with the choice used up. -/
theorem step_of_engineTurn {s : State} (hgood : s.badState = none) (hturn : s.turn.1 = .engine) :
    step s = engineStep { s with sched := s.turn.2 } := by
  have hpair : s.turn = (.engine, s.turn.2) := Prod.ext hturn rfl
  rw [step, agentStep, hgood, hpair]

theorem engineStep_of_fetch {s : State} {i : Instr} (h : s.fetch = .ok i) : engineStep s = exec i s := by
  rw [engineStep, h]

/-- Settles O7: the engine's move is `exec` of what it fetches, which the decoder gives well-formed (O6). -/
theorem stepRunsTheSelectedMicroOp : Obligations.StepRunsTheSelectedMicroOp := by
  intro s i hgood hturn hfetch
  refine ⟨(decodedBytesAreTheEncoding _ _ _ hfetch).1, ?_⟩
  rw [step_of_engineTurn hgood hturn]
  exact engineStep_of_fetch hfetch

/-- Settles O8: the host's write of a word to CTRL is `exec` of the command the word decodes to. -/
theorem stepRunsTheWrittenCommand : Obligations.StepRunsTheWrittenCommand := by
  intro s d rest i hgood hturn hin hidle hdecode
  refine ⟨(decodedBytesAreTheEncoding _ _ _ hdecode).1, ?_⟩
  rw [decodeBytes_st32] at hdecode
  cases hdecode
  rw [step_of_hostTurn hgood hturn]
  simp only [hostStep, hin, hostWriteStep, hidle]
  rfl

/-- A write with BUSY = 0 that is no command is the plain write (R42, R43). -/
theorem hostStep_plainWrite {s : State} {off : BitVec 18} {w : Width} {v : Word} {rest : List HostInput}
    (hin : s.inputs = .write off w v :: rest) (hidle : s.status.busy = false) (hplain : w ≠ .w32 ∨ off ≠ 0) :
    hostStep s = .next (hostWrite { s with inputs := rest } off w v) := by
  have hcommand : ¬ isCommand off w = true := by rw [isCommand_iff]; tauto
  simp only [hostStep, hin, hostWriteStep, hidle, hcommand]
  rfl

theorem hostStep_read {s : State} {off : BitVec 18} {w : Width} {rest : List HostInput}
    (hin : s.inputs = .read off w :: rest) :
    hostStep s = .next { s with
      inputs := rest, observed := (hostRead s off w).1 :: s.observed, draws := (hostRead s off w).2 } := by
  simp only [hostStep, hin]
  rfl

theorem hostStep_poll {s : State} {off : BitVec 18} {mask val : Word} {rest : List HostInput}
    (hin : s.inputs = .poll off mask val :: rest) :
    hostStep s = .next { s with
      inputs := if (hostRead s off .w32).1 &&& mask = val then rest else s.inputs
      observed := (hostRead s off .w32).1 :: s.observed
      draws := (hostRead s off .w32).2 } := by
  simp only [hostStep, hin, pollStep_eq]

/-- Settles O59: the move of each access that is no command and no reset, with BUSY = 0 for a write. -/
theorem stepRunsTheHostsMove : Obligations.StepRunsTheHostsMove :=
  ⟨fun _ => step_of_hostTurn, fun _ _ _ _ _ => hostStep_plainWrite, fun _ _ _ _ => hostStep_read,
    fun _ _ _ _ _ => hostStep_poll⟩

/-- Settles O22: a read goes to the list of what the host saw, and that is all but the draws. -/
theorem readsHaveNoSideEffect : Obligations.ReadsHaveNoSideEffect :=
  fun _ _ _ _ hin => ⟨_, hostStep_read hin, rfl, rfl⟩

/-! ### Commands, IDLE, and the stops -/

/-- Settles O25: a START is accepted exactly where BUSY = 0. -/
theorem startCommandsBeginATransaction : Obligations.StartCommandsBeginATransaction := by
  intro d s
  refine ⟨fun hidle => ?accepted, fun hbusy => ?ignored⟩
  case accepted => simp only [exec, execEncrypt, execDecrypt, hidle]; exact ⟨rfl, rfl⟩
  case ignored => simp [exec, execEncrypt, execDecrypt, hbusy]

/-- CTRL reads its OP at bit 1 (10_state.md R24). -/
theorem toNat_ctrlWord (op : BitVec 1) : (ctrlWord op).toNat = 2 * op.toNat := by revert op; decide

/-- Settles O26: the bit goes to CTRL.OP, and CTRL reads it at bit 1. -/
theorem setopWritesTheDirection : Obligations.SetopWritesTheDirection := by
  intro d s
  refine ⟨fun hidle => ⟨{ s with ctrlOp := d.extractLsb' 1 1 }, ?next, rfl, ?bit, ?read⟩, fun hbusy => ?ignored⟩
  case next => simp [exec, execSetop, hidle]
  case bit => simp [BitVec.extractLsb'_toNat, Nat.shiftRight_eq_div_pow]
  case read =>
    change (ctrlWord (d.extractLsb' 1 1)).toNat = _
    rw [toNat_ctrlWord]
    simp [BitVec.extractLsb'_toNat, Nat.shiftRight_eq_div_pow]
  case ignored => simp [exec, execSetop, hbusy]

/-- Settles O27: the engine waits in IDLE. -/
theorem idleChangesNothing : Obligations.IdleChangesNothing := fun _ _ => rfl

theorem execAdFull_of_broken {s : State} (h : ¬ s.adp + 4 ≤ s.adLen.toNat) :
    execAdFull s = .fault .phasePrecondition := if_neg h

theorem execAdPart_of_broken {s : State} (h : ¬ (1 ≤ s.adRest ∧ s.adRest ≤ 3)) :
    execAdPart s = .fault .phasePrecondition := if_neg h

theorem execMsgFull_of_broken {s : State} (h : ¬ s.mp + 4 ≤ s.ml) :
    execMsgFullEnc s = .fault .phasePrecondition ∧ execMsgFullDec s = .fault .phasePrecondition :=
  ⟨if_neg h, if_neg h⟩

theorem execMsgPart_of_broken {s : State} (h : ¬ (1 ≤ s.msgRest ∧ s.msgRest ≤ 3)) :
    execMsgPartEnc s = .fault .phasePrecondition ∧ execMsgPartDec s = .fault .phasePrecondition :=
  ⟨if_neg h, if_neg h⟩

/-- There are three nonce words (R81). -/
theorem nonceWord_of_large {s : State} (h : 3 ≤ s.nidx) : s.nonceWord = none := by
  obtain ⟨n, hn⟩ := Nat.exists_eq_add_of_le' h
  simp [State.nonceWord, hn]

/-- Settles O39: each guard fails outside its precondition, and NONCE finds no word past the third. -/
theorem brokenPreconditionsStop : Obligations.BrokenPreconditionsStop := by
  intro op s
  refine ⟨fun h => execAdFull_of_broken (by omega), fun h => execAdPart_of_broken (by rw [State.adRest]; omega),
    fun h => execMsgFull_of_broken (by omega), fun h => execMsgPart_of_broken (by rw [State.msgRest]; omega),
    fun h => ?nonce⟩
  case nonce => rw [exec, execNonce, nonceWord_of_large h]

end Sys2Proof.Machine
end

section
/-! PROOFS. The invariant of the machine (10_state.md section 4 to 6, 44_sequencer_and_commands.md R103, R104): every
micro-operation runs under it and keeps it, with less work left, and so does every move of the host. -/

namespace Sys2Proof.Machine

/-! ### The invariant past CHECK, and at rest -/

/-- What the invariant says in every phase past CHECK, whatever the counters. -/
structure State.Running (s : State) : Prop where
  buffers : BuffersOk s
  status : s.status = ⟨true, false, false, errNone⟩
  outLen : s.outLen = 0
  lengths : Admitted s
  written : Memory.written s.ob s.mp

theorem EngineInv.running {s : State} (h : EngineInv s) (hph : 2 ≤ s.ph.toNat) : s.Running := by
  obtain ⟨hbuffers, ⟨-, -, hbusy, hrecord⟩, -, hlengths, -, hmasked, -⟩ := h
  obtain ⟨houtv, houtLen, hwritten⟩ := hmasked hph
  have hpast : s.ph ≠ phIdle := by rintro hidle; simp [hidle] at hph
  have hb : s.status.busy = true := hbusy.2 hpast
  obtain ⟨hdone, herr⟩ := hrecord hb
  refine ⟨hbuffers, ?_, houtLen, hlengths hph, hwritten⟩
  cases hs : s.status
  simp_all

theorem EngineInv.counters {s : State} (h : EngineInv s) : CountersOk s := by
  obtain ⟨-, -, -, -, hcounters, -⟩ := h
  exact hcounters

/-- Past CHECK the invariant is `Running`, the counters of the phase, and nothing left over before KEYLOAD. -/
theorem State.Running.engineInv {s : State} (h : s.Running) (hlow : 2 ≤ s.ph.toNat) (hhigh : s.ph.toNat ≤ 10)
    (hzero : ZeroBeforeKeyload s) (hcounters : CountersOk s) : EngineInv s := by
  obtain ⟨hbuffers, hstatus, houtLen, hlengths, hwritten⟩ := h
  have hpast : s.ph ≠ phIdle := by rintro hidle; simp [hidle] at hlow
  refine ⟨hbuffers, ⟨hhigh, ?_, ?_, ?_⟩, hzero, fun _ => hlengths, hcounters, ?_, ?_⟩
  · simp [hstatus]
  · simpa [hstatus] using hpast
  · simp [hstatus]
  · exact fun _ => ⟨by simp [hstatus], houtLen, hwritten⟩
  · simp [hstatus]

/-- A readable result lies within OUT_BUF and is written (20_memory.md R49). -/
def State.ResultOk (s : State) : Prop :=
  s.status.outv = true → s.outLen.toNat ≤ Config.outCap ∧ Memory.written s.ob s.outLen.toNat

theorem EngineInv.result {s : State} (h : EngineInv s) : s.ResultOk := by
  obtain ⟨-, -, -, -, -, -, hresult⟩ := h
  exact hresult

/-- Up to CHECK the invariant asks nothing of lengths and counters. -/
theorem engineInv_of_resting {s : State} (hph : s.ph.toNat ≤ 1) (hbuffers : BuffersOk s) (hstatus : StatusOk s)
    (hzero : ZeroBeforeKeyload s) (hresult : s.ResultOk) : EngineInv s := by
  have hne {p : BitVec 4} (hp : 1 < p.toNat) : s.ph ≠ p := by rintro rfl; omega
  refine ⟨hbuffers, hstatus, hzero, fun hpast => absurd hpast (by omega), ⟨?_, ?_, ?_, ?_, ?_, ?_⟩,
    fun hpast => absurd hpast (by omega), hresult⟩
  · exact fun h => absurd h (hne (by decide))
  · exact fun h => absurd h (hne (by decide))
  · exact fun h => absurd h (hne (by decide))
  · exact fun h => absurd h (hne (by decide))
  · exact fun h => absurd h (hne (by decide))
  · exact fun hlate => absurd hlate (by omega)

/-- Every part of a completion but its output: IDLE, done and not busy, and all that is zeroed (R106). -/
structure State.Completed (s : State) : Prop where
  ph : s.ph = phIdle
  busy : s.status.busy = false
  done : s.status.done = true
  err : s.status.err.toNat ≤ 3
  zero : s.nfsr = ⟨0, 0, 0, 0⟩ ∧ s.t0 = 0 ∧ s.t1 = 0 ∧ s.nidx = 0 ∧ s.adp = 0 ∧ s.mp = 0

theorem State.Completed.engineInv {s : State} (h : s.Completed) (hbuffers : BuffersOk s) (hresult : s.ResultOk) :
    EngineInv s := by
  obtain ⟨hph, hbusy, -, herr, hzero⟩ := h
  refine engineInv_of_resting (by simp [hph]) hbuffers ⟨by simp [hph], herr, ?_, ?_⟩ (fun _ => hzero) hresult
  · simp [hph, hbusy]
  · simp [hbusy]

/-! ### The counters at NEXT_INPUT -/

/-- What NEXT_INPUT answers, and the comparison that led there (R104). -/
theorem nextInput_cases (s : State) :
    (s.nextInput = phAdFull ∧ s.adp + 4 ≤ s.adLen.toNat) ∨
    (s.nextInput = phAdPart ∧ s.adp < s.adLen.toNat ∧ s.adLen.toNat < s.adp + 4) ∨
    (s.nextInput = phMsgFull ∧ s.adLen.toNat ≤ s.adp ∧ s.mp + 4 ≤ s.ml) ∨
    (s.nextInput = phMsgPart ∧ s.adLen.toNat ≤ s.adp ∧ s.mp < s.ml ∧ s.ml < s.mp + 4) ∨
    (s.nextInput = phFin1 ∧ s.adLen.toNat ≤ s.adp ∧ s.ml ≤ s.mp) := by
  unfold State.nextInput
  split
  · exact .inl ⟨rfl, by omega⟩
  split
  · exact .inr (.inl ⟨rfl, by omega⟩)
  split
  · exact .inr (.inr (.inl ⟨rfl, by omega⟩))
  split
  · exact .inr (.inr (.inr (.inl ⟨rfl, by omega⟩)))
  · exact .inr (.inr (.inr (.inr ⟨rfl, by omega⟩)))

/-- The counters between two inputs: within the lengths, at a block or at the end, and the AD before the message. -/
structure State.BetweenInputs (s : State) : Prop where
  adLe : s.adp ≤ s.adLen.toNat
  adBlock : s.adp % 4 = 0 ∨ s.adp = s.adLen.toNat
  mpLe : s.mp ≤ s.ml
  mpBlock : s.mp % 4 = 0 ∨ s.mp = s.ml
  adFirst : s.mp = 0 ∨ s.adp = s.adLen.toNat

@[simp] theorem State.ml_enterNextInput (s : State) : s.enterNextInput.ml = s.ml := rfl

theorem State.BetweenInputs.countersOk {s : State} (h : s.BetweenInputs) : CountersOk s.enterNextInput := by
  obtain ⟨hadLe, hadBlock, hmpLe, hmpBlock, hadFirst⟩ := h
  obtain ⟨hp, hc⟩ | ⟨hp, hc⟩ | ⟨hp, hc⟩ | ⟨hp, hc⟩ | ⟨hp, hc⟩ := nextInput_cases s <;>
    simp [CountersOk, hp, State.ml_enterNextInput] <;> omega

theorem State.Running.enterNextInput {s : State} (h : s.Running) : s.enterNextInput.Running := by
  obtain ⟨hbuffers, hstatus, houtLen, hlengths, hwritten⟩ := h
  exact ⟨hbuffers, hstatus, houtLen, hlengths, hwritten⟩

/-! ### What an engine step past IDLE does -/

/-- The input bytes a transaction has still to read. -/
def State.bytesLeft (s : State) : Nat := (s.adLen.toNat - s.adp) + (s.ml - s.mp)

/-- A bound on the engine steps a transaction still takes: each takes a phase or an input byte. -/
def State.workLeft (s : State) : Nat :=
  match s.ph.toNat with
  | 0 => 0
  | 1 => 9 + s.bytesLeft
  | 2 => 8 + s.bytesLeft
  | 3 => 7 - s.nidx + s.bytesLeft
  | 8 => 3
  | 9 => 2
  | 10 => 1
  | _ => 4 + s.bytesLeft

/-- What a step of the engine past IDLE answers under the invariant: the invariant, less work, and in IDLE a completed
transaction. -/
structure Advances (s t : State) : Prop where
  inv : EngineInv t
  work : t.workLeft < s.workLeft
  done : t.ph = phIdle → t.status.done = true

theorem workLeft_enterNextInput_le (s : State) :
    s.enterNextInput.workLeft ≤ 4 + s.bytesLeft := by
  obtain ⟨hp, -⟩ | ⟨hp, -⟩ | ⟨hp, -⟩ | ⟨hp, -⟩ | ⟨hp, -⟩ := nextInput_cases s <;>
    simp [State.workLeft, State.bytesLeft, hp]
  omega

/-- A micro-operation that goes on to NEXT_INPUT. -/
theorem State.Running.advances_enterNextInput {s u : State} (h : u.Running) (hbetween : u.BetweenInputs)
    (hwork : 4 + u.bytesLeft < s.workLeft) : Advances s u.enterNextInput := by
  have hph : 4 ≤ u.nextInput.toNat ∧ u.nextInput.toNat ≤ 8 := by
    obtain ⟨hp, -⟩ | ⟨hp, -⟩ | ⟨hp, -⟩ | ⟨hp, -⟩ | ⟨hp, -⟩ := nextInput_cases u <;> simp [hp]
  obtain ⟨hlow, hhigh⟩ := hph
  have hlow' : 4 ≤ u.enterNextInput.ph.toNat := hlow
  refine ⟨h.enterNextInput.engineInv (by omega) (Nat.le_trans hhigh (by omega)) (fun hearly => absurd hearly (by omega))
    hbetween.countersOk, Nat.lt_of_le_of_lt (workLeft_enterNextInput_le u) hwork, fun hidle => ?_⟩
  rw [hidle] at hlow'
  exact absurd hlow' (by decide)

/-- A micro-operation that ends the transaction. -/
theorem State.Completed.advances {s t : State} (h : t.Completed) (hinv : EngineInv t) (hwork : 0 < s.workLeft) :
    Advances s t := by
  refine ⟨hinv, ?_, fun _ => h.done⟩
  have hzero : t.workLeft = 0 := by simp [State.workLeft, h.ph]
  rwa [hzero]

/-! ### CHECK, KEYLOAD and NONCE -/

/-- A CHECK of illegal lengths ends with one of the two codes (R103). -/
theorem execCheck_of_not_admitted {s : State} (h : ¬ Admitted s) :
    ∃ code, code.toNat ≤ 3 ∧ execCheck s = .next (s.completeErr code) := by
  by_cases hshort : s.ctrlOp = 1 ∧ s.inLen.toNat < 8
  · exact ⟨errCtShort, by decide, execCheck_of_ctShort hshort.1 hshort.2⟩
  · refine ⟨errCapacity, by decide, execCheck_of_overCapacity hshort ?_⟩
    by_contra hcap
    push Not at hcap
    exact h ⟨hcap.1, hcap.2, fun hop => Nat.not_lt.1 fun hlt => hshort ⟨hop, hlt⟩⟩

theorem execCheck_advances {s : State} (h : EngineInv s) (hph : s.ph = phCheck) :
    ∃ t, execCheck s = .next t ∧ Advances s t := by
  have hresult := h.result
  obtain ⟨hbuffers, ⟨-, -, hbusy, hrecord⟩, hzero, -⟩ := h
  have hzero := hzero (by simp [hph])
  by_cases ha : Admitted s
  · refine ⟨s.passCheck, execCheck_of_admitted ha, ?inv, ?work, fun hidle => absurd hidle (by simp)⟩
    case inv =>
      have hb : s.status.busy = true := hbusy.2 (by simp [hph])
      obtain ⟨hdone, herr⟩ := hrecord hb
      have hrunning : s.passCheck.Running :=
        ⟨hbuffers, by simp [Status.withOutv, hb, hdone, herr], rfl, ha, fun o ho => absurd ho (Nat.not_lt_zero o)⟩
      obtain ⟨hnfsr, ht0, ht1, -⟩ := hzero
      exact hrunning.engineInv (by simp) (by simp) (fun _ => ⟨hnfsr, ht0, ht1, rfl, rfl, rfl⟩) (by simp [CountersOk])
    case work =>
      obtain ⟨-, -, -, -, hadp, hmp⟩ := hzero
      have hleft : s.workLeft = 9 + s.bytesLeft := by simp [State.workLeft, hph]
      have hbytes : s.passCheck.bytesLeft = s.bytesLeft := by
        rw [State.bytesLeft, State.bytesLeft, hadp, hmp]
        rfl
      change 8 + s.passCheck.bytesLeft < s.workLeft
      omega
  · obtain ⟨code, hcode, hexec⟩ := execCheck_of_not_admitted ha
    have hcompleted : (s.completeErr code).Completed := ⟨rfl, rfl, rfl, hcode, hzero⟩
    exact ⟨_, hexec, hcompleted.advances (hcompleted.engineInv hbuffers hresult) (by simp [State.workLeft, hph])⟩

theorem execKeyload_advances {s : State} (h : EngineInv s) (hph : s.ph = phKeyload) :
    ∃ t, execKeyload s = .next t ∧ Advances s t := by
  obtain ⟨hbuffers, hstatus, houtLen, hlengths, hwritten⟩ := h.running (by simp [hph])
  obtain ⟨-, -, hzero, -⟩ := h
  obtain ⟨-, -, -, hnidx, hadp, hmp⟩ := hzero (by simp [hph])
  refine ⟨_, rfl, ?inv, ?work, fun hidle => absurd hidle (by simp)⟩
  case inv =>
    refine State.Running.engineInv ⟨hbuffers, hstatus, houtLen, hlengths, hwritten⟩ (by simp) (by simp)
      (by simp [ZeroBeforeKeyload]) ?_
    simp [CountersOk, hnidx, hadp, hmp]
  case work =>
    have hleft : s.workLeft = 8 + s.bytesLeft := by simp [State.workLeft, hph]
    change 7 - s.nidx + s.bytesLeft < s.workLeft
    omega

theorem execNonce_advances {s : State} (h : EngineInv s) (hph : s.ph = phNonce) :
    ∃ t, execNonce s = .next t ∧ Advances s t := by
  obtain ⟨hbuffers, hstatus, houtLen, hlengths, hwritten⟩ := h.running (by simp [hph])
  obtain ⟨hnonce, -⟩ := h.counters
  obtain ⟨hnidx, hadp, hmp⟩ := hnonce hph
  have hwork : s.workLeft = 7 - s.nidx + s.bytesLeft := by simp [State.workLeft, hph]
  obtain hlast | ⟨w, hw⟩ : s.nidx = 2 ∨ ∃ w, s.nidx < 2 ∧ s.nonceWord = some w := by
    unfold State.nonceWord
    interval_cases s.nidx <;> simp
  · refine ⟨_, execNonce_of_third hlast, State.Running.advances_enterNextInput (u := { s with nfsr := _, nidx := 3 })
      ⟨hbuffers, hstatus, houtLen, hlengths, hwritten⟩ ⟨?_, ?_, ?_, ?_, ?_⟩ ?_⟩
    · simp [hadp]
    · simp [hadp]
    · simp [hmp]
    · simp [hmp]
    · simp [hmp]
    · change 4 + s.bytesLeft < s.workLeft
      omega
  · obtain ⟨hmore, hw⟩ := hw
    refine ⟨_, execNonce_of_more hw (by omega), ?inv, ?work, fun hidle => absurd hidle (by simp)⟩
    case inv =>
      refine State.Running.engineInv ⟨hbuffers, hstatus, houtLen, hlengths, hwritten⟩ (by simp) (by simp)
        (by simp [ZeroBeforeKeyload]) ?_
      simp [CountersOk, hadp, hmp]
      omega
    case work =>
      change 7 - (s.nidx + 1) + s.bytesLeft < s.workLeft
      omega

/-! ### The input steps -/

/-- An AD step that takes `r` bytes. -/
theorem advances_ad {s : State} (h : EngineInv s) (hph : s.ph = phAdFull ∨ s.ph = phAdPart) {r p : Nat} (n : Nfsr)
    (d : Nat) (hp : p = s.adp + r) (hpos : 0 < r) (hend : p ≤ s.adLen.toNat) (hblock : r = 4 ∨ p = s.adLen.toNat) :
    Advances s ({ s with nfsr := n, adp := p, draws := d }).enterNextInput := by
  obtain ⟨hbuffers, hstatus, houtLen, hlengths, hwritten⟩ := h.running (by obtain hph | hph := hph <;> simp [hph])
  have hwork : s.workLeft = 4 + s.bytesLeft := by obtain hph | hph := hph <;> simp [State.workLeft, hph]
  have hcounters : s.adp % 4 = 0 ∧ s.mp = 0 := by
    obtain ⟨-, hfull, hpart, -⟩ := h.counters
    obtain hph | hph := hph
    · obtain ⟨-, hc⟩ := hfull hph
      exact hc
    · obtain ⟨-, -, hc⟩ := hpart hph
      exact hc
  obtain ⟨hadp, hmp⟩ := hcounters
  refine State.Running.advances_enterNextInput ⟨hbuffers, hstatus, houtLen, hlengths, hwritten⟩
    ⟨hend, ?_, ?_, ?_, .inl hmp⟩ ?_
  · change p % 4 = 0 ∨ p = s.adLen.toNat
    omega
  · simp [hmp]
  · simp [hmp]
  · change 4 + ((s.adLen.toNat - p) + (s.ml - s.mp)) < _
    rw [hwork, State.bytesLeft]
    omega

theorem Memory.written_storeBytes {m : Memory} {o : Nat} (h : Memory.written m o) (bs : List Byte) :
    Memory.written (Memory.storeBytes m o bs) (o + bs.length) := by
  intro p hp
  rw [Memory.get_storeBytes]
  split
  · rw [List.getElem?_eq_getElem (by omega)]; rfl
  · exact h p (by omega)

theorem State.ml_le (s : State) : s.ml ≤ s.inLen.toNat := by
  unfold State.ml
  split <;> omega

/-- The output of a transaction fits OUT_BUF (20_memory.md R51). -/
theorem BuffersOk.storeBytes {s t : State} (h : BuffersOk s) {o : Nat} {out : List Byte}
    (hend : o + out.length ≤ Config.outCap) (hab : t.ab = s.ab) (hib : t.ib = s.ib)
    (hob : t.ob = Memory.storeBytes s.ob o out) : BuffersOk t := by
  obtain ⟨habok, hibok, hwf, hbound⟩ := h
  refine ⟨hab ▸ habok, hib ▸ hibok, ?_⟩
  rw [hob]
  exact ⟨Memory.wf_storeBytes hwf _ _, Memory.bound_storeBytes hbound hend⟩

/-- A MSG step that stores the bytes `out`, one for each byte it reads. -/
theorem advances_msg {s : State} (h : EngineInv s) (hph : s.ph = phMsgFull ∨ s.ph = phMsgPart) {out : List Byte}
    {p : Nat} (n : Nfsr) (d : Nat) (hp : p = s.mp + out.length) (hpos : 0 < out.length) (hend : p ≤ s.ml)
    (hblock : out.length = 4 ∨ p = s.ml) :
    Advances s ({ s with
      nfsr := n, ob := Memory.storeBytes s.ob s.mp out, mp := p, draws := d }).enterNextInput := by
  obtain ⟨hbuffers, hstatus, houtLen, hlengths, hwritten⟩ := h.running (by obtain hph | hph := hph <;> simp [hph])
  have hwork : s.workLeft = 4 + s.bytesLeft := by obtain hph | hph := hph <;> simp [State.workLeft, hph]
  have hcounters : s.adp = s.adLen.toNat ∧ s.mp % 4 = 0 := by
    obtain ⟨-, -, -, hfull, hpart, -⟩ := h.counters
    obtain hph | hph := hph
    · obtain ⟨hadp, -, hmp⟩ := hfull hph
      exact ⟨hadp, hmp⟩
    · obtain ⟨hadp, -, -, hmp⟩ := hpart hph
      exact ⟨hadp, hmp⟩
  obtain ⟨hadp, hmp⟩ := hcounters
  have hfits : s.mp + out.length ≤ Config.outCap := by
    obtain ⟨-, hin, -⟩ := hlengths
    have hml := s.ml_le
    unfold Config.outCap
    omega
  refine State.Running.advances_enterNextInput ⟨hbuffers.storeBytes hfits rfl rfl rfl, hstatus, houtLen, hlengths, ?_⟩
    ⟨Nat.le_of_eq hadp, .inr hadp, hend, ?_, .inr hadp⟩ ?_
  · rw [hp]
    exact Memory.written_storeBytes hwritten out
  · change p % 4 = 0 ∨ p = s.ml
    omega
  · change 4 + ((s.adLen.toNat - s.adp) + (s.ml - p)) < _
    rw [hwork, State.bytesLeft]
    omega

theorem execAdFull_advances {s : State} (h : EngineInv s) (hph : s.ph = phAdFull) :
    ∃ t, execAdFull s = .next t ∧ Advances s t := by
  obtain ⟨-, hfull, -⟩ := h.counters
  obtain ⟨hpre, -⟩ := hfull hph
  exact ⟨_, if_pos hpre, advances_ad h (.inl hph) _ _ rfl (by omega) hpre (.inl rfl)⟩

theorem execAdPart_advances {s : State} (h : EngineInv s) (hph : s.ph = phAdPart) :
    ∃ t, execAdPart s = .next t ∧ Advances s t := by
  obtain ⟨-, -, hpart, -⟩ := h.counters
  obtain ⟨hlow, hhigh, -⟩ := hpart hph
  have hrest : s.adp + s.adRest = s.adLen.toNat := by rw [State.adRest]; omega
  exact ⟨_, if_pos (by omega), advances_ad h (.inr hph) _ _ hrest.symm (by omega) (Nat.le_refl _) (.inr rfl)⟩

theorem execMsgFull_advances {s : State} (h : EngineInv s) (hph : s.ph = phMsgFull) :
    (∃ t, execMsgFullEnc s = .next t ∧ Advances s t) ∧ ∃ t, execMsgFullDec s = .next t ∧ Advances s t := by
  obtain ⟨-, -, -, hfull, -⟩ := h.counters
  obtain ⟨-, hpre, -⟩ := hfull hph
  exact ⟨⟨_, if_pos hpre, advances_msg h (.inl hph) _ _ rfl (by simp) hpre (.inl rfl)⟩,
    ⟨_, if_pos hpre, advances_msg h (.inl hph) _ _ rfl (by simp) hpre (.inl rfl)⟩⟩

theorem advances_afterMsgPart {s : State} (h : EngineInv s) (hph : s.ph = phMsgPart) {r : Nat} (hr : s.mp + r = s.ml)
    (hpos : 0 < r) (ps : List Byte) {out : List Byte} (hlen : out.length = r) :
    Advances s (s.afterMsgPart r ps out) := by
  subst hlen
  exact advances_msg h (.inr hph) _ _ hr.symm hpos (Nat.le_refl _) (.inr rfl)

theorem execMsgPart_advances {s : State} (h : EngineInv s) (hph : s.ph = phMsgPart) :
    (∃ t, execMsgPartEnc s = .next t ∧ Advances s t) ∧ ∃ t, execMsgPartDec s = .next t ∧ Advances s t := by
  obtain ⟨-, -, -, -, hpart, -⟩ := h.counters
  obtain ⟨-, hlow, hhigh, -⟩ := hpart hph
  obtain ⟨r, hr⟩ := Nat.exists_eq_add_of_le (Nat.le_of_lt hlow)
  exact ⟨⟨_, execMsgPartEnc_of_rest hr.symm (by omega) (by omega) rfl,
      advances_afterMsgPart h hph hr.symm (by omega) _ (by simp)⟩,
    ⟨_, execMsgPartDec_of_rest hr.symm (by omega) (by omega) rfl,
      advances_afterMsgPart h hph hr.symm (by omega) _ (by simp)⟩⟩

/-! ### Finalization -/

/-- A finalization step keeps the counters at the ends of the inputs. -/
theorem advances_fin {s t : State} (h : EngineInv s) (hph : 8 ≤ s.ph.toNat) {n : Nfsr} {w0 w1 : Word} {p : BitVec 4}
    (ht : t = { s with nfsr := n, t0 := w0, t1 := w1, ph := p }) (hp : p = phFin2 ∨ p = phFinish)
    (hwork : t.workLeft < s.workLeft) : Advances s t := by
  obtain ⟨hbuffers, hstatus, houtLen, hlengths, hwritten⟩ := h.running (by omega)
  obtain ⟨-, -, -, -, -, hends⟩ := h.counters
  have hends := hends hph
  subst ht
  refine ⟨?_, hwork, fun hidle => ?_⟩
  · refine State.Running.engineInv ⟨hbuffers, hstatus, houtLen, hlengths, hwritten⟩ ?_ ?_ ?_ ?_
    · obtain rfl | rfl := hp <;> simp
    · obtain rfl | rfl := hp <;> simp
    · obtain rfl | rfl := hp <;> simp [ZeroBeforeKeyload]
    · obtain rfl | rfl := hp <;> simpa [CountersOk, State.ml] using hends
  · obtain rfl | rfl := hp <;> exact absurd hidle (by simp)

theorem execFin1_advances {s : State} (h : EngineInv s) (hph : s.ph = phFin1) :
    ∃ t, execFin1 s = .next t ∧ Advances s t :=
  ⟨_, rfl, advances_fin h (by simp [hph]) rfl (.inl rfl) (by simp [State.workLeft, hph])⟩

theorem execFin2_advances {s : State} (h : EngineInv s) (hph : s.ph = phFin2) :
    ∃ t, execFin2 s = .next t ∧ Advances s t :=
  ⟨_, rfl, advances_fin h (by simp [hph]) rfl (.inr rfl) (by simp [State.workLeft, hph])⟩

theorem completed_completeOk (s : State) (n : Nat) : (s.completeOk n).Completed :=
  ⟨rfl, rfl, rfl, by simp, rfl, rfl, rfl, rfl, rfl, rfl⟩

theorem completed_completeAuthFail (s : State) : s.completeAuthFail.Completed :=
  ⟨rfl, rfl, rfl, by simp, rfl, rfl, rfl, rfl, rfl, rfl⟩

/-- A length within OUT_BUF is held by OUT_LEN (R28). -/
theorem toNat_outLen_of_le {n : Nat} (h : n ≤ Config.outCap) : (BitVec.ofNat 32 n).toNat = n := by
  have hcap := inCap_le
  unfold Config.outCap at h
  exact Nat.mod_eq_of_lt (by omega)

/-- A successful completion of written output within OUT_BUF. -/
theorem resultOk_completeOk {s : State} {n : Nat} (hcap : n ≤ Config.outCap) (hwritten : Memory.written s.ob n) :
    (s.completeOk n).ResultOk := by
  intro _
  rw [State.completeOk_outLen, toNat_outLen_of_le hcap]
  exact ⟨hcap, hwritten⟩

theorem resultOk_completeAuthFail (s : State) : s.completeAuthFail.ResultOk := by
  simp [State.ResultOk]

theorem execFinishEnc_advances {s : State} (h : EngineInv s) (hph : s.ph = phFinish) :
    ∃ t, execFinishEnc s = .next t ∧ Advances s t := by
  obtain ⟨hbuffers, -, -, ⟨-, hin, -⟩, hwritten⟩ := h.running (by simp [hph])
  obtain ⟨-, -, -, -, -, hends⟩ := h.counters
  obtain ⟨-, hmp⟩ := hends (by simp [hph])
  have hcap : s.ml + 8 ≤ Config.outCap := by
    have hml := s.ml_le
    unfold Config.outCap
    omega
  have hcompleted := completed_completeOk { s with ob := Memory.storeBytes s.ob s.ml s.tagBytes } (s.ml + Config.tagLen)
  refine ⟨_, rfl, hcompleted.advances (hcompleted.engineInv (hbuffers.storeBytes hcap rfl rfl rfl) ?_)
    (by simp [State.workLeft, hph])⟩
  rw [hmp] at hwritten
  exact resultOk_completeOk hcap (Memory.written_storeBytes hwritten s.tagBytes)

theorem execVerifyDec_advances {s : State} (h : EngineInv s) (hph : s.ph = phFinish) :
    ∃ t, execVerifyDec s = .next t ∧ Advances s t := by
  obtain ⟨hbuffers, -, -, ⟨-, hin, -⟩, hwritten⟩ := h.running (by simp [hph])
  obtain ⟨-, -, -, -, -, hends⟩ := h.counters
  obtain ⟨-, hmp⟩ := hends (by simp [hph])
  have hcap : s.ml ≤ Config.outCap := by
    have hml := s.ml_le
    unfold Config.outCap
    omega
  have hwork : 0 < s.workLeft := by simp [State.workLeft, hph]
  refine ⟨_, rfl, ?_⟩
  split
  · have hcompleted := completed_completeOk { s with draws := s.suppliedTag.2 } s.ml
    rw [hmp] at hwritten
    exact hcompleted.advances (hcompleted.engineInv hbuffers (resultOk_completeOk hcap hwritten)) hwork
  · have hcompleted := completed_completeAuthFail
      { s with draws := s.suppliedTag.2, ob := Memory.zeroFirst s.ob s.ml }
    refine hcompleted.advances (hcompleted.engineInv ?_ (resultOk_completeAuthFail _)) hwork
    exact hbuffers.storeBytes (o := 0) (out := List.replicate s.ml 0) (by simpa using hcap) rfl rfl rfl

/-! ### Every step -/

/-- A phase code of the spec selects a micro-operation (R65). -/
theorem fetch_ok {s : State} (h : s.ph.toNat ≤ 10) : ∃ i, s.fetch = .ok i := by
  have hall : ∀ (op : BitVec 1) (ph : BitVec 4), ph.toNat ≤ 10 → (decodeSelector (selectorOf op ph)).toBool = true := by
    decide
  have hok := hall s.ctrlOp s.ph h
  rw [← fetch_eq] at hok
  cases hf : s.fetch with
  | ok i => exact ⟨i, rfl⟩
  | error e => rw [hf] at hok; cases hok

/-- Under the invariant every micro-operation but IDLE runs, keeps the invariant and leaves less work. -/
theorem exec_advances {s : State} {i : Instr} (h : EngineInv s) (hph : s.ph ≠ phIdle) (hf : s.fetch = .ok i) :
    ∃ t, exec i s = .next t ∧ Advances s t := by
  obtain ⟨hp, -⟩ | ⟨hp, rfl⟩ | ⟨hp, rfl⟩ | ⟨hp, rfl⟩ | ⟨hp, rfl⟩ | ⟨hp, rfl⟩ | ⟨hp, -, rfl⟩ | ⟨hp, -, rfl⟩ |
    ⟨hp, -, rfl⟩ | ⟨hp, -, rfl⟩ | ⟨hp, rfl⟩ | ⟨hp, rfl⟩ | ⟨hp, -, rfl⟩ | ⟨hp, -, rfl⟩ := fetch_cases hf
  · exact absurd hp hph
  · exact execCheck_advances h hp
  · exact execKeyload_advances h hp
  · exact execNonce_advances h hp
  · exact execAdFull_advances h hp
  · exact execAdPart_advances h hp
  · exact (execMsgFull_advances h hp).1
  · exact (execMsgFull_advances h hp).2
  · exact (execMsgPart_advances h hp).1
  · exact (execMsgPart_advances h hp).2
  · exact execFin1_advances h hp
  · exact execFin2_advances h hp
  · exact execFinishEnc_advances h hp
  · exact execVerifyDec_advances h hp

theorem EngineInv.ph_le {s : State} (h : EngineInv s) : s.ph.toNat ≤ 10 := by
  obtain ⟨-, ⟨hph, -⟩, -⟩ := h
  exact hph

theorem EngineInv.badState_eq_none {s : State} (h : EngineInv s) : s.badState = none := by
  obtain ⟨-, ⟨hph, herr, -⟩, -⟩ := h
  exact Machine.badState_eq_none.2 ⟨hph, herr⟩

theorem EngineInv.busy_iff {s : State} (h : EngineInv s) : s.status.busy = true ↔ s.ph ≠ phIdle := by
  obtain ⟨-, ⟨-, -, hbusy, -⟩, -⟩ := h
  exact hbusy

/-- In IDLE the engine's move is no change (R105). -/
theorem engineStep_of_idle {s : State} (hph : s.ph = phIdle) : engineStep s = .next s :=
  engineStep_of_fetch (i := .idle s.ctrlOp) (by simp [fetch_eq, decodeSelector, hph])

theorem engineStep_advances {s : State} (h : EngineInv s) (hph : s.ph ≠ phIdle) :
    ∃ t, engineStep s = .next t ∧ Advances s t := by
  obtain ⟨i, hf⟩ := fetch_ok h.ph_le
  rw [engineStep_of_fetch hf]
  exact exec_advances h hph hf

theorem engineStep_inv {s : State} (h : EngineInv s) : ∃ t, engineStep s = .next t ∧ EngineInv t := by
  by_cases hph : s.ph = phIdle
  · exact ⟨s, engineStep_of_idle hph, h⟩
  · obtain ⟨t, hstep, hadv⟩ := engineStep_advances h hph
    exact ⟨t, hstep, hadv.inv⟩

/-- The invariant speaks of the engine only, not of the world outside. -/
theorem EngineInv.of_view {s t : State} (h : EngineInv s) (hview : t.engineView = s.engineView) : EngineInv t := by
  have hs : EngineInv s.engineView := h
  rw [← hview] at hs
  exact hs

/-- Settles O49: at reset nothing is written, running or left over. -/
theorem resetMeetsTheInvariant : Obligations.ResetMeetsTheInvariant :=
  engineInv_of_resting (by decide) ⟨by simp [State.reset], by simp [State.reset], by simp [State.reset]⟩
    (by simp [StatusOk, State.reset]) (fun _ => ⟨rfl, rfl, rfl, rfl, rfl, rfl⟩) (by simp [State.ResultOk, State.reset])

theorem BuffersOk.writeWindow {s : State} (h : BuffersOk s) (a : Nat) (bs : List Byte) :
    BuffersOk (writeWindow s a bs) := by
  induction bs generalizing s a with
  | nil => exact h
  | cons b bs ih =>
    refine ih ?_ (a + 1)
    obtain ⟨⟨habWf, habBound⟩, ⟨hibWf, hibBound⟩, hob⟩ := h
    obtain hw | ⟨o, ho, hw⟩ | ⟨o, ho, hw⟩ := writeWindowByte_cases s a b <;> rw [hw]
    · exact ⟨⟨habWf, habBound⟩, ⟨hibWf, hibBound⟩, hob⟩
    · exact ⟨⟨Memory.wf_set habWf o b, Memory.bound_set habBound ho⟩, ⟨hibWf, hibBound⟩, hob⟩
    · exact ⟨⟨habWf, habBound⟩, ⟨Memory.wf_set hibWf o b, Memory.bound_set hibBound ho⟩, hob⟩

theorem BuffersOk.hostWrite {s : State} (h : BuffersOk s) (off : BitVec 18) (w : Width) (v : Word) :
    BuffersOk (hostWrite s off w v) := by
  unfold Machine.hostWrite
  split
  · split
    · rw [writeRegister_frame]; exact h
    · exact h
  · exact h.writeWindow _ _

/-- A plain write in IDLE keeps the invariant: it reaches no field that the invariant ties to another in IDLE. -/
theorem EngineInv.hostWrite {s : State} (h : EngineInv s) (hph : s.ph = phIdle) (off : BitVec 18) (w : Width)
    (v : Word) : EngineInv (hostWrite s off w v) := by
  have hresult := h.result
  obtain ⟨hbuffers, hstatus, hzero, -⟩ := h
  have hbuffers := hbuffers.hostWrite off w v
  rw [hostWrite_frame] at hbuffers ⊢
  exact engineInv_of_resting (by simp [hph]) hbuffers hstatus hzero hresult

theorem EngineInv.startTransaction {s : State} (h : EngineInv s) (hph : s.ph = phIdle) (op : BitVec 1) :
    EngineInv (s.startTransaction op) := by
  have hresult := h.result
  obtain ⟨hbuffers, -, hzero, -⟩ := h
  exact engineInv_of_resting (by simp) hbuffers (by simp [StatusOk]) (fun _ => hzero (by simp [hph])) hresult

theorem EngineInv.setop {s : State} (h : EngineInv s) (hph : s.ph = phIdle) (op : BitVec 1) :
    EngineInv { s with ctrlOp := op } := by
  have hresult := h.result
  obtain ⟨hbuffers, hstatus, hzero, -⟩ := h
  exact engineInv_of_resting (by simp [hph]) hbuffers hstatus hzero hresult

theorem EngineInv.command {s t : State} (h : EngineInv s) (hph : s.ph = phIdle) {d : Word}
    (hexec : exec (decodeCommand d) s = .next t) : EngineInv t := by
  obtain rfl | ⟨op, rfl⟩ | ⟨op, rfl⟩ := exec_decodeCommand_cases hexec
  · exact h
  · exact h.startTransaction hph op
  · exact h.setop hph op

theorem hostStep_inv {s t : State} (h : EngineInv s) (hstep : hostStep s = .next t) : EngineInv t := by
  obtain hsame | ⟨off, w, v, rest, -, hidle, hwrite⟩ | ⟨rest, -, rfl⟩ := hostStep_cases hstep
  · exact h.of_view hsame.view
  · have hph : s.ph = phIdle := by
      by_contra hpast
      rw [h.busy_iff.2 hpast] at hidle
      cases hidle
    have hrest : EngineInv { s with inputs := rest } := h.of_view rfl
    cases hwrite with
    | command _ hexec => exact hrest.command hph hexec
    | plain _ hplain => rw [hplain]; exact hrest.hostWrite hph off w v
  · exact resetMeetsTheInvariant.of_view rfl

/-- Settles O48: what the agent whose turn it is answers keeps the invariant. -/
theorem everyStepKeepsTheInvariant : Obligations.EveryStepKeepsTheInvariant := by
  intro s t h hstep
  obtain ⟨-, ⟨sched, -, hmove⟩ | ⟨sched, -, hmove⟩⟩ := step_cases hstep
  · exact hostStep_inv (s := { s with sched := sched }) (h.of_view rfl) hmove
  · obtain ⟨u, hu, hinv⟩ := engineStep_inv (s := { s with sched := sched }) (h.of_view rfl)
    cases hmove.symm.trans hu
    exact hinv

/-- Settles O50: the state is good, the host never stops, and the engine's micro-operation runs. -/
theorem invariantStatesNeverStop : Obligations.InvariantStatesNeverStop := by
  intro s h
  cases hturn : s.turn.1 with
  | host =>
    obtain ⟨t, ht⟩ := hostStep_next { s with sched := s.turn.2 }
    exact ⟨t, (step_of_hostTurn h.badState_eq_none hturn).trans ht⟩
  | engine =>
    obtain ⟨t, ht, -⟩ := engineStep_inv (s := { s with sched := s.turn.2 }) (h.of_view rfl)
    exact ⟨t, (step_of_engineTurn h.badState_eq_none hturn).trans ht⟩

end Sys2Proof.Machine
end

section
/-! PROOFS. Whole-machine rules (20_memory.md R48, R54; 44_sequencer_and_commands.md R107; 60_exceptions.md R128): what
no step changes while BUSY, in IDLE, or without a successful completion, and that the engine's run does not depend on
the world outside once its inputs are written. -/

namespace Sys2Proof.Machine

/-! ### Frozen inputs -/

/-- States with the same engine differ in the world outside only. -/
theorem State.eq_of_view {s t : State} (h : t.engineView = s.engineView) :
    t = { s with inputs := t.inputs, sched := t.sched, observed := t.observed, draws := t.draws } := by
  cases s
  cases t
  simp_all [State.engineView]

/-- The fetch gives a micro-operation, never a command (R64). -/
theorem fetch_level {s : State} {i : Instr} (h : s.fetch = .ok i) : i.level = .selector := by
  rw [fetch_eq] at h
  exact (decodeSelector_encode h).2.1

/-- No micro-operation writes the direction (R24). -/
theorem exec_ctrlOp {i : Instr} {s t : State} (hi : i.level = .selector) (h : exec i s = .next t) :
    t.ctrlOp = s.ctrlOp := by
  cases i
  case encrypt | decrypt | setop => cases hi
  case check => obtain rfl | ⟨code, rfl⟩ := execCheck_next h <;> rfl
  case nonce => obtain ⟨w, -, rfl | rfl⟩ := execNonce_next_cases h <;> rfl
  case adFull => obtain ⟨-, rfl⟩ := execAdFull_next h; rfl
  case adPart => obtain ⟨-, rfl⟩ := execAdPart_next h; rfl
  case msgFullEnc => obtain ⟨-, rfl⟩ := execMsgFullEnc_next h; rfl
  case msgFullDec => obtain ⟨-, rfl⟩ := execMsgFullDec_next h; rfl
  case msgPartEnc => obtain ⟨-, rfl⟩ := execMsgPartEnc_next h; rfl
  case msgPartDec => obtain ⟨-, rfl⟩ := execMsgPartDec_next h; rfl
  case verifyDec => obtain ⟨-, rfl⟩ | ⟨-, rfl⟩ := execVerifyDec_next h <;> rfl
  all_goals
    cases h; rfl

/-- Settles O44: while BUSY the host's move does nothing to the engine, and no micro-operation writes an input. -/
theorem transactionInputsAreFrozen : Obligations.TransactionInputsAreFrozen := by
  intro s t hbusy hreset hstep
  obtain ⟨-, ⟨sched, -, hmove⟩ | ⟨sched, -, hmove⟩⟩ := step_cases hstep
  · have hview := (hostStep_sameEngine_of_busy (s := { s with sched := sched }) hbusy hreset hmove).view
    rw [State.eq_of_view hview]
    exact ⟨rfl, rfl, rfl, rfl, rfl, rfl, rfl⟩
  · obtain ⟨i, hf, hexec⟩ := engineStep_next hmove
    have hop := exec_ctrlOp (s := { s with sched := sched }) (fetch_level hf) hexec
    obtain ⟨hkey, hnonce, hadLen, hinLen, hab, hib, -⟩ := exec_sameInputs hexec
    exact ⟨hop, hkey, hnonce, hadLen, hinLen, hab, hib⟩

/-! ### The engine's step does not depend on the world outside -/

/-- Written bytes are read without a draw, so the count of draws does not matter. -/
theorem Memory.loadBytes_draws_irrel {m : Memory} {o n : Nat} (h : ∀ j, j < n → (Memory.get m (o + j)).isSome = true)
    (d e : Nat) : (Memory.loadBytes m o n d).1 = (Memory.loadBytes m o n e).1 := by
  induction n generalizing o d e with
  | zero => rfl
  | succ n ih =>
    obtain ⟨b, hb⟩ := Option.isSome_iff_exists.1 (h 0 (Nat.succ_pos n))
    rw [Nat.add_zero] at hb
    simp only [Memory.loadBytes, Memory.load1_written hb]
    rw [ih (fun j hj => ?_) d e]
    have := h (j + 1) (Nat.succ_lt_succ hj)
    rwa [Nat.add_right_comm, Nat.add_assoc]

/-- A read that ends within the written bytes. -/
theorem Memory.written.loadBytes_draws_irrel {m : Memory} {o n k : Nat} (h : Memory.written m k) (hk : o + n ≤ k)
    (d e : Nat) : (Memory.loadBytes m o n d).1 = (Memory.loadBytes m o n e).1 :=
  Memory.loadBytes_draws_irrel (fun j hj => h (o + j) (by omega)) d e

theorem Memory.written.loadWord_draws_irrel {m : Memory} {o k : Nat} (h : Memory.written m k) (hk : o + 4 ≤ k)
    (d e : Nat) : (Memory.loadWord m o d).1 = (Memory.loadWord m o e).1 := by
  rw [Memory.loadWord_eq, Memory.loadWord_eq]
  exact congrArg leBytes (h.loadBytes_draws_irrel hk d e)

theorem State.adWord_engineView {s : State} (hab : Memory.written s.ab s.adLen.toNat)
    (hpre : s.adp + 4 ≤ s.adLen.toNat) : s.engineView.adWord.1 = s.adWord.1 :=
  hab.loadWord_draws_irrel hpre _ _

theorem State.adChunk_engineView {s : State} (hab : Memory.written s.ab s.adLen.toNat) (hpre : 1 ≤ s.adRest) :
    s.engineView.adChunk.1 = s.adChunk.1 :=
  hab.loadBytes_draws_irrel (o := s.adp) (n := s.adRest) (by rw [State.adRest] at hpre ⊢; omega) _ _

theorem State.msgWord_engineView {s : State} (hib : Memory.written s.ib s.inLen.toNat) (hpre : s.mp + 4 ≤ s.ml) :
    s.engineView.msgWord.1 = s.msgWord.1 :=
  hib.loadWord_draws_irrel (Nat.le_trans hpre s.ml_le) _ _

theorem State.msgChunk_engineView {s : State} (hib : Memory.written s.ib s.inLen.toNat) (hpre : 1 ≤ s.msgRest) :
    s.engineView.msgChunk.1 = s.msgChunk.1 :=
  have hml := s.ml_le
  hib.loadBytes_draws_irrel (o := s.mp) (n := s.msgRest) (by rw [State.msgRest] at hpre ⊢; omega) _ _

theorem execNonce_of_word {s : State} {w : Word} (hw : s.nonceWord = some w) :
    execNonce s = .next
      (let u := { s with nfsr := (tagShort s.nfsr s.key Config.fbNonce).absorbWord w, nidx := s.nidx + 1 }
        if u.nidx = 3 then u.enterNextInput else { u with ph := phNonce }) := by
  rw [execNonce, hw]

/-- With every input byte written, a micro-operation does to the engine what it does with the world outside taken
away. -/
theorem exec_engineView {i : Instr} {s t : State} (hi : i.level = .selector) (hab : Memory.written s.ab s.adLen.toNat)
    (hib : Memory.written s.ib s.inLen.toNat) (htag : i = .verifyDec → s.ml + 8 ≤ s.inLen.toNat)
    (h : exec i s = .next t) : ∃ u, exec i s.engineView = .next u ∧ t.engineView = u.engineView := by
  cases i
  case encrypt | decrypt | setop => cases hi
  case check =>
    simp only [exec, execCheck, Host.Outcome.next.injEq] at h
    refine ⟨_, rfl, ?_⟩
    subst h
    change _ = (if s.ctShort then _ else if s.overCapacity then _ else _ : State).engineView
    split
    · rfl
    · split <;> rfl
  case nonce =>
    obtain ⟨w, hw, rfl⟩ := execNonce_next h
    refine ⟨_, execNonce_of_word (s := s.engineView) hw, ?_⟩
    change (if s.nidx + 1 = 3 then _ else _ : State).engineView = (if s.nidx + 1 = 3 then _ else _ : State).engineView
    split <;> rfl
  case adFull =>
    obtain ⟨hpre, rfl⟩ := execAdFull_next h
    exact ⟨_, if_pos hpre, by rw [State.adWord_engineView hab hpre]; rfl⟩
  case adPart =>
    obtain ⟨hpre, rfl⟩ := execAdPart_next h
    exact ⟨_, if_pos hpre, by rw [State.adChunk_engineView hab hpre.1]; rfl⟩
  case msgFullEnc =>
    obtain ⟨hpre, rfl⟩ := execMsgFullEnc_next h
    exact ⟨_, if_pos hpre, by rw [State.msgWord_engineView hib hpre]; rfl⟩
  case msgFullDec =>
    obtain ⟨hpre, rfl⟩ := execMsgFullDec_next h
    exact ⟨_, if_pos hpre, by rw [State.msgWord_engineView hib hpre]; rfl⟩
  case msgPartEnc =>
    obtain ⟨hpre, rfl⟩ := execMsgPartEnc_next h
    exact ⟨_, if_pos hpre, by rw [State.msgChunk_engineView hib hpre.1]; rfl⟩
  case msgPartDec =>
    obtain ⟨hpre, rfl⟩ := execMsgPartDec_next h
    exact ⟨_, if_pos hpre, by rw [State.msgChunk_engineView hib hpre.1]; rfl⟩
  case verifyDec =>
    have hread : s.engineView.suppliedTag.1 = s.suppliedTag.1 := hib.loadBytes_draws_irrel (htag rfl) _ _
    simp only [exec, execVerifyDec, Host.Outcome.next.injEq] at h
    subst h
    refine ⟨_, rfl, ?_⟩
    rw [hread]
    change _ = (if tagDifference 0 s.tagBytes s.suppliedTag.1 = 0 then _ else _ : State).engineView
    split <;> rfl
  all_goals
    cases h; exact ⟨_, rfl, rfl⟩

/-- VERIFY_DEC is fetched past CHECK and for a decrypt, so the tag lies within the input (R98, R103). -/
theorem EngineInv.tag_within_input {s : State} (h : EngineInv s) (hf : s.fetch = .ok .verifyDec) :
    s.ml + 8 ≤ s.inLen.toNat := by
  have hphase : s.ph = phFinish ∧ s.ctrlOp = 1 := by simpa using fetch_cases hf
  obtain ⟨hph, hop⟩ := hphase
  obtain ⟨-, -, hlong⟩ := (h.running (by simp [hph])).lengths
  have hlong := hlong hop
  rw [State.ml_of_decrypt hop]
  exact Nat.le_of_eq (Nat.sub_add_cancel hlong)

/-- Settles O45: the host's move does nothing to a busy engine, and the engine's micro-operation reads only written
bytes. -/
theorem interleavingDoesNotReachTheEngine : Obligations.InterleavingDoesNotReachTheEngine := by
  intro s t h hbusy hreset hab hib hstep
  obtain ⟨-, ⟨sched, -, hmove⟩ | ⟨sched, -, hmove⟩⟩ := step_cases hstep
  · exact .inl (hostStep_sameEngine_of_busy (s := { s with sched := sched }) hbusy hreset hmove).view
  · obtain ⟨i, hf, hexec⟩ := engineStep_next hmove
    have htag : i = .verifyDec → s.ml + 8 ≤ s.inLen.toNat := fun hi => h.tag_within_input (hi ▸ hf)
    obtain ⟨u, hu, hview⟩ := exec_engineView (s := { s with sched := sched }) (fetch_level hf) hab hib htag hexec
    have halone : EngineInv s.engineView := h
    exact .inr ⟨u, (step_of_fetch (s := s.engineView) rfl halone.badState_eq_none hf).trans hu, hview⟩

/-! ### The record of a completion -/

/-- SETOP writes the direction and nothing else (R102). -/
theorem setop_record {d : Word} {s t : State} (h : exec (.setop d) s = .next t) :
    t = { s with ctrlOp := t.ctrlOp } := by
  simp only [exec, execSetop, Host.Outcome.next.injEq] at h
  subst h
  split <;> rfl

/-- Settles O46: in IDLE the engine waits, and of the host's moves only START and reset reach the record. -/
theorem recordStaysUntilTheNextStart : Obligations.RecordStaysUntilTheNextStart := by
  intro s t hph hreset hstart hstep
  obtain ⟨-, ⟨sched, -, hmove⟩ | ⟨sched, -, hmove⟩⟩ := step_cases hstep
  · obtain hsame | ⟨off, w, v, rest, hi, -, hwrite⟩ | ⟨rest, hi, -⟩ := hostStep_cases hmove
    · rw [State.eq_of_view hsame.view]
      exact ⟨rfl, rfl, rfl, hph⟩
    · cases hwrite with
      | command hcommand hexec =>
        obtain ⟨rfl, rfl⟩ := (isCommand_iff off w).1 hcommand
        rw [decodeCommand_setop (hstart v rest hi)] at hexec
        rw [setop_record hexec]
        exact ⟨rfl, rfl, rfl, hph⟩
      | plain _ hplain =>
        rw [hplain, hostWrite_frame]
        exact ⟨rfl, rfl, rfl, hph⟩
    · exact absurd hi (hreset rest)
  · cases hmove.symm.trans (engineStep_of_idle (s := { s with sched := sched }) hph)
    exact ⟨rfl, rfl, rfl, hph⟩

/-- No command sets OUTV. -/
theorem command_outv {d : Word} {s t : State} (h : exec (decodeCommand d) s = .next t) :
    t.status.outv = s.status.outv := by
  obtain rfl | ⟨op, rfl⟩ | ⟨op, rfl⟩ := exec_decodeCommand_cases h <;> rfl

/-- A micro-operation that sets OUTV is a successful completion (R106). -/
theorem exec_outv {i : Instr} {s t : State} (hi : i.level = .selector) (h : exec i s = .next t)
    (hs : s.status.outv = false) (ht : t.status.outv = true) :
    i = .finishEnc ∨ (i = .verifyDec ∧ s.suppliedTag.1 = s.tagBytes) := by
  have hkeep (hsame : t.status.outv = s.status.outv) : False := by simp [hsame, hs] at ht
  cases i
  case encrypt | decrypt | setop => cases hi
  case check =>
    obtain rfl | ⟨code, rfl⟩ := execCheck_next h
    · cases ht
    · exact (hkeep rfl).elim
  case nonce => obtain ⟨w, -, rfl | rfl⟩ := execNonce_next_cases h <;> exact (hkeep rfl).elim
  case adFull => obtain ⟨-, rfl⟩ := execAdFull_next h; exact (hkeep rfl).elim
  case adPart => obtain ⟨-, rfl⟩ := execAdPart_next h; exact (hkeep rfl).elim
  case msgFullEnc => obtain ⟨-, rfl⟩ := execMsgFullEnc_next h; exact (hkeep rfl).elim
  case msgFullDec => obtain ⟨-, rfl⟩ := execMsgFullDec_next h; exact (hkeep rfl).elim
  case msgPartEnc => obtain ⟨-, rfl⟩ := execMsgPartEnc_next h; exact (hkeep rfl).elim
  case msgPartDec => obtain ⟨-, rfl⟩ := execMsgPartDec_next h; exact (hkeep rfl).elim
  case finishEnc => exact .inl rfl
  case verifyDec =>
    obtain ⟨hmatch, rfl⟩ | ⟨-, rfl⟩ := execVerifyDec_next h
    · exact .inr ⟨rfl, hmatch⟩
    · cases ht
  all_goals
    cases h; exact (hkeep rfl).elim

/-- Settles O47: the host's moves keep or clear OUTV, and of the micro-operations only a successful completion sets
it. -/
theorem onlySuccessMakesOutputValid : Obligations.OnlySuccessMakesOutputValid := by
  intro s t hstep hs ht
  obtain ⟨-, ⟨sched, -, hmove⟩ | ⟨sched, hturn, hmove⟩⟩ := step_cases hstep
  · have hkeep (hsame : t.status.outv = s.status.outv) : False := by simp [hsame, hs] at ht
    obtain hsame | ⟨off, w, v, rest, -, -, hwrite⟩ | ⟨rest, -, rfl⟩ := hostStep_cases hmove
    · exact (hkeep (by rw [State.eq_of_view hsame.view])).elim
    · cases hwrite with
      | command _ hexec => exact (hkeep (command_outv (s := { s with inputs := rest, sched := sched }) hexec)).elim
      | plain _ hplain => exact (hkeep (by rw [hplain, hostWrite_frame])).elim
    · cases ht
  · obtain ⟨i, hf, hexec⟩ := engineStep_next hmove
    refine ⟨congrArg Prod.fst hturn, ?_⟩
    obtain rfl | ⟨rfl, hmatch⟩ := exec_outv (s := { s with sched := sched }) (fetch_level hf) hexec hs ht
    · exact .inl hf
    · exact .inr ⟨hf, hmatch⟩

end Sys2Proof.Machine
end

section
/-! PROOFS. The course of a transaction with the host silent (44_sequencer_and_commands.md R104, R109, R111): the
micro-operations it performs one by one, DECRYPT's whole-buffer contract, and a WAIT beside any interleaving. -/

namespace Sys2Proof.Machine

/-! ### Performing a list of micro-operations -/

/-- A busy engine, the host silent, whose next step is the micro-operation `i`. -/
structure State.Performing (s : State) (i : Instr) : Prop where
  silent : s.Silent
  busy : s.status.busy = true
  past : s.ph ≠ phIdle
  fetch : s.fetch = .ok i

/-- The engine performs these micro-operations, one a step, from the first state to the second. -/
def Performs : List Instr → State → State → Prop
  | [], s, t => s = t
  | i :: is, s, t => s.Performing i ∧ ∃ u, step s = .next u ∧ Performs is u t

theorem Performs.cons {i : Instr} {is : List Instr} {s u t : State} (hs : s.Performing i) (hstep : step s = .next u)
    (h : Performs is u t) : Performs (i :: is) s t := ⟨hs, u, hstep, h⟩

theorem Performs.one {i : Instr} {s t : State} (hs : s.Performing i) (hstep : step s = .next t) : Performs [i] s t :=
  ⟨hs, t, hstep, rfl⟩

theorem Performs.append {is js : List Instr} {s t u : State} (h : Performs is s t) (h' : Performs js t u) :
    Performs (is ++ js) s u := by
  induction is generalizing s with
  | nil => cases h; exact h'
  | cons i is ih =>
    obtain ⟨hs, v, hstep, hrest⟩ := h
    exact ⟨hs, v, hstep, ih hrest⟩

theorem Performs.runSteps {is : List Instr} {s t : State} (h : Performs is s t) : runSteps is.length s = .next t := by
  induction is generalizing s with
  | nil => cases h; rfl
  | cons i is ih =>
    obtain ⟨-, u, hstep, hrest⟩ := h
    exact (runSteps_succ _ hstep).trans (ih hrest)

theorem Performs.microTrace {is : List Instr} {s t : State} (h : Performs is s t) : microTrace is.length s = is := by
  induction is generalizing s with
  | nil => rfl
  | cons i is ih =>
    obtain ⟨hs, u, hstep, hrest⟩ := h
    have hengine : engineStep s = .next u :=
      (engineStep_of_fetch hs.fetch).trans ((step_of_silent hs.silent hs.fetch).symm.trans hstep)
    simp only [List.length_cons, Machine.microTrace, if_neg hs.past, hs.fetch, hengine, ih hrest]

/-- The engine is busy at every step of the way. -/
theorem Performs.busy {is : List Instr} {s t : State} (h : Performs is s t) {k : Nat} (hk : k < is.length) :
    ∃ u, Machine.runSteps k s = .next u ∧ u.status.busy = true := by
  induction is generalizing s k with
  | nil => exact absurd hk (Nat.not_lt_zero k)
  | cons i is ih =>
    obtain ⟨hs, u, hstep, hrest⟩ := h
    cases k with
    | zero => exact ⟨s, rfl, hs.busy⟩
    | succ k =>
      obtain ⟨v, hrun, hbusy⟩ := ih hrest (Nat.lt_of_succ_lt_succ hk)
      exact ⟨v, (runSteps_succ k hstep).trans hrun, hbusy⟩

/-- The micro-operations that read an input of `n` bytes: one for each block, and one for the last chunk (R104). -/
def inputOps (full part : Instr) (n : Nat) : List Instr :=
  List.replicate (n / 4) full ++ if n % 4 = 0 then [] else [part]

theorem inputOps_add_four (full part : Instr) (n : Nat) :
    inputOps full part (4 + n) = full :: inputOps full part n := by
  simp [inputOps, Nat.add_comm 4, List.replicate_succ]

theorem inputOps_chunk (full part : Instr) {n : Nat} (hlow : 1 ≤ n) (hhigh : n ≤ 3) :
    inputOps full part n = [part] := by
  rw [inputOps, Nat.div_eq_of_lt (by omega), Nat.mod_eq_of_lt (by omega), if_neg (by omega)]
  rfl

/-- An input performed block by block; the hypotheses are those of `runSteps_blocks`. -/
theorem performs_blocks {left : State → Nat → Prop} {after : State → Nat → State} {full part : Instr}
    (none_left : ∀ {s}, left s 0 → after s 0 = s)
    (chunk : ∀ {s n}, left s n → 1 ≤ n → n ≤ 3 → s.Performing part ∧ step s = .next (after s n))
    (block : ∀ {s n}, left s (4 + n) → s.Performing full ∧ step s = .next (after s 4) ∧ left (after s 4) n)
    (after_block : ∀ s n, after (after s 4) n = after s (4 + n)) {s : State} {n : Nat} (h : left s n) :
    Performs (inputOps full part n) s (after s n) := by
  induction n using Nat.strong_induction_on generalizing s with
  | h n ih =>
    obtain rfl | hpos := Nat.eq_zero_or_pos n
    · exact (none_left h).symm
    rcases Nat.lt_or_ge n 4 with hsmall | hlarge
    · obtain ⟨hs, hstep⟩ := chunk h hpos (by omega)
      rw [inputOps_chunk full part hpos (by omega)]
      exact .one hs hstep
    · obtain ⟨m, rfl⟩ := Nat.exists_eq_add_of_le hlarge
      obtain ⟨hs, hstep, hleft⟩ := block h
      rw [inputOps_add_four, ← after_block]
      exact .cons hs hstep (ih m (by omega) hleft)

/-! ### The parts of a transaction -/

theorem State.afterInit_eq (s : State) :
    s.afterInit = { s with
      nfsr := absorbNonceWord s.key (absorbNonceWord s.key (absorbNonceWord s.key (advanceLong ⟨0, 0, 0, 0⟩ s.key)
        s.nonce.n0) s.nonce.n1) s.nonce.n2
      nidx := 3
      ph := phaseAfterInput s.adp s.adLen.toNat s.mp s.ml } := by
  rw [State.afterInit, initState]
  rfl

theorem performs_init {s : State} (hs : s.Silent) (hbusy : s.status.busy = true) (hph : s.ph = phKeyload)
    (hn : s.nidx = 0) :
    Performs [.keyload s.ctrlOp, .nonce s.ctrlOp, .nonce s.ctrlOp, .nonce s.ctrlOp] s s.afterInit := by
  rw [State.afterInit_eq]
  have hnonce {u : State} (hu : u.Silent) (hb : u.status.busy = true) (hp : u.ph = phNonce) :
      u.Performing (.nonce u.ctrlOp) := ⟨hu, hb, by simp [hp], by simp [fetch_eq, decodeSelector, hp]⟩
  have hstep {u v : State} (hu : u.Silent) (hp : u.ph = phNonce) (hexec : execNonce u = .next v) : step u = .next v :=
    (step_nonce hp hu.1 hu.2).trans hexec
  refine .cons ⟨hs, hbusy, by simp [hph], by simp [fetch_eq, decodeSelector, hph]⟩ (step_keyload hph hs.1 hs.2) ?_
  refine .cons (hnonce hs hbusy rfl) (hstep hs rfl (execNonce_of_first hn)) ?_
  refine .cons (hnonce hs hbusy rfl) (hstep hs rfl (execNonce_of_second rfl)) ?_
  exact .one (hnonce hs hbusy rfl) (hstep hs rfl (execNonce_of_third rfl))

theorem performing_adBlock {s : State} {n : Nat} (h : s.AdLeft (4 + n)) (hbusy : s.status.busy = true) :
    s.Performing (.adFull s.ctrlOp) := by
  obtain ⟨hs, hp, hlen⟩ := h
  have hph : s.ph = phAdFull := hp.trans (if_pos (by omega))
  exact ⟨hs, hbusy, by simp [hph], by simp [fetch_eq, decodeSelector, hph]⟩

theorem performing_adChunk {s : State} {n : Nat} (h : s.AdLeft n) (hbusy : s.status.busy = true) (hlow : 1 ≤ n)
    (hhigh : n ≤ 3) : s.Performing (.adPart s.ctrlOp) := by
  obtain ⟨hs, hp, hlen⟩ := h
  have hph : s.ph = phAdPart := by rw [hp, State.nextInput, if_neg (by omega), if_pos (by omega)]
  exact ⟨hs, hbusy, by simp [hph], by simp [fetch_eq, decodeSelector, hph]⟩

theorem performs_ad {s : State} {n : Nat} (h : s.AdLeft n) (hbusy : s.status.busy = true) :
    Performs (inputOps (.adFull s.ctrlOp) (.adPart s.ctrlOp) n) s (s.afterAd n) := by
  refine performs_blocks (left := fun u n => u.AdLeft n ∧ u.status.busy = true ∧ u.ctrlOp = s.ctrlOp)
    (fun h => State.afterAd_zero h.1) ?chunk ?block State.afterAd_block ⟨h, hbusy, rfl⟩
  case chunk =>
    rintro u n ⟨hleft, hb, hop⟩ hlow hhigh
    exact ⟨hop ▸ performing_adChunk hleft hb hlow hhigh, step_adChunk hleft hlow hhigh⟩
  case block =>
    rintro u n ⟨hleft, hb, hop⟩
    obtain ⟨hstep, hnext⟩ := step_adBlock hleft
    exact ⟨hop ▸ performing_adBlock hleft hb, hstep, hnext, hb, hop⟩

/-- The micro-operation of a full message block in a direction (R65). -/
def msgFullOf (op : BitVec 1) : Instr := if op = 0 then .msgFullEnc else .msgFullDec

/-- The micro-operation of a trailing message chunk in a direction (R65). -/
def msgPartOf (op : BitVec 1) : Instr := if op = 0 then .msgPartEnc else .msgPartDec

/-- The last micro-operation of a direction (R65). -/
def finishOf (op : BitVec 1) : Instr := if op = 0 then .finishEnc else .verifyDec

theorem performing_msgBlock {s : State} {n : Nat} (h : s.MsgLeft (4 + n)) (hbusy : s.status.busy = true) :
    s.Performing (msgFullOf s.ctrlOp) := by
  obtain ⟨hs, hp, had, hlen⟩ := h
  have hph : s.ph = phMsgFull := by
    rw [hp, State.nextInput, if_neg (by omega), if_neg (by omega), if_pos (by omega)]
  exact ⟨hs, hbusy, by simp [hph], by simp [fetch_eq, decodeSelector, hph, msgFullOf]⟩

theorem performing_msgChunk {s : State} {n : Nat} (h : s.MsgLeft n) (hbusy : s.status.busy = true) (hlow : 1 ≤ n)
    (hhigh : n ≤ 3) : s.Performing (msgPartOf s.ctrlOp) := by
  obtain ⟨hs, hp, had, hlen⟩ := h
  have hph : s.ph = phMsgPart := by
    rw [hp, State.nextInput, if_neg (by omega), if_neg (by omega), if_neg (by omega), if_pos (by omega)]
  exact ⟨hs, hbusy, by simp [hph], by simp [fetch_eq, decodeSelector, hph, msgPartOf]⟩

theorem performs_msg {s : State} {n : Nat} (h : s.MsgLeft n) (hbusy : s.status.busy = true) :
    Performs (inputOps (msgFullOf s.ctrlOp) (msgPartOf s.ctrlOp) n) s (s.afterMsg n) := by
  refine performs_blocks (left := fun u n => u.MsgLeft n ∧ u.status.busy = true ∧ u.ctrlOp = s.ctrlOp)
    (fun h => State.afterMsg_zero h.1) ?chunk ?block State.afterMsg_block ⟨h, hbusy, rfl⟩
  case chunk =>
    rintro u n ⟨hleft, hb, hop⟩ hlow hhigh
    exact ⟨hop ▸ performing_msgChunk hleft hb hlow hhigh, step_msgChunk hleft hlow hhigh⟩
  case block =>
    rintro u n ⟨hleft, hb, hop⟩
    obtain ⟨hstep, hnext⟩ := step_msgBlock hleft
    exact ⟨hop ▸ performing_msgBlock hleft hb, hstep, hnext, hb, hop⟩

theorem performs_fin {s : State} (hs : s.Silent) (hbusy : s.status.busy = true) (hph : s.ph = phFin1) :
    Performs [.fin1 s.ctrlOp, .fin2 s.ctrlOp] s s.afterFin := by
  have hfirst : s.Performing (.fin1 s.ctrlOp) := ⟨hs, hbusy, by simp [hph], by simp [fetch_eq, decodeSelector, hph]⟩
  refine .cons hfirst (step_of_silent hs hfirst.fetch) ?_
  exact .one ⟨hs, hbusy, by simp, by simp [fetch_eq, decodeSelector]⟩
    (step_of_silent (i := .fin2 s.ctrlOp) hs (by simp [fetch_eq, decodeSelector]))

/-- The last step completes the transaction, in either direction (R97, R98). -/
theorem performs_finish {s : State} (hs : s.Silent) (hbusy : s.status.busy = true) (hph : s.ph = phFinish) :
    ∃ t, Performs [finishOf s.ctrlOp] s t ∧ t.Completed := by
  have hperforming : s.Performing (finishOf s.ctrlOp) :=
    ⟨hs, hbusy, by simp [hph], by simp [fetch_eq, decodeSelector, hph, finishOf]⟩
  have hexec : ∃ t, exec (finishOf s.ctrlOp) s = .next t ∧ t.Completed := by
    unfold finishOf
    split
    · exact ⟨_, rfl, completed_completeOk _ _⟩
    · refine ⟨_, rfl, ?_⟩
      split
      · exact completed_completeOk _ _
      · exact completed_completeAuthFail _
  obtain ⟨t, hexec, hcompleted⟩ := hexec
  exact ⟨t, .one hperforming ((step_of_silent hs hperforming.fetch).trans hexec), hcompleted⟩

/-! ### The whole transaction -/

/-- The micro-operations of a transaction, its inputs read block by block (R104). -/
theorem transactionOps_eq (op : BitVec 1) (a m : Nat) :
    transactionOps op a m =
      [.check op] ++ ([.keyload op, .nonce op, .nonce op, .nonce op] ++ (inputOps (.adFull op) (.adPart op) a ++
        (inputOps (msgFullOf op) (msgPartOf op) m ++ ([.fin1 op, .fin2 op] ++ [finishOf op])))) := by
  simp only [transactionOps, inputOps, msgFullOf, msgPartOf, finishOf, List.append_assoc, List.cons_append,
    List.nil_append]

theorem inputOps_length (full part : Instr) (n : Nat) : (inputOps full part n).length = (n + 3) / 4 := by
  unfold inputOps
  split <;> simp <;> omega

/-- The number of micro-operations of R104 is R111's number of steps. -/
theorem transactionOps_length (op : BitVec 1) (a m : Nat) : (transactionOps op a m).length = transactionSteps a m := by
  simp only [transactionOps_eq, List.length_append, inputOps_length, List.length_cons, List.length_nil,
    transactionSteps]
  omega

theorem performing_check {s : State} (hs : Started s) : s.Performing (.check s.ctrlOp) := by
  have hq := hs.silent
  obtain ⟨hph, -, hbusy, -⟩ := hs
  exact ⟨hq, hbusy, by simp [hph], by simp [fetch_eq, decodeSelector, hph]⟩

/-- A transaction that passes CHECK performs the micro-operations of R104 and completes. -/
theorem performs_transaction {s : State} (hs : Started s) (ha : Admitted s) :
    ∃ t, Performs (transactionOps s.ctrlOp s.adLen.toNat s.ml) s t ∧ t.Completed := by
  have hq := hs.silent
  have hcheck := performing_check hs
  have hbusy := hcheck.busy
  have hpass : Performs [.check s.ctrlOp] s s.passCheck :=
    .one hcheck ((step_of_silent hq hcheck.fetch).trans (execCheck_of_admitted ha))
  have hinit := performs_init (s := s.passCheck) hq hbusy rfl rfl
  have had := performs_ad (s := s.passCheck.afterInit) (n := s.adLen.toNat) ⟨hq, rfl, Nat.zero_add _⟩ hbusy
  have hmsg := performs_msg (s := s.passCheck.afterInit.afterAd s.adLen.toNat) (n := s.ml)
    ⟨hq, rfl, Nat.zero_add _, Nat.zero_add _⟩ hbusy
  have hph : ((s.passCheck.afterInit.afterAd s.adLen.toNat).afterMsg s.ml).ph = phFin1 := by
    change phaseAfterInput (0 + s.adLen.toNat) s.adLen.toNat (0 + s.ml) s.ml = phFin1
    simp [phaseAfterInput]
  have hfin := performs_fin (s := (s.passCheck.afterInit.afterAd s.adLen.toNat).afterMsg s.ml) hq hbusy hph
  obtain ⟨t, hfinish, hcompleted⟩ := performs_finish (s := s.atFinish) hq hbusy rfl
  refine ⟨t, ?_, hcompleted⟩
  rw [transactionOps_eq]
  exact hpass.append (hinit.append (had.append (hmsg.append (hfin.append hfinish))))

/-- Settles O51: the trace of a performed list of micro-operations is the list. -/
theorem transactionPerformsTheSequence : Obligations.TransactionPerformsTheSequence := by
  intro s hs ha
  obtain ⟨t, hperforms, -⟩ := performs_transaction hs ha
  rw [← transactionOps_length s.ctrlOp]
  exact hperforms.microTrace

theorem batchesOf_append (is js : List Instr) : batchesOf (is ++ js) = batchesOf is + batchesOf js := by
  simp [batchesOf]

theorem batchesOf_inputOps {full part : Instr} {b : Nat} (hfull : Instr.batches full = b)
    (hpart : Instr.batches part = b) (n : Nat) : batchesOf (inputOps full part n) = b * ((n + 3) / 4) := by
  unfold inputOps
  split
  · rw [show (n + 3) / 4 = n / 4 by omega]
    simp [batchesOf, hfull, Nat.mul_comm]
  · rw [show (n + 3) / 4 = n / 4 + 1 by omega, Nat.mul_succ]
    simp [batchesOf, hfull, hpart, Nat.mul_comm]

/-- R111's number of batches. -/
theorem batchesOf_transactionOps (op : BitVec 1) (a m : Nat) :
    batchesOf (transactionOps op a m) = 160 + 20 * ((a + 3) / 4) + 40 * ((m + 3) / 4) := by
  have hmsg : Instr.batches (msgFullOf op) = 40 ∧ Instr.batches (msgPartOf op) = 40 ∧
      Instr.batches (finishOf op) = 0 := by
    unfold msgFullOf msgPartOf finishOf
    split <;> exact ⟨rfl, rfl, rfl⟩
  obtain ⟨hfull, hpart, hfinish⟩ := hmsg
  have hlast : batchesOf [finishOf op] = 0 := hfinish
  simp only [transactionOps_eq, batchesOf_append, batchesOf_inputOps (full := .adFull op) (part := .adPart op) rfl rfl,
    batchesOf_inputOps hfull hpart, hlast]
  simp only [batchesOf, List.map, List.sum_cons, List.sum_nil, Instr.batches]
  omega

/-- Settles O52: a performed list is busy at each of its steps and as long as R111 says; a CHECK of illegal lengths is
the transaction's only step. -/
theorem transactionsTerminateInBoundedWork : Obligations.TransactionsTerminateInBoundedWork := by
  intro s hs
  refine ⟨fun ha => ?admitted, fun ha => ?rejected⟩
  case admitted =>
    obtain ⟨t, hperforms, hcompleted⟩ := performs_transaction hs ha
    rw [← transactionOps_length s.ctrlOp, hperforms.microTrace]
    exact ⟨fun k hk => hperforms.busy hk, ⟨t, hperforms.runSteps, hcompleted.busy, hcompleted.done, hcompleted.ph⟩,
      batchesOf_transactionOps ..⟩
  case rejected =>
    have hcheck := performing_check hs
    obtain ⟨code, -, hexec⟩ := execCheck_of_not_admitted ha
    have hperforms : Performs [.check s.ctrlOp] s (s.completeErr code) :=
      .one hcheck ((step_of_silent hs.silent hcheck.fetch).trans hexec)
    exact ⟨⟨_, hperforms.runSteps, rfl, rfl, rfl⟩, congrArg batchesOf hperforms.microTrace⟩

end Sys2Proof.Machine
end

section
/-! PROOFS. The whole-buffer contract of DECRYPT (44_sequencer_and_commands.md R109, R110), and a WAIT beside any
interleaving (30_encoding.md R68, 70_reset_and_hazards.md R145). -/

namespace Sys2Proof.Machine

/-! ### The whole-buffer decryption -/

theorem decryptMessage_length (k : Key) (ct : List Byte) (s : Nfsr) : (decryptMessage k ct s).2.length = ct.length := by
  induction ct using blocks_induction generalizing s with
  | nil => rfl
  | chunk c hlow hhigh => simp [decryptMessage_chunk k hlow hhigh, decryptBytes_eq _ 0 c (by omega)]
  | block b0 b1 b2 b3 rest ih => simp [decryptMessage, ih, Nat.add_comm 4]

/-- The whole-buffer decryption of a body and a tag (R109). -/
theorem aeadDecrypt_append (k : Key) (n : Nonce) (ad body : List Byte) {tag : List Byte} (htag : tag.length = 8) :
    aeadDecrypt k n ad (body ++ tag) =
      (let r := decryptMessage k body (absorbAd k ad (initState k n))
       if tagOf k r.1 = tag then some r.2 else none) := by
  have hcut : (body ++ tag).length - Config.tagLen = body.length := by
    rw [List.length_append, htag]
    exact Nat.add_sub_cancel ..
  simp only [aeadDecrypt, hcut, List.take_left', List.drop_left']

/-- Settles O55: the message transform undone leaves the register whose tag was appended. -/
theorem decryptInvertsEncrypt : Obligations.DecryptInvertsEncrypt := by
  intro k n ad pt
  rw [aeadEncrypt_eq_body_append_tag, aeadDecrypt_append k n ad _ (tagOf_length k _), encryptAfterAd]
  simp only [decryptMessage_encryptMessage, if_true]

/-! ### DECRYPT -/

/-- The bytes a DECRYPT reads of its ciphertext and tag: the body, then the supplied tag. -/
def State.ciphertextRead (s : State) : List Byte := s.msgRead.1 ++ s.atFinish.suppliedTag.1

theorem State.suppliedTag_length (s : State) : s.suppliedTag.1.length = 8 := Memory.loadBytes_length ..

/-- Body and tag are one read of the input. -/
theorem State.ciphertextRead_eq (s : State) :
    s.ciphertextRead = (Memory.loadBytes s.ib 0 (s.ml + 8) s.adRead.2).1 := by
  rw [Memory.loadBytes_add, Nat.zero_add]
  rfl

/-- The whole-buffer decryption of the bytes read, as the machine computes it. -/
theorem aeadDecrypt_ciphertextRead {s : State} (hop : s.ctrlOp = 1) :
    aeadDecrypt s.key s.nonce s.adRead.1 s.ciphertextRead =
      if s.atFinish.suppliedTag.1 = s.atFinish.tagBytes then some s.transformed.2 else none := by
  rw [State.ciphertextRead, aeadDecrypt_append _ _ _ _ s.atFinish.suppliedTag_length, State.atFinish_tagBytes,
    State.transformed, transformMessage_of_decrypt hop]
  simp only [eq_comm]

theorem runSteps_decrypt {s : State} (hs : Started s) (ha : Admitted s) (hop : s.ctrlOp = 1) {t : State}
    (hverify : execVerifyDec s.atFinish = .next t) :
    runSteps (transactionSteps s.adLen.toNat (s.inLen.toNat - 8)) s = .next t := by
  rw [← State.ml_of_decrypt hop, runSteps_transaction hs ha]
  exact runSteps_one ((step_verifyDec (s := s.atFinish) hs.silent rfl hop).trans hverify)

/-- Settles O54: the supplied tag, as read, decides both the whole-buffer function and VERIFY_DEC; the bytes of OB are
the recovered ones, or zeroed. -/
theorem decryptMeetsItsContract : Obligations.DecryptMeetsItsContract := by
  intro s hs hop
  refine ⟨fun hlong hin had => ?long, fun hshort => ?short⟩
  case short =>
    have hcheck := performing_check hs
    exact runSteps_one ((step_of_silent hs.silent hcheck.fetch).trans (execCheck_of_ctShort hop hshort))
  case long =>
    have ha : Admitted s := ⟨had, hin, fun _ => hlong⟩
    have hml := State.ml_of_decrypt hop
    have hct : s.ciphertextRead.length = s.inLen.toNat := by
      rw [State.ciphertextRead_eq, Memory.loadBytes_length, hml]
      omega
    have hadReads : Memory.readsAs s.ab 0 s.adRead.1 := Memory.readsAs_loadBytes _ _ _ _
    have hctReads : Memory.readsAs s.ib 0 s.ciphertextRead := by
      rw [State.ciphertextRead_eq]
      exact Memory.readsAs_loadBytes _ _ _ _
    by_cases hmatch : s.atFinish.suppliedTag.1 = s.atFinish.tagBytes
    · have hdecrypt := (aeadDecrypt_ciphertextRead hop).trans (if_pos hmatch)
      have hverify := execVerifyDec_of_match (s := s.atFinish) (Prod.ext hmatch rfl)
      refine ⟨_, s.adRead.1, s.ciphertextRead, runSteps_decrypt hs ha hop hverify, Memory.loadBytes_length .., hadReads,
        hct, hctReads, rfl, fun pt hpt => ?_, fun hnone => ?_⟩
      · obtain rfl : s.transformed.2 = pt := Option.some.inj (hdecrypt.symm.trans hpt)
        have hlen : s.transformed.2.length = s.ciphertextRead.length - 8 := by
          rw [State.transformed, transformMessage_of_decrypt hop, decryptMessage_length, State.msgRead,
            Memory.loadBytes_length, hct, hml]
        refine ⟨rfl, ?_, hlen, ?_⟩
        · have hcap := inCap_le
          change (BitVec.ofNat 32 s.ml).toNat = _
          rw [hct, ← hml]
          exact Nat.mod_eq_of_lt (by omega)
        · exact Memory.holds_storeBytes _ _ _
      · cases hdecrypt.symm.trans hnone
    · have hdecrypt := (aeadDecrypt_ciphertextRead hop).trans (if_neg hmatch)
      refine ⟨_, s.adRead.1, s.ciphertextRead, runSteps_decrypt hs ha hop (execVerifyDec_of_mismatch hmatch),
        Memory.loadBytes_length .., hadReads, hct, hctReads, rfl, fun pt hpt => ?_,
        fun _ => ⟨rfl, rfl, fun a hlt => ?_⟩⟩
      · cases hdecrypt.symm.trans hpt
      · rw [← hml] at hlt
        exact (Memory.get_zeroFirst _ _ a).trans (if_pos hlt)

/-! ### WAIT -/

/-- STATUS as a number, field by field (10_state.md R25). -/
theorem Status.toNat_toWord (f : Status) :
    f.toWord.toNat = f.busy.toNat + 2 * f.done.toNat + 4 * f.outv.toNat + 16 * f.err.toNat := by
  have hall : ∀ (busy done outv : Bool) (err : BitVec 3), (Status.toWord ⟨busy, done, outv, err⟩).toNat =
      busy.toNat + 2 * done.toNat + 4 * outv.toNat + 16 * err.toNat := by decide
  exact hall f.busy f.done f.outv f.err

/-- BUSY is bit 0 of STATUS (10_state.md R25). -/
theorem Status.toWord_and_one (f : Status) : f.toWord &&& 0x1 = 0x0 ↔ f.busy = false := by
  rw [and_one_eq_iff, f.toNat_toWord]
  cases f.busy <;> simp <;> omega

/-- A WAIT that finds the engine idle is done. -/
theorem hostStep_wait_of_idle {s : State} (hin : s.inputs = pseudoWait) (hidle : s.status.busy = false) :
    ∃ t, hostStep s = .next t ∧ t.inputs = [] ∧ t.status = s.status := by
  have hread : (hostRead s (lineOffset offStatus) .w32).1 &&& 0x1 = 0x0 := s.status.toWord_and_one.2 hidle
  exact ⟨_, hostStep_poll hin, if_pos hread, rfl⟩

/-- A WAIT that finds the engine busy stays. -/
theorem hostStep_wait_of_busy {s : State} (hin : s.inputs = pseudoWait) (hbusy : s.status.busy = true) :
    ∃ t, hostStep s = .next t ∧ t.engineView = s.engineView ∧ t.inputs = pseudoWait ∧ t.sched = s.sched := by
  have hread : ¬ (hostRead s (lineOffset offStatus) .w32).1 &&& 0x1 = 0x0 := by
    intro h
    rw [s.status.toWord_and_one.1 h] at hbusy
    cases hbusy
  exact ⟨_, hostStep_poll hin, rfl, (if_neg hread).trans hin, rfl⟩

/-- A host that waits, and the engine running or complete. -/
structure State.Waiting (s : State) : Prop where
  inv : EngineInv s
  wait : s.inputs = pseudoWait
  done : s.ph = phIdle → s.status.done = true

/-- Beside a WAIT the machine's step takes a choice of the interleaving or work of the engine (R107). -/
theorem State.Waiting.step {s : State} (h : s.Waiting) (hph : s.ph ≠ phIdle) :
    ∃ t, Machine.step s = .next t ∧ t.Waiting ∧ t.workLeft + t.sched.length < s.workLeft + s.sched.length := by
  obtain ⟨hinv, hwait, -⟩ := h
  have hgood := hinv.badState_eq_none
  have hin : s.inputs ≠ [] := by rw [hwait]; exact List.cons_ne_nil _ _
  have hengine (sched : List Agent) (hturn : s.turn = (.engine, sched)) (hle : sched.length ≤ s.sched.length) :
      ∃ t, Machine.step s = .next t ∧ t.Waiting ∧ t.workLeft + t.sched.length < s.workLeft + s.sched.length := by
    have hstep := step_of_engineTurn hgood (congrArg Prod.fst hturn)
    rw [hturn] at hstep
    obtain ⟨t, hmove, hinv', hwork, hdone⟩ :=
      engineStep_advances (s := { s with sched := sched }) (hinv.of_view rfl) hph
    obtain ⟨i, -, hexec⟩ := engineStep_next hmove
    obtain ⟨-, -, -, -, -, -, hinputs, hsched, -⟩ := exec_sameInputs hexec
    refine ⟨t, hstep.trans hmove, ⟨hinv', hinputs.trans hwait, hdone⟩, ?_⟩
    rw [hsched]
    exact Nat.add_lt_add_of_lt_of_le hwork hle
  have hturn := turn_of_race hin hph
  cases hs : s.sched with
  | nil => rw [← hs]; exact hengine [] (by rw [hturn, hs]) (Nat.zero_le _)
  | cons a rest =>
    rw [hs] at hturn
    cases a with
    | engine => rw [← hs]; exact hengine rest hturn (by simp [hs])
    | host =>
      have hstep := step_of_hostTurn hgood (congrArg Prod.fst hturn)
      rw [hturn] at hstep
      obtain ⟨t, hmove, hview, hwait', hsched⟩ :=
        hostStep_wait_of_busy (s := { s with sched := rest }) hwait (hinv.busy_iff.2 hph)
      have hsame := State.eq_of_view hview
      have hwork : t.workLeft = s.workLeft := by rw [hsame]; rfl
      have hidle : t.ph = s.ph := by rw [hsame]
      refine ⟨t, hstep.trans hmove, ⟨hinv.of_view hview, hwait', fun h => absurd (hidle.symm.trans h) hph⟩, ?_⟩
      rw [hwork, hsched]
      simp

/-- A WAIT ends with the transaction complete: every step beside it takes a choice or work, and in IDLE it reads
BUSY = 0. -/
theorem State.Waiting.ends {s : State} (h : s.Waiting) :
    ∃ n t, runSteps n s = .next t ∧ t.inputs = [] ∧ t.status.busy = false ∧ t.status.done = true := by
  induction hm : s.workLeft + s.sched.length using Nat.strong_induction_on generalizing s with
  | h m ih =>
    subst hm
    by_cases hph : s.ph = phIdle
    · have hidle : s.status.busy = false := Bool.eq_false_iff.2 fun hbusy => h.inv.busy_iff.1 hbusy hph
      have hin : s.inputs ≠ [] := by rw [h.wait]; exact List.cons_ne_nil _ _
      have hstep := step_of_hostTurn h.inv.badState_eq_none (congrArg Prod.fst (turn_of_idle hin hph))
      obtain ⟨t, hmove, hinputs, hstatus⟩ := hostStep_wait_of_idle (s := { s with sched := s.turn.2 }) h.wait hidle
      exact ⟨1, t, runSteps_one (hstep.trans hmove), hinputs, hstatus ▸ hidle, hstatus ▸ h.done hph⟩
    · obtain ⟨u, hstep, hu, hless⟩ := h.step hph
      obtain ⟨n, t, hn, hend⟩ := ih _ hless hu rfl
      exact ⟨n + 1, t, (runSteps_succ n hstep).trans hn, hend⟩

/-- Settles O57: a busy engine beside a WAIT is past IDLE, where nothing is asked of DONE yet. -/
theorem waitEndsInEveryInterleaving : Obligations.WaitEndsInEveryInterleaving :=
  fun _ hinv hbusy hwait => State.Waiting.ends ⟨hinv, hwait, fun hidle => absurd hidle (hinv.busy_iff.1 hbusy)⟩

end Sys2Proof.Machine
end

section
/-! PROOFS. The host's accesses (20_memory.md R42, R43, R46, R49): what a write leaves in the input buffers and what a
read shows, byte by byte, each by its own offset; and the register block. -/

namespace Sys2Proof.Machine

/-! ### What a read of the windows shows -/

theorem adCap_le : Config.adCap ≤ 0x10000 := Nat.le_of_lt_succ Config.adCapParam.isLt

theorem readWindowByte_ab {s : State} {o d : Nat} (ho : o < 0x10000) :
    readWindowByte s (0x10000 + o) d = if o < Config.adCap then Memory.load1 s.ab o d else (0, d) := by
  simp only [readWindowByte, show (0x10000 + o) / 0x10000 = 1 by omega, show (0x10000 + o) % 0x10000 = o by omega]

theorem readWindowByte_ib {s : State} {o d : Nat} (ho : o < 0x10000) :
    readWindowByte s (0x20000 + o) d = if o < Config.inCap then Memory.load1 s.ib o d else (0, d) := by
  simp only [readWindowByte, show (0x20000 + o) / 0x10000 = 2 by omega, show (0x20000 + o) % 0x10000 = o by omega]

theorem readWindowByte_ob {s : State} {o d : Nat} (ho : o < 0x10000) :
    readWindowByte s (0x30000 + o) d = readOutput s o d := by
  simp only [readWindowByte, show (0x30000 + o) / 0x10000 = 3 by omega, show (0x30000 + o) % 0x10000 = o by omega]

theorem windowByte_ab {s : State} {o : Nat} (ho : o < 0x10000) :
    windowByte s (0x10000 + o) = if o < Config.adCap then Memory.get s.ab o else some 0 := by
  rw [windowByte, if_pos (by omega), Nat.add_sub_cancel_left]

theorem windowByte_ib {s : State} {o : Nat} (ho : o < 0x10000) :
    windowByte s (0x20000 + o) = if o < Config.inCap then Memory.get s.ib o else some 0 := by
  rw [windowByte, if_neg (by omega), if_pos (by omega), Nat.add_sub_cancel_left]

theorem windowByte_ob {s : State} {o : Nat} :
    windowByte s (0x30000 + o) =
      if s.status.busy = false ∧ s.status.outv = true ∧ o < s.outLen.toNat then Memory.get s.ob o else some 0 := by
  rw [windowByte, if_neg (by omega), if_neg (by omega), Nat.add_sub_cancel_left]

/-- An offset of the windows is a byte of AD_BUF, IN_BUF or OUT_BUF (R41). -/
theorem window_cases {a : Nat} (hlow : 0x10000 ≤ a) (hhigh : a < 0x40000) :
    ∃ o, o < 0x10000 ∧ (a = 0x10000 + o ∨ a = 0x20000 + o ∨ a = 0x30000 + o) :=
  ⟨a % 0x10000, by omega, by omega⟩

/-- A byte the window shows is read without a draw (R43, R49). -/
theorem readWindowByte_of_windowByte {s : State} {a : Nat} {b : Byte} (hlow : 0x10000 ≤ a) (hhigh : a < 0x40000)
    (h : windowByte s a = some b) (d : Nat) : readWindowByte s a d = (b, d) := by
  obtain ⟨o, ho, rfl | rfl | rfl⟩ := window_cases hlow hhigh
  · rw [windowByte_ab ho] at h
    rw [readWindowByte_ab ho]
    split at h
    · rw [if_pos ‹_›]; exact Memory.load1_written h
    · rw [if_neg ‹_›]; cases h; rfl
  · rw [windowByte_ib ho] at h
    rw [readWindowByte_ib ho]
    split at h
    · rw [if_pos ‹_›]; exact Memory.load1_written h
    · rw [if_neg ‹_›]; cases h; rfl
  · rw [windowByte_ob] at h
    rw [readWindowByte_ob ho, readOutput]
    split at h
    · rw [if_pos ‹_›]; exact Memory.load1_written h
    · rw [if_neg ‹_›]; cases h; rfl

@[simp] theorem readWindow_length (s : State) (a n d : Nat) : (readWindow s a n d).1.length = n := by
  induction n generalizing a d with
  | zero => rfl
  | succ n ih => simp [readWindow, ih]

/-- Each byte of an access is read by its own offset (R46). -/
theorem readWindow_getElem? {s : State} {a n j : Nat} (hj : j < n) (d : Nat) :
    ∃ e, (readWindow s a n d).1[j]? = some (readWindowByte s (a + j) e).1 := by
  induction n generalizing a j d with
  | zero => exact absurd hj (Nat.not_lt_zero j)
  | succ n ih =>
    cases j with
    | zero => exact ⟨d, rfl⟩
    | succ j =>
      obtain ⟨e, he⟩ := ih (a := a + 1) (Nat.lt_of_succ_lt_succ hj) (readWindowByte s a d).2
      exact ⟨e, by rw [show a + (j + 1) = a + 1 + j by omega]; exact he⟩

/-- Bytes the windows show are read as they stand, and nothing is drawn (R46). -/
theorem readWindow_of_windowByte {s : State} {a : Nat} {bs : List Byte} (hlow : 0x10000 ≤ a)
    (hhigh : a + bs.length ≤ 0x40000) (h : ∀ j, (hj : j < bs.length) → windowByte s (a + j) = some bs[j]) (d : Nat) :
    readWindow s a bs.length d = (bs, d) := by
  induction bs generalizing a with
  | nil => rfl
  | cons b bs ih =>
    rw [List.length_cons] at hhigh
    have hfirst := readWindowByte_of_windowByte hlow (by omega) (h 0 (Nat.succ_pos _)) d
    have hrest := ih (a := a + 1) (by omega) (by omega) fun j hj => by
      have := h (j + 1) (Nat.succ_lt_succ hj)
      rwa [Nat.add_right_comm, Nat.add_assoc]
    simp only [List.length_cons, readWindow, hfirst, hrest, List.getElem_cons_zero]

theorem Width.bytes_le (w : Width) : w.bytes ≤ 4 := by cases w <;> decide

theorem hostRead_window {s : State} {off : BitVec 18} {w : Width} (h : 0x10000 ≤ off.toNat) :
    hostRead s off w =
      (leBytes (readWindow s off.toNat w.bytes s.draws).1, (readWindow s off.toNat w.bytes s.draws).2) := by
  have hout : inRegisterBlock off = false := decide_eq_false (Nat.not_lt.2 h)
  rw [hostRead, hout]
  rfl

theorem hostWrite_window {s : State} {off : BitVec 18} {w : Width} {v : Word} (h : 0x10000 ≤ off.toNat) :
    hostWrite s off w v = writeWindow s off.toNat ((st32 v).take w.bytes) := by
  have hout : inRegisterBlock off = false := decide_eq_false (Nat.not_lt.2 h)
  rw [hostWrite, hout]
  rfl

/-- A read of bytes that the windows show is their little-endian composition (R46). -/
theorem hostRead_of_windowByte {s : State} {off : BitVec 18} {w : Width} {bs : List Byte} (hlow : 0x10000 ≤ off.toNat)
    (hhigh : off.toNat + w.bytes ≤ 0x40000) (hlen : bs.length = w.bytes)
    (h : ∀ j, (hj : j < bs.length) → windowByte s (off.toNat + j) = some bs[j]) :
    hostRead s off w = (leBytes bs, s.draws) := by
  rw [hostRead_window hlow, ← hlen, readWindow_of_windowByte hlow (hlen ▸ hhigh) h]

theorem leBytes_replicate_zero (n : Nat) : leBytes (List.replicate n 0) = 0 := by
  induction n with
  | zero => rfl
  | succ n ih => rw [List.replicate_succ, leBytes, ih]; rfl

/-- A read where the windows show only zeros is 0. -/
theorem hostRead_of_zero {s : State} {off : BitVec 18} {w : Width} (hlow : 0x10000 ≤ off.toNat)
    (hhigh : off.toNat + w.bytes ≤ 0x40000) (h : ∀ j, j < w.bytes → windowByte s (off.toNat + j) = some 0) :
    hostRead s off w = (0, s.draws) := by
  rw [← leBytes_replicate_zero w.bytes]
  refine hostRead_of_windowByte hlow hhigh List.length_replicate fun j hj => ?_
  rw [List.getElem_replicate]
  exact h j (by simpa using hj)

/-- A byte read of a byte that the window shows. -/
theorem hostRead_byte {s : State} {off : BitVec 18} {b : Byte} (hlow : 0x10000 ≤ off.toNat)
    (h : windowByte s off.toNat = some b) : hostRead s off .w8 = (b.setWidth 32, s.draws) := by
  have hread := hostRead_of_windowByte (w := .w8) (bs := [b]) hlow (by have := off.isLt; simp only [Width.bytes]; omega)
    rfl fun j hj => by
      obtain rfl : j = 0 := by simpa using hj
      exact h
  simpa [leBytes] using hread

/-! ### The masked output -/

/-- Where OUT_BUF is masked it shows 0 (R49). -/
theorem windowByte_of_masked {s : State} {a : Nat} (ha : 0x30000 ≤ a)
    (h : s.status.busy = true ∨ s.status.outv = false ∨ s.outLen.toNat ≤ a - 0x30000) : windowByte s a = some 0 := by
  obtain ⟨o, rfl⟩ := Nat.exists_eq_add_of_le ha
  rw [Nat.add_sub_cancel_left] at h
  rw [windowByte_ob, if_neg]
  rintro ⟨hbusy, houtv, ho⟩
  obtain h | h | h := h
  · rw [hbusy] at h; cases h
  · rw [houtv] at h; cases h
  · omega

/-- A masked OUT_BUF reads 0 at every width (R49). -/
theorem hostRead_of_masked {s : State} {off : BitVec 18} {w : Width} (hlow : 0x30000 ≤ off.toNat)
    (hhigh : off.toNat + w.bytes ≤ 0x40000) (h : s.status.busy = true ∨ s.status.outv = false) :
    hostRead s off w = (0, s.draws) :=
  hostRead_of_zero (by omega) hhigh fun j _ => windowByte_of_masked (by omega) (h.imp_right .inl)

/-- Settles O20: a write leaves the host's list only, and OUT_BUF is masked. -/
theorem writesAreIgnoredWhileBusy : Obligations.WritesAreIgnoredWhileBusy :=
  fun _ hbusy => ⟨fun _ _ _ _ hin => hostStep_write_of_busy hin hbusy,
    fun _ _ hlow hhigh => hostRead_of_masked hlow hhigh (.inl hbusy)⟩

/-- Settles O24: the reset values of R36, no byte listed, and OUTV = 0 masks OUT_BUF. -/
theorem resetSetsEveryRegister : Obligations.ResetSetsEveryRegister := by
  intro s rest hin
  refine ⟨({ s with inputs := rest }).resetAction, by simp only [hostStep, hin], rfl, rfl, rfl, rfl, rfl, rfl, rfl, rfl,
    rfl, rfl, rfl, rfl, rfl, rfl, fun _ => ⟨rfl, rfl⟩, fun off w hlow hhigh => ?_⟩
  rw [hostRead_of_masked hlow hhigh (.inr rfl)]

/-- Settles O21: a byte of the view is the byte of OB or the mask's 0, and past CHECK the invariant masks all. -/
theorem outputIsMasked : Obligations.OutputIsMasked := by
  refine ⟨fun s o off ho hoff => ⟨fun hbusy houtv hlt b hb => ?shown, fun hmasked => ?masked⟩,
    fun s hinv hph => ?inv, fun s => ⟨rfl, rfl⟩⟩
  case shown =>
    refine hostRead_byte (by omega) ?_
    rw [hoff, windowByte_ob, if_pos ⟨hbusy, houtv, hlt⟩, hb]
  case masked =>
    refine hostRead_byte (b := 0) (by omega) (windowByte_of_masked (by omega) ?_)
    rwa [hoff, Nat.add_sub_cancel_left]
  case inv => rw [(hinv.running hph).status]

/-! ### What the host cannot see -/

/-- The view of OUT_BUF depends on STATUS, OUT_LEN and the bytes of OB it shows (R49). -/
theorem readOutput_congr {s t : State} (hstatus : t.status = s.status) (hlen : t.outLen = s.outLen)
    (h : s.status.busy = false → s.status.outv = true → ∀ o, o < s.outLen.toNat →
      Memory.get t.ob o = Memory.get s.ob o) (o d : Nat) : readOutput t o d = readOutput s o d := by
  unfold readOutput
  rw [hstatus, hlen]
  split
  · case isTrue hshown =>
    obtain ⟨hbusy, houtv, ho⟩ := hshown
    rw [Memory.load1, Memory.load1, h hbusy houtv o ho]
  · rfl

/-- What a byte read depends on: the input buffers and the view of OUT_BUF (R43). -/
theorem readWindowByte_congr {s t : State} (hab : t.ab = s.ab) (hib : t.ib = s.ib)
    (hout : ∀ o d, readOutput t o d = readOutput s o d) (a d : Nat) : readWindowByte t a d = readWindowByte s a d := by
  simp only [readWindowByte, hab, hib, hout]

theorem readWindow_congr {s t : State} (h : ∀ a d, readWindowByte t a d = readWindowByte s a d) (a n d : Nat) :
    readWindow t a n d = readWindow s a n d := by
  induction n generalizing a d with
  | zero => rfl
  | succ n ih => simp only [readWindow, h, ih]

/-- Settles O23: the register block reads none of the hidden fields, a window byte only the input buffers and the
masked view. -/
theorem hiddenStateIsNotReadable : Obligations.HiddenStateIsNotReadable := by
  intro s nfsr key ph nidx adp mp t0 t1 ob hob off w
  have hwindow := readWindow_congr (readWindowByte_congr (s := s) (t := { s with
    nfsr := nfsr, key := key, ph := ph, nidx := nidx, adp := adp, mp := mp, t0 := t0, t1 := t1, ob := ob }) rfl rfl
    (readOutput_congr rfl rfl hob))
  simp only [hostRead, hwindow]
  rfl

/-! ### What a write of the windows sets -/

theorem writeWindowByte_ab {s : State} {o : Nat} (ho : o < 0x10000) (b : Byte) :
    writeWindowByte s (0x10000 + o) b = if o < Config.adCap then { s with ab := Memory.set s.ab o b } else s := by
  simp only [writeWindowByte, show (0x10000 + o) / 0x10000 = 1 by omega, show (0x10000 + o) % 0x10000 = o by omega]

theorem writeWindowByte_ib {s : State} {o : Nat} (ho : o < 0x10000) (b : Byte) :
    writeWindowByte s (0x20000 + o) b = if o < Config.inCap then { s with ib := Memory.set s.ib o b } else s := by
  simp only [writeWindowByte, show (0x20000 + o) / 0x10000 = 2 by omega, show (0x20000 + o) % 0x10000 = o by omega]

theorem writeWindowByte_ob {s : State} {o : Nat} (ho : o < 0x10000) (b : Byte) :
    writeWindowByte s (0x30000 + o) b = s := by
  simp only [writeWindowByte, show (0x30000 + o) / 0x10000 = 3 by omega]

/-- A window write sets the byte of AB at its offset, below the capacity, and no other (R43). -/
theorem get_ab_writeWindowByte {s : State} {a : Nat} (hlow : 0x10000 ≤ a) (hhigh : a < 0x40000) (b : Byte) (p : Nat) :
    Memory.get (writeWindowByte s a b).ab p =
      if p < Config.adCap ∧ 0x10000 + p = a then some b else Memory.get s.ab p := by
  have hcap := adCap_le
  obtain ⟨o, ho, rfl | rfl | rfl⟩ := window_cases hlow hhigh
  · rw [writeWindowByte_ab ho]
    split
    · rw [Memory.get_set]
      split
      · rw [if_pos (by omega)]
      · rw [if_neg (by omega)]
    · rw [if_neg (by omega)]
  · have hother : ¬ (p < Config.adCap ∧ 0x10000 + p = 0x20000 + o) := by omega
    rw [writeWindowByte_ib ho, if_neg hother]
    split <;> rfl
  · rw [writeWindowByte_ob ho, if_neg (by omega)]

/-- A window write sets the byte of IB at its offset, below the capacity, and no other (R43). -/
theorem get_ib_writeWindowByte {s : State} {a : Nat} (hlow : 0x10000 ≤ a) (hhigh : a < 0x40000) (b : Byte) (p : Nat) :
    Memory.get (writeWindowByte s a b).ib p =
      if p < Config.inCap ∧ 0x20000 + p = a then some b else Memory.get s.ib p := by
  have hcap := inCap_le
  obtain ⟨o, ho, rfl | rfl | rfl⟩ := window_cases hlow hhigh
  · have hother : ¬ (p < Config.inCap ∧ 0x20000 + p = 0x10000 + o) := by omega
    rw [writeWindowByte_ab ho, if_neg hother]
    split <;> rfl
  · rw [writeWindowByte_ib ho]
    split
    · rw [Memory.get_set]
      split
      · rw [if_pos (by omega)]
      · rw [if_neg (by omega)]
    · rw [if_neg (by omega)]
  · rw [writeWindowByte_ob ho, if_neg (by omega)]

/-- An access sets the bytes of a buffer that it covers, each by its own offset (R46): `buf` is AB or IB, at the window
offset `base` with capacity `cap`. -/
theorem get_writeWindow {buf : State → Memory} {base cap : Nat}
    (hbyte : ∀ {s : State} {a : Nat}, 0x10000 ≤ a → a < 0x40000 → ∀ (b : Byte) (p : Nat),
      Memory.get (buf (writeWindowByte s a b)) p = if p < cap ∧ base + p = a then some b else Memory.get (buf s) p)
    {s : State} {a : Nat} {bs : List Byte} (hlow : 0x10000 ≤ a) (hhigh : a + bs.length ≤ 0x40000) (p : Nat) :
    Memory.get (buf (writeWindow s a bs)) p =
      if p < cap ∧ a ≤ base + p ∧ base + p < a + bs.length then bs[base + p - a]? else Memory.get (buf s) p := by
  induction bs generalizing s a with
  | nil => rw [writeWindow, if_neg (by rw [List.length_nil]; omega)]
  | cons b bs ih =>
    rw [List.length_cons] at hhigh ⊢
    rw [writeWindow, ih (by omega) (by omega), hbyte hlow (by omega)]
    by_cases hin : p < cap ∧ a + 1 ≤ base + p ∧ base + p < a + 1 + bs.length
    · rw [if_pos hin, if_pos (by omega), show base + p - a = base + p - (a + 1) + 1 by omega, List.getElem?_cons_succ]
    · rw [if_neg hin]
      split
      · case isTrue hfirst => rw [if_pos (by omega), show base + p - a = 0 by omega, List.getElem?_cons_zero]
      · rw [if_neg (by omega)]

/-- Bytes that lie within the capacity of AB are stored there (R46). -/
theorem writeWindow_ab {s : State} {o : Nat} {bs : List Byte} (h : o + bs.length ≤ Config.adCap) :
    writeWindow s (0x10000 + o) bs = { s with ab := Memory.storeBytes s.ab o bs } := by
  have hcap := adCap_le
  induction bs generalizing s o with
  | nil => rfl
  | cons b bs ih =>
    rw [List.length_cons] at h
    rw [writeWindow, writeWindowByte_ab (by omega), if_pos (by omega), Nat.add_assoc, ih (by omega)]
    rfl

/-- Bytes that lie within the capacity of IB are stored there (R46). -/
theorem writeWindow_ib {s : State} {o : Nat} {bs : List Byte} (h : o + bs.length ≤ Config.inCap) :
    writeWindow s (0x20000 + o) bs = { s with ib := Memory.storeBytes s.ib o bs } := by
  have hcap := inCap_le
  induction bs generalizing s o with
  | nil => rfl
  | cons b bs ih =>
    rw [List.length_cons] at h
    rw [writeWindow, writeWindowByte_ib (by omega), if_pos (by omega), Nat.add_assoc, ih (by omega)]
    rfl

/-! ### Words and bytes of an access -/

theorem word_eq_of_wordBytes {v w : Word} (h : ∀ j, j < 4 → wordByte v j = wordByte w j) : v = w := by
  rw [← le32_wordBytes v, ← le32_wordBytes w, h 0 (by omega), h 1 (by omega), h 2 (by omega), h 3 (by omega)]

theorem leBytes_st32 (v : Word) : leBytes (st32 v) = v := by
  refine word_eq_of_wordBytes fun j hj => ?_
  rw [wordByte_leBytes _ hj, List.getElem?_eq_getElem hj, getElem_st32 v hj]
  rfl

/-- The bytes of a written value: as many as the access has, the least significant first (R46). -/
theorem take_st32_getElem? (v : Word) (w : Width) {j : Nat} (hj : j < w.bytes) :
    ((st32 v).take w.bytes)[j]? = some (byteOf v j) := by
  have hlt : j < 4 := Nat.lt_of_lt_of_le hj w.bytes_le
  rw [List.getElem?_take_of_lt hj, List.getElem?_eq_getElem hlt, getElem_st32 v hlt]

theorem take_st32_length (v : Word) (w : Width) : ((st32 v).take w.bytes).length = w.bytes := by
  rw [List.length_take, st32_length]
  exact Nat.min_eq_left w.bytes_le

theorem toNat_leBytes_lt (bs : List Byte) : (leBytes bs).toNat < 256 ^ bs.length := by
  induction bs with
  | nil => decide
  | cons b bs ih =>
    have hpow : (256 : Nat) ^ (bs.length + 1) = 2 ^ (8 * (bs.length + 1)) := by rw [Nat.pow_mul]
    rw [List.length_cons, leBytes, BitVec.toNat_or, hpow]
    refine Nat.or_lt_two_pow ?_ ?_
    · have hb : (b.setWidth 32).toNat < 2 ^ 8 := by
        rw [BitVec.toNat_setWidth, Nat.mod_eq_of_lt] <;> have := b.isLt <;> omega
      exact Nat.lt_of_lt_of_le hb (Nat.pow_le_pow_right (by omega) (by omega))
    · rw [BitVec.toNat_shiftLeft, Nat.shiftLeft_eq, ← hpow, Nat.pow_succ]
      refine Nat.lt_of_le_of_lt (Nat.mod_le _ _) ?_
      omega

/-- A read whose every byte the windows show draws nothing. -/
theorem readWindow_draws {s : State} {a n : Nat} (hlow : 0x10000 ≤ a) (hhigh : a + n ≤ 0x40000)
    (h : ∀ j, j < n → (windowByte s (a + j)).isSome = true) (d : Nat) : (readWindow s a n d).2 = d := by
  induction n generalizing a with
  | zero => rfl
  | succ n ih =>
    obtain ⟨b, hb⟩ := Option.isSome_iff_exists.1 (h 0 (Nat.succ_pos n))
    rw [readWindow, readWindowByte_of_windowByte hlow (by omega) hb]
    refine ih (by omega) (by omega) fun j hj => ?_
    have := h (j + 1) (Nat.succ_lt_succ hj)
    rwa [Nat.add_right_comm, Nat.add_assoc]

/-- A word whose bytes the windows show is read whole. -/
theorem hostRead_word {s : State} {off : BitVec 18} {v : Word} (hlow : 0x10000 ≤ off.toNat)
    (hhigh : off.toNat + 4 ≤ 0x40000) (h : ∀ j, j < 4 → windowByte s (off.toNat + j) = some (byteOf v j)) :
    hostRead s off .w32 = (v, s.draws) := by
  have hread := hostRead_of_windowByte (w := .w32) (bs := st32 v) hlow hhigh rfl fun j hj => by
    rw [h j hj, getElem_st32 v hj]
  rwa [leBytes_st32] at hread

/-- A word written within the capacity of AB (R43, R46). -/
theorem hostWrite_word_ab {s : State} {o : Nat} {off : BitVec 18} (hcap : o + 4 ≤ Config.adCap)
    (hoff : off.toNat = 0x10000 + o) (v : Word) :
    hostWrite s off .w32 v = { s with ab := Memory.storeBytes s.ab o (st32 v) } := by
  rw [hostWrite_window (by omega), hoff]
  exact writeWindow_ab hcap

/-- A word written within the capacity of IB (R43, R46). -/
theorem hostWrite_word_ib {s : State} {o : Nat} {off : BitVec 18} (hcap : o + 4 ≤ Config.inCap)
    (hoff : off.toNat = 0x20000 + o) (v : Word) :
    hostWrite s off .w32 v = { s with ib := Memory.storeBytes s.ib o (st32 v) } := by
  rw [hostWrite_window (by omega), hoff]
  exact writeWindow_ib hcap

/-- Settles O18: each byte goes by its own offset, and the value is the little-endian composition of its bytes. -/
theorem hostWordsAreLittleEndianBytes : Obligations.HostWordsAreLittleEndianBytes := by
  refine ⟨fun s off w v hlow hhigh => ?write,
    fun s off w hlow hhigh => ⟨?bound, fun j b hj hb => ?byte, fun hall => ?draws⟩,
    fun s o off v hcap hoff => ?ib, fun s o off v hcap hoff => ?ab⟩
  case write =>
    have hlen := take_st32_length v w
    refine ⟨_, rfl, ?_, fun p => ?_, fun p => ?_⟩
    · rw [hostWrite_window hlow]
      exact writeWindow_frame ..
    · rw [hostWrite_window hlow, get_writeWindow (buf := State.ab) get_ab_writeWindowByte hlow (by omega), hlen]
      refine ite_congr rfl (fun h => ?_) fun _ => rfl
      exact take_st32_getElem? v w (by omega)
    · rw [hostWrite_window hlow, get_writeWindow (buf := State.ib) get_ib_writeWindowByte hlow (by omega), hlen]
      refine ite_congr rfl (fun h => ?_) fun _ => rfl
      exact take_st32_getElem? v w (by omega)
  case bound =>
    rw [hostRead_window hlow]
    simpa using toNat_leBytes_lt (readWindow s off.toNat w.bytes s.draws).1
  case byte =>
    obtain ⟨e, he⟩ := readWindow_getElem? (s := s) (a := off.toNat) hj s.draws
    rw [readWindowByte_of_windowByte (by omega) (by omega) hb] at he
    rw [hostRead_window hlow]
    change wordByte (leBytes _) j = b
    rw [wordByte_leBytes _ (Nat.lt_of_lt_of_le hj w.bytes_le), he]
    rfl
  case draws =>
    rw [hostRead_window hlow]
    exact readWindow_draws hlow hhigh hall s.draws
  case ib =>
    have hlimit := inCap_le
    have hshown : ∀ j, j < 4 → windowByte { s with ib := Memory.storeBytes s.ib o (st32 v) } (off.toNat + j) =
        some (byteOf v j) := fun j hj => by
      rw [hoff, Nat.add_assoc, windowByte_ib (by omega), if_pos (by omega)]
      exact Memory.get_storeBytes_st32 s.ib o v hj
    refine ⟨_, hostWrite_word_ib hcap hoff v, rfl, fun j hj => Memory.get_storeBytes_st32 s.ib o v hj,
      fun p hp => Memory.get_storeBytes_outside s.ib o (st32 v) hp, hostRead_word (by omega) (by omega) hshown,
      fun j q hj hq => hostRead_byte (by omega) ?_⟩
    rw [hq]
    exact hshown j hj
  case ab =>
    have hlimit := adCap_le
    have hshown : ∀ j, j < 4 → windowByte { s with ab := Memory.storeBytes s.ab o (st32 v) } (off.toNat + j) =
        some (byteOf v j) := fun j hj => by
      rw [hoff, Nat.add_assoc, windowByte_ab (by omega), if_pos (by omega)]
      exact Memory.get_storeBytes_st32 s.ab o v hj
    exact ⟨_, hostWrite_word_ab hcap hoff v, rfl, fun j hj => Memory.get_storeBytes_st32 s.ab o v hj,
      fun p hp => Memory.get_storeBytes_outside s.ab o (st32 v) hp, hostRead_word (by omega) (by omega) hshown⟩

theorem hostWrite_byte {s : State} {off : BitVec 18} (h : 0x10000 ≤ off.toNat) (v : Word) :
    hostWrite s off .w8 v = writeWindowByte s off.toNat (byteOf v 0) := hostWrite_window h

/-- Settles O19: a byte access is one byte of one window, below or past its capacity. -/
theorem windowBytesRespectTheCapacities : Obligations.WindowBytesRespectTheCapacities := by
  intro s o off v ho
  refine ⟨fun hoff hcap => ⟨?_, fun b hb => hostRead_byte (by omega) ?_⟩,
    fun hoff hcap => ⟨hostRead_byte (b := 0) (by omega) ?_, ?_⟩,
    fun hoff hcap => ⟨?_, fun b hb => hostRead_byte (by omega) ?_⟩,
    fun hoff hcap => ⟨hostRead_byte (b := 0) (by omega) ?_, ?_⟩, fun hoff => ?_⟩
  · rw [hostWrite_byte (by omega), hoff, writeWindowByte_ab ho, if_pos hcap]
  · rw [hoff, windowByte_ab ho, if_pos hcap, hb]
  · rw [hoff, windowByte_ab ho, if_neg (Nat.not_lt.2 hcap)]
  · rw [hostWrite_byte (by omega), hoff, writeWindowByte_ab ho, if_neg (Nat.not_lt.2 hcap)]
  · rw [hostWrite_byte (by omega), hoff, writeWindowByte_ib ho, if_pos hcap]
  · rw [hoff, windowByte_ib ho, if_pos hcap, hb]
  · rw [hoff, windowByte_ib ho, if_neg (Nat.not_lt.2 hcap)]
  · rw [hostWrite_byte (by omega), hoff, writeWindowByte_ib ho, if_neg (Nat.not_lt.2 hcap)]
  · rw [hostWrite_byte (by omega), hoff, writeWindowByte_ob ho]

/-! ### The register block -/

/-- An offset that a list of offsets does not hold is none of their numbers. -/
theorem toNat_notMem {off : BitVec 18} {l : List (BitVec 18)} (h : off ∉ l) : off.toNat ∉ l.map BitVec.toNat :=
  mt (List.mem_map_of_injective fun _ _ => BitVec.eq_of_toNat_eq).1 h

theorem hostRead_register {s : State} {off : BitVec 18} {w : Width} (h : off.toNat < 0x10000) :
    hostRead s off w = (if isWordAccess off w then readRegister s off.toNat else 0, s.draws) :=
  if_pos (decide_eq_true h)

theorem hostWrite_register {s : State} {off : BitVec 18} {w : Width} {v : Word} (h : off.toNat < 0x10000) :
    hostWrite s off w v = if isWordAccess off w then writeRegister s off.toNat v else s :=
  if_pos (decide_eq_true h)

theorem isWordAccess_iff (off : BitVec 18) (w : Width) :
    isWordAccess off w = true ↔ w = .w32 ∧ off.toNat % 4 = 0 := by
  simp [isWordAccess]

/-- KEY and the reserved offsets read 0 (R41). -/
theorem readRegister_reserved {s : State} {off : Nat}
    (h : off ∉ [0x00, 0x04, 0x08, 0x0C, 0x10, 0x14, 0x18, 0x30, 0x34, 0x38]) : readRegister s off = 0 := by
  simp only [List.mem_cons, List.not_mem_nil, or_false, not_or] at h
  simp [readRegister, h]

/-- The read-only and the reserved offsets ignore a write (R41). -/
theorem writeRegister_reserved {s : State} {off : Nat} {v : Word}
    (h : off ∉ [0x00, 0x08, 0x0C, 0x20, 0x24, 0x28, 0x2C, 0x30, 0x34, 0x38]) : writeRegister s off v = s := by
  simp only [List.mem_cons, List.not_mem_nil, or_false, not_or] at h
  simp [writeRegister, h]

/-- Settles O17: each mapped offset computes to its register, every other offset of the block is reserved, and an
access that is no aligned word is none of the block's. -/
theorem registerBlockAccesses : Obligations.RegisterBlockAccesses := by
  refine ⟨fun s => ⟨toNat_ctrlWord s.ctrlOp, s.status.toNat_toWord, rfl, rfl, rfl, ?adCap, ?inCap, rfl, rfl, rfl,
    fun off hlt hoff => ?readReserved⟩, fun s v => ⟨rfl, rfl, rfl, rfl, rfl, rfl, rfl, rfl, rfl,
    fun off hlt hoff => ?writeReserved⟩, fun s off w v hlt hno => ?noWord, hostStep_next⟩
  case adCap =>
    have hcap := adCap_le
    exact Nat.mod_eq_of_lt (by omega)
  case inCap =>
    have hcap := inCap_le
    exact Nat.mod_eq_of_lt (by omega)
  case readReserved =>
    rw [hostRead_register hlt, readRegister_reserved (toNat_notMem hoff), ite_self]
  case writeReserved =>
    rw [hostWrite_register hlt, writeRegister_reserved (toNat_notMem hoff), ite_self]
  case noWord =>
    have hnot : ¬ isWordAccess off w = true := by rw [isWordAccess_iff]; tauto
    rw [hostRead_register hlt, hostWrite_register hlt, if_neg hnot, if_neg hnot]
    exact ⟨rfl, rfl⟩

end Sys2Proof.Machine
end

section
/-! PROOFS. The message transform mirrored and the completions (42_message.md R94; 43_finalization.md R97 to R99): what
an encrypt step wrote, a decrypt step reads; a tag appended; a tag compared. -/

namespace Sys2Proof.Machine

/-! ### A decrypt step mirrors the encrypt step -/

/-- A read where another buffer holds bytes at its own offset. -/
theorem Memory.holds_of_get_eq {m n : Memory} {o p : Nat} {bs : List Byte} (h : Memory.holds m o bs)
    (heq : ∀ j, j < bs.length → Memory.get n (p + j) = Memory.get m (o + j)) : Memory.holds n p bs :=
  fun j hj => (heq j hj).trans (h j hj)

theorem Memory.loadWord_of_holds {m : Memory} {o : Nat} {w : Word} (h : Memory.holds m o (st32 w)) (d : Nat) :
    Memory.loadWord m o d = (w, d) := by
  rw [Memory.loadWord_eq, Memory.loadBytes_of_holds h (st32_length w), leBytes_st32]

/-- MSG_FULL_DEC of the word that MSG_FULL_ENC wrote (R94). -/
theorem msgFullDec_mirrors {s d t : State} (hnfsr : d.nfsr = s.nfsr) (hkey : d.key = s.key) (hd : d.mp + 4 ≤ d.ml)
    (hexec : execMsgFullEnc s = .next t)
    (hread : ∀ j, j < 4 → Memory.get d.ib (d.mp + j) = Memory.get t.ob (s.mp + j)) :
    ∃ u, execMsgFullDec d = .next u ∧ u.nfsr = t.nfsr ∧ u.draws = d.draws ∧
      u.ob = Memory.storeBytes d.ob d.mp (st32 s.msgWord.1) := by
  obtain ⟨-, rfl⟩ := execMsgFullEnc_next hexec
  have hword : d.msgWord = ((tagLong s.nfsr s.key Config.fbMsg).s2 ^^^ s.msgWord.1, d.draws) :=
    Memory.loadWord_of_holds (Memory.holds_of_get_eq (Memory.holds_storeBytes s.ob s.mp _) hread) d.draws
  have hplain : (tagLong d.nfsr d.key Config.fbMsg).s2 ^^^ d.msgWord.1 = s.msgWord.1 := by
    rw [hword, hnfsr, hkey, ← BitVec.xor_assoc, BitVec.xor_self, BitVec.zero_xor]
  refine ⟨_, if_pos hd, ?_, congrArg Prod.snd hword, ?_⟩
  · rw [hplain, hnfsr, hkey]
    rfl
  · rw [hplain]
    rfl

/-- MSG_PART_DEC of the bytes that MSG_PART_ENC wrote (R94). -/
theorem msgPartDec_mirrors {s d t : State} {r : Nat} (hnfsr : d.nfsr = s.nfsr) (hkey : d.key = s.key)
    (hs : s.mp + r = s.ml) (hd : d.mp + r = d.ml) (hlow : 1 ≤ r) (hhigh : r ≤ 3) (hexec : execMsgPartEnc s = .next t)
    (hread : ∀ j, j < r → Memory.get d.ib (d.mp + j) = Memory.get t.ob (s.mp + j)) :
    ∃ u, execMsgPartDec d = .next u ∧ u.nfsr = t.nfsr ∧ u.draws = d.draws ∧
      u.ob = Memory.storeBytes d.ob d.mp (Memory.loadBytes s.ib s.mp r s.draws).1 := by
  cases (execMsgPartEnc_of_rest hs hlow hhigh rfl).symm.trans hexec
  have hlen := Memory.loadBytes_length s.ib s.mp r s.draws
  have hload := Memory.loadBytes_of_holds (n := r) (Memory.holds_of_get_eq (p := d.mp) (n := d.ib)
    (Memory.holds_storeBytes s.ob s.mp (xorKeystream (tagLong s.nfsr s.key Config.fbMsg).s2 0
      (Memory.loadBytes s.ib s.mp r s.draws).1)) fun j hj => hread j (by simpa using hj)) (by simp) d.draws
  have hplain : xorKeystream (tagLong d.nfsr d.key Config.fbMsg).s2 0 (Memory.loadBytes d.ib d.mp r d.draws).1 =
      (Memory.loadBytes s.ib s.mp r s.draws).1 := by
    rw [hload, hnfsr, hkey, xorKeystream_xorKeystream]
  refine ⟨_, execMsgPartDec_of_rest hd hlow hhigh hplain, ?_, congrArg Prod.snd hload, rfl⟩
  simp only [State.afterMsgPart, hnfsr, hkey]

/-- Settles O38: the keystream word is the same, and XORing it twice gives the plaintext back. -/
theorem decryptStepMirrorsEncryptStep : Obligations.DecryptStepMirrorsEncryptStep := by
  intro s d t hnfsr hkey
  refine ⟨fun _ hd hexec hread => ?full, fun r hs hd hlow hhigh hexec hread => ?part⟩
  case full =>
    obtain ⟨u, hu, hsame, hdraws, hob⟩ := msgFullDec_mirrors hnfsr hkey hd hexec hread
    refine ⟨u, hu, hsame, hdraws, fun j hj => ?_⟩
    rw [hob]
    exact Memory.get_storeBytes_st32 d.ob d.mp _ hj
  case part =>
    obtain ⟨u, hu, hsame, hdraws, hob⟩ := msgPartDec_mirrors hnfsr hkey hs hd hlow hhigh hexec hread
    refine ⟨u, hu, hsame, hdraws, fun j hj => ?_⟩
    have hlt : j < (Memory.loadBytes s.ib s.mp r s.draws).1.length := by rwa [Memory.loadBytes_length]
    rw [hob, Memory.get_storeBytes_inside d.ob d.mp _ hlt, List.getElem?_eq_getElem hlt]

/-! ### Completions -/

/-- Settles O41: the tag is two words stored one after the other at ML, and the completion zeroes the rest. -/
theorem finishEncAppendsTheTag : Obligations.FinishEncAppendsTheTag := by
  intro s
  refine ⟨_, rfl, rfl, fun j hj => ?tag, fun a ha => Memory.get_storeBytes_outside s.ob s.ml s.tagBytes ha⟩
  case tag =>
    change Memory.get (Memory.storeBytes s.ob s.ml s.tagBytes) _ = _ ∧
      Memory.get (Memory.storeBytes s.ob s.ml s.tagBytes) _ = _
    rw [State.tagBytes, Memory.storeBytes_append, st32_length]
    refine ⟨?_, Memory.get_storeBytes_st32 _ _ _ hj⟩
    rw [Memory.get_storeBytes_outside _ _ _ (by omega), Memory.get_storeBytes_st32 _ _ _ hj]

/-- Settles O42: no difference is accumulated exactly where the supplied bytes are the computed ones. -/
theorem verifyDecComparesEveryTagByte : Obligations.VerifyDecComparesEveryTagByte := by
  intro s supplied d hload
  refine ⟨fun hmatch => ?agrees, fun hmatch => ?differs⟩
  case agrees =>
    subst hmatch
    exact execVerifyDec_of_match hload
  case differs =>
    have htag : s.suppliedTag = (supplied, d) := hload
    have hverify := execVerifyDec_of_mismatch (s := s) (by rw [htag]; exact hmatch)
    rw [htag] at hverify
    exact ⟨_, hverify, rfl, Memory.get_zeroFirst s.ob s.ml⟩

/-- Settles O43: both completions zero the tag words, and only whether the tag matches chooses between them. -/
theorem decryptHidesItsTag : Obligations.DecryptHidesItsTag := by
  intro s t0 t1 hagree
  by_cases hmatch : s.suppliedTag.1 = s.tagBytes
  · have hmatch' : s.suppliedTag.1 = st32 t0 ++ st32 t1 := hagree.1 hmatch
    exact (execVerifyDec_of_match (s := { s with t0 := t0, t1 := t1 }) (Prod.ext hmatch' rfl)).trans
      (execVerifyDec_of_match (s := s) (Prod.ext hmatch rfl)).symm
  · have hmatch' : s.suppliedTag.1 ≠ st32 t0 ++ st32 t1 := mt hagree.2 hmatch
    exact (execVerifyDec_of_mismatch (s := { s with t0 := t0, t1 := t1 }) hmatch').trans
      (execVerifyDec_of_mismatch hmatch).symm

end Sys2Proof.Machine
end

section
/-! PROOFS. `advance` batch by batch (40_register_engine.md R73, R74), LOADKEY (30_encoding.md R68), and the platform
(60_exceptions.md R133, 20_memory.md R40). -/

namespace Sys2Proof.Machine

/-! ### Batches in order -/

/-- One batch more is appended at the end, with the next number (R73). -/
theorem batchesFrom_succ (k : Key) (b n : Nat) (s : Nfsr) :
    batchesFrom k b (n + 1) s = batch (batchesFrom k b n s) k (b + n) := by
  induction n generalizing b s with
  | zero => rfl
  | succ n ih => rw [batchesFrom, ih, Nat.add_right_comm, Nat.add_assoc]; rfl

/-- Settles O11: a multiple of 32 steps is its batches from counter 0 on. -/
theorem advanceRunsItsBatchesInOrder : Obligations.AdvanceRunsItsBatchesInOrder := by
  intro s k
  refine ⟨fun steps h => if_neg h, rfl, fun n => ?append, advance_mul s k 20, advance_1280 s k⟩
  case append =>
    rw [advance_mul, advance_mul, Option.map_some, batches, batchesFrom_succ, Nat.zero_add]
    rfl

/-! ### LOADKEY -/

/-- In IDLE a host with something to do moves, and no choice is used up. -/
theorem step_of_idleHost {s : State} (hph : s.ph = phIdle) (herr : s.status.err.toNat ≤ 3) (hin : s.inputs ≠ []) :
    step s = hostStep s := by
  have hgood : s.badState = none := badState_eq_none.2 ⟨by simp [hph], herr⟩
  have hturn := turn_of_idle hin hph
  rw [step_of_hostTurn hgood (congrArg Prod.fst hturn), hturn]

/-- A word written to a register other than CTRL on an idle engine. -/
theorem step_registerWrite {s : State} {off : BitVec 18} {v : Word} {rest : List HostInput} (hph : s.ph = phIdle)
    (hidle : s.status.busy = false) (herr : s.status.err.toNat ≤ 3) (hin : s.inputs = .write off .w32 v :: rest)
    (hoff : off ≠ 0) : step s = .next (hostWrite { s with inputs := rest } off .w32 v) := by
  rw [step_of_idleHost hph herr (by rw [hin]; exact List.cons_ne_nil _ _)]
  exact hostStep_plainWrite hin hidle (.inr hoff)

/-- The four writes of LOADKEY, each of a word of the key (R68). -/
theorem runSteps_loadKey {s : State} (w0 w1 w2 w3 : Word) (hph : s.ph = phIdle) (hidle : s.status.busy = false)
    (herr : s.status.err.toNat ≤ 3)
    (hin : s.inputs = [wr32 (offKey 0) w0, wr32 (offKey 1) w1, wr32 (offKey 2) w2, wr32 (offKey 3) w3]) :
    runSteps 4 s = .next { s with key := ⟨w0, w1, w2, w3⟩, inputs := [] } := by
  have hfirst := step_registerWrite hph hidle herr hin (by decide)
  have hsecond := step_registerWrite (s := { s with
    key := { s.key with k0 := w0 }, inputs := [wr32 (offKey 1) w1, wr32 (offKey 2) w2, wr32 (offKey 3) w3] })
    hph hidle herr rfl (by decide)
  have hthird := step_registerWrite (s := { s with
    key := { s.key with k0 := w0, k1 := w1 }, inputs := [wr32 (offKey 2) w2, wr32 (offKey 3) w3] })
    hph hidle herr rfl (by decide)
  have hfourth := step_registerWrite (s := { s with
    key := { s.key with k0 := w0, k1 := w1, k2 := w2 }, inputs := [wr32 (offKey 3) w3] }) hph hidle herr rfl (by decide)
  exact (runSteps_succ 3 hfirst).trans ((runSteps_succ 2 hsecond).trans ((runSteps_succ 1 hthird).trans
    (runSteps_one hfourth)))

/-- Settles O58: each four bytes of the key are the LE32 of one key word. -/
theorem loadKeyWritesLittleEndianWords : Obligations.LoadKeyWritesLittleEndianWords := by
  intro s key hph hidle herr hlen hin
  match key, hlen with
  | [b0, b1, b2, b3, b4, b5, b6, b7, b8, b9, b10, b11, b12, b13, b14, b15], _ =>
    refine ⟨_, runSteps_loadKey (le32 b0 b1 b2 b3) (le32 b4 b5 b6 b7) (le32 b8 b9 b10 b11) (le32 b12 b13 b14 b15) hph
      hidle herr hin, rfl, fun j hj => ?_⟩
    have hbyte (c0 c1 c2 c3 : Byte) : [c0, c1, c2, c3][j]? = some (byteOf (le32 c0 c1 c2 c3) j) := by
      rw [← st32_le32 c0 c1 c2 c3, List.getElem?_eq_getElem hj, getElem_st32 _ hj]
    simp only [← hbyte]
    interval_cases j <;> exact ⟨rfl, rfl, rfl, rfl⟩

/-! ### The platform -/

theorem busOffset_eq_some {k a o : Nat} :
    busOffset k a = some o ↔ a = Config.base k + o ∧ o < Config.apertureBytes := by
  unfold busOffset
  split
  · rw [Option.some.injEq]; omega
  · simp; omega

/-- An address lies in one aperture at most (R40). -/
theorem busOffset_unique {k j a o q : Nat} (hk : busOffset k a = some o) (hj : busOffset j a = some q) :
    k = j ∧ o = q := by
  rw [busOffset_eq_some] at hk hj
  obtain ⟨hka, ho⟩ := hk
  obtain ⟨hja, hq⟩ := hj
  have hkj : k = j := by
    rcases Nat.lt_trichotomy k j with hlt | rfl | hlt
    · have := base_add_aperture_le hlt; omega
    · rfl
    · have := base_add_aperture_le hlt; omega
  subst hkj
  exact ⟨rfl, by omega⟩

/-- The engine whose aperture holds the address is the target of the access. -/
theorem Platform.target_eq_some {p : Platform} {k a o : Nat} (hk : k < p.instances.length)
    (ho : busOffset k a = some o) : p.target a = some (k, o) := by
  cases h : p.target a with
  | none =>
    have hnone := List.findSome?_eq_none_iff.1 h k (List.mem_range.2 hk)
    rw [ho] at hnone
    cases hnone
  | some x =>
    obtain ⟨j, -, hj⟩ := List.exists_of_findSome?_eq_some h
    obtain ⟨q, hq, rfl⟩ := Option.map_eq_some_iff.1 hj
    obtain ⟨rfl, rfl⟩ := busOffset_unique ho hq
    rfl

/-- An address in no aperture has no target. -/
theorem Platform.target_eq_none {p : Platform} {a : Nat} (h : ∀ k, k < p.instances.length → busOffset k a = none) :
    p.target a = none :=
  List.findSome?_eq_none_iff.2 fun k hk => by rw [h k (List.mem_range.1 hk)]; rfl

/-- A step of one engine of a platform changes no other, and the draws it used are used for all. -/
theorem Platform.onInstance_frame {p : Platform} {k : Nat} {s t : State}
    {f : State → Host.Outcome State Fault Refusal} (hk : p.instances[k]? = some s)
    (hf : f { s with draws := p.draws } = .next t) (hdraws : p.draws ≤ t.draws) :
    ∃ q, p.onInstance k f = .next q ∧ q.instances[k]? = some t ∧ (∀ j, j ≠ k → q.instances[j]? = p.instances[j]?) ∧
      q.draws = t.draws ∧ p.draws ≤ q.draws := by
  obtain ⟨hlt, -⟩ := List.getElem?_eq_some_iff.1 hk
  exact ⟨_, Platform.onInstance_next hk hf, List.getElem?_set_self hlt,
    fun j hj => List.getElem?_set_ne hj.symm, rfl, hdraws⟩

/-- Settles O60: disjoint aligned apertures name at most one target, and a step of one engine sets that one. -/
theorem instancesShareNothing : Obligations.InstancesShareNothing := by
  refine ⟨fun k => Nat.mul_mod_left _ _, fun k j a o q hk hj => ?apertures, fun p k s t hk hstep => ?step,
    fun p k a o x s t hk ho hgood hstep => ?access, fun p a x hnone => ?outside⟩
  case apertures =>
    obtain ⟨hkj, hoq⟩ := busOffset_unique hk hj
    exact ⟨hkj, hoq, (busOffset_eq_some.1 hk).2⟩
  case step => exact Platform.onInstance_frame hk hstep (step_draws_le hstep)
  case access =>
    obtain ⟨hlt, -⟩ := List.getElem?_eq_some_iff.1 hk
    have haccess : accessStep (x.at o) { s with draws := p.draws } = .next t := by
      rw [accessStep, show State.badState { s with draws := p.draws } = none from hgood]
      exact hstep
    rw [Platform.busStep, Platform.target_eq_some hlt ho]
    exact Platform.onInstance_frame hk haccess (hostStep_draws_le hstep)
  case outside => rw [Platform.busStep, Platform.target_eq_none hnone]

end Sys2Proof.Machine
end
